-- ==== Sys2Proof/Word.lean ====
section
/-! DEFINITION. The widths of the machine's data: a 32-bit register or pixel word, an 8-bit channel or byte
(spec/00_scope.md R8, R9 and R10; nothing is signed). -/

namespace Sys2Proof

/-- A 32-bit register value or pixel word (R9: REG_BITS = PIXEL_WORD_BITS = 32). -/
abbrev Word := BitVec 32

/-- An 8-bit channel value or byte of byte space (R8: CHAN_BITS = BYTE_BITS = 8). -/
abbrev Byte := BitVec 8

end Sys2Proof
end

