-- ==== Sys2Proof/Config.lean ====
section
/-! DEFINITION. What the spec leaves to the implementation (the OPEN sizes of the two memories, R9) and the free
values: constants with no body, so that nothing can be proved of what they are. -/

namespace Sys2Proof

/-- Free choice behind `Config.pixAw` (R9 leaves PIX_AW OPEN, an integer from 1 to 32). -/
opaque Config.pixelSpaceChoice : Fin 32

/-- Free choice behind `Config.byteAw` (R9 leaves BYTE_AW OPEN, an integer from 1 to 32). -/
opaque Config.byteSpaceChoice : Fin 32

/-- PIX_AW, the OPEN size parameter of pixel space, somewhere from 1 to 32 (R9, D3, I-10; log entry 2). -/
def Config.pixAw : Nat := 32 - Config.pixelSpaceChoice.val

/-- BYTE_AW, the OPEN size parameter of byte space, somewhere from 1 to 32 (R9, D3, I-10; log entry 2). -/
def Config.byteAw : Nat := 32 - Config.byteSpaceChoice.val

/-- The draws of a pixel word or a latched operand with no law: R74 item 3, R261, I-2, I-5 and I-6 (log entries
3 to 5). The argument is the value of the draw counter. -/
opaque Config.freeWord : Nat → Word

/-- The draws of a byte with no law: R74 item 3, R261, I-2, I-5 and I-6 (log entries 3 to 5). -/
opaque Config.freeByte : Nat → Byte

/-- The draws of an internal index or counter with no law: I-6 (log entry 5). -/
opaque Config.freeNat : Nat → Nat

/-- The draws of the decoder's completed-byte store with no law: I-6 (log entry 5). -/
opaque Config.freeBytes : Nat → List Byte

end Sys2Proof
end

