-- ==== Sys2Proof/Syntax.lean ====
section
/-! DEFINITION. What the machine can be asked to do: the commands of spec/opcode_table.json, the fields of a CTRL
write (spec/30_encoding.md R95), the register names (spec/10_state.md R22) and the moves of host, core and platform
(spec/44_control.md R200, spec/30_encoding.md R100). -/

namespace Sys2Proof

/-- The four command words of R95, one constructor per row of spec/opcode_table.json. A command word carries no
operand and no immediate (R97): the operands are latched from registers at START. -/
inductive Instr where
  | encode       -- OP = 0, R127
  | decode       -- OP = 1, R159
  | capacity     -- OP = 2, R190
  | reservedOp3  -- OP = 3, R96
deriving DecidableEq, Repr

/-- A value written to CTRL, split into the fields of R23 and R95. -/
structure CtrlFields where
  /-- bits 31:4, ignored by the core -/
  reserved : BitVec 28
  /-- bit 3, does not select the command -/
  irqEn : Bool
  /-- bits 2:1 -/
  op : BitVec 2
  /-- bit 0, START -/
  start : Bool
deriving DecidableEq, Repr

/-- The ten registers of the register block (R22). -/
inductive Reg where
  | ctrl
  | status
  | dim
  | srcBase
  | dstBase
  | payBase
  | payLen
  | outBase
  | resultLo
  | resultHi
deriving DecidableEq, Repr

/-- The embeddable channels: the lanes of the rgb_channel_mux (R92). No lane selects alpha. -/
inductive Lane where
  | red
  | green
  | blue
deriving DecidableEq, Repr

/-- One step of the table of R200, by the agent that takes it. A list of moves is a schedule: it fixes the host's
actions and the number of idle steps (LATENCY) the core takes before each completion. -/
inductive Move where
  /-- host: register read of `bits` bits at byte offset `offset` (R201; `RD`) -/
  | regRead (bits offset : Nat)
  /-- host: register write of `bits` bits at byte offset `offset` (R202, R205, R206; `WR`) -/
  | regWrite (bits offset : Nat) (value : Word)
  /-- host: reads pixel-space word `index` (`PR`) -/
  | pixRead (index : Nat)
  /-- host: writes pixel-space word `index` (`PW`) -/
  | pixWrite (index : Nat) (value : Word)
  /-- host: reads byte-space byte `addr` (`BR`) -/
  | byteRead (addr : Nat)
  /-- host: writes byte-space byte `addr` (`BW`) -/
  | byteWrite (addr : Nat) (value : Byte)
  /-- core: an idle step, enabled while BUSY = 1 (R203) -/
  | idle
  /-- core: the completion step, enabled while BUSY = 1 (R203) -/
  | complete
  /-- platform: reset of the addressed instance (R260) -/
  | reset
  /-- the host's `WAITDONE` loop (R101): a STATUS read that is repeated while it finds DONE = 0. After the first such
  read the next `gaps.head` moves come before the following read, and so on (log entry 11). -/
  | waitDone (gaps : List Nat)
  /-- the moves from here on address the register block of another instance, number `k` of the others (R233; log entry
  12) -/
  | select (k : Nat)
deriving DecidableEq, Repr

end Sys2Proof
end

