-- ==== Sys2Proof/WellFormed.lean ====
section
/-! DEFINITION. Which commands, CTRL writes, register accesses and moves are well formed (spec/10_state.md R29,
spec/30_encoding.md R95 and R96, spec/20_memory.md R61 and R62). -/

namespace Sys2Proof

/-- Every command word is well formed: the reserved code OP = 3 is accepted like any other and has a defined outcome
(R96), and no command carries an operand (R97). -/
def Instr.wf : Instr → Bool
  | .encode => true
  | .decode => true
  | .capacity => true
  | .reservedOp3 => true

/-- A CTRL value is a command exactly when its bit 0, START, is 1 (R90, R95). -/
def CtrlFields.isCommand (f : CtrlFields) : Bool := f.start

/-- R29: every register access is 32 bits wide and at an offset that is a multiple of 4. -/
def registerAccessWf (bits offset : Nat) : Bool := bits == 32 && offset % 4 == 0

/-- The moves that name a register access of R29 or a location that R61 and R62 give the two spaces
(`pixAw` and `byteAw` are the OPEN sizes). Whether a move is enabled depends on the state (R200). -/
def Move.wf (pixAw byteAw : Nat) : Move → Bool
  | .regRead bits offset => registerAccessWf bits offset
  | .regWrite bits offset _ => registerAccessWf bits offset
  | .pixRead index => decide (index < 2 ^ pixAw)
  | .pixWrite index _ => decide (index < 2 ^ pixAw)
  | .byteRead addr => decide (addr < 2 ^ byteAw)
  | .byteWrite addr _ => decide (addr < 2 ^ byteAw)
  | .idle => true
  | .complete => true
  | .reset => true
  | .waitDone _ => true
  | .select _ => true

end Sys2Proof
end

