-- ==== Sys2Proof/Decode.lean ====
section
/-! DEFINITION. The decoder of the 32-bit CTRL write and its encoder (spec/30_encoding.md R90, R95, R96), and the
decoder of register offsets (spec/10_state.md R22). -/

namespace Sys2Proof

/-- A row of the command table: the value `pattern` under `mask` selects `instr` (R95). -/
structure CommandRow where
  mask : Word
  pattern : Word
  instr : Instr
deriving DecidableEq, Repr

/-- The four command rows of R95, as spec/opcode_table.json lists them. -/
def commandTable : List CommandRow :=
  [ ⟨0x00000007#32, 0x00000001#32, .encode⟩,
    ⟨0x00000007#32, 0x00000003#32, .decode⟩,
    ⟨0x00000007#32, 0x00000005#32, .capacity⟩,
    ⟨0x00000007#32, 0x00000007#32, .reservedOp3⟩ ]

/-- A CTRL value matches a row when its masked bits are the row's pattern. -/
def CommandRow.selects (r : CommandRow) (w : Word) : Bool := w &&& r.mask == r.pattern

/-- Why a value is not read as a command. -/
inductive DecodeError where
  /-- bit 0 is 0: the write only updates OP and IRQ_EN (R90; the row `xx0` of R95). Safe: the machine performs the
  write as the spec says. -/
  | notACommand
  /-- more than one 32-bit word: every command is one 32-bit CTRL write (R99). Safe. -/
  | tooLong
deriving DecidableEq, Repr

/-- The command a 32-bit CTRL write carries. Decoding looks only at bits 2:0 (R95). -/
def decode (w : Word) : Except DecodeError Instr :=
  match commandTable.find? (fun r => r.selects w) with
  | some r => .ok r.instr
  | none => .error .notACommand

/-- The decoder on a string of `nbits` bits whose value is `w`, the bits above `nbits` being 0. -/
def decodeBits (nbits w : Nat) : Except DecodeError Instr :=
  if nbits ≤ 32 then decode (BitVec.ofNat 32 (w % 2 ^ nbits)) else .error .tooLong

/-- The decoder for a word of spec/opcode_table.json. -/
def decodeTableWord (nbits w : Nat) : Option Instr :=
  match decodeBits nbits w with
  | .ok i => some i
  | .error _ => none

/-- The fields of a CTRL value (R23, R95). -/
def parseCtrl (w : Word) : CtrlFields where
  reserved := w.extractLsb' 4 28
  irqEn := w.getLsbD 3
  op := w.extractLsb' 1 2
  start := w.getLsbD 0

/-- The CTRL value with the given fields (R23, R95). -/
def buildCtrl (f : CtrlFields) : Word :=
  f.reserved ++ (BitVec.ofBool f.irqEn ++ (f.op ++ BitVec.ofBool f.start))

/-- The OP code of a command (R95, R98). -/
def Instr.opCode : Instr → BitVec 2
  | .encode => 0#2
  | .decode => 1#2
  | .capacity => 2#2
  | .reservedOp3 => 3#2

/-- The command an OP code selects: all four codes are taken (R96, R98; the `case` of R203). -/
def instrOfOp (op : BitVec 2) : Instr :=
  if op = 0#2 then .encode
  else if op = 1#2 then .decode
  else if op = 2#2 then .capacity
  else .reservedOp3

/-- The command word of `i` with IRQ_EN and the ignored bits 31:4 as given (R95). -/
def encodeWith (reserved : BitVec 28) (irqEn : Bool) (i : Instr) : Word :=
  buildCtrl ⟨reserved, irqEn, i.opCode, true⟩

/-- The command word of `i` with IRQ_EN = 0 and the reserved bits 0 (the expansions ENCODE, DECODE and CAPACITY of
R101). -/
def encode (i : Instr) : Word := encodeWith 0#28 false i

/-- The byte offset of a register in the register block (R22). -/
def Reg.offset : Reg → Nat
  | .ctrl => 0x00
  | .status => 0x04
  | .dim => 0x08
  | .srcBase => 0x0C
  | .dstBase => 0x10
  | .payBase => 0x14
  | .payLen => 0x18
  | .outBase => 0x1C
  | .resultLo => 0x20
  | .resultHi => 0x24

/-- The registers in the order of their offsets. -/
def allRegs : List Reg :=
  [.ctrl, .status, .dim, .srcBase, .dstBase, .payBase, .payLen, .outBase, .resultLo, .resultHi]

/-- The register at an offset. Offsets from 0x28 up are unmapped (R22). -/
def regAt (offset : Nat) : Option Reg := allRegs.find? (fun r => r.offset == offset)

end Sys2Proof
end

