-- ==== Sys2Proof/Machine/State.lean ====
section
/-! DEFINITION. The machine's state as plain data (spec/10_state.md R22 to R35, spec/20_memory.md R60 to R63), the
reasons a step can stop, and the state right after reset. -/

namespace Sys2Proof.Machine

/-- A memory in canonical form: (location, value) pairs, locations strictly rising, no value equal to what an unlisted
location reads as (`unlistedValue`; log entry 1). Byte space is a `Memory 8`, that is a list of `Host.Cell`; pixel
space, whose smallest unit is the 32-bit pixel word (R61), is a `Memory 32`. -/
abbrev Memory (w : Nat) := List (Nat × BitVec w)

/-- The latched operand record `op` of R27. The host cannot read it. -/
structure Operands where
  /-- op.OP -/
  op : BitVec 2
  /-- op.W -/
  w : BitVec 16
  /-- op.H -/
  h : BitVec 16
  /-- op.SRC -/
  src : Word
  /-- op.DST -/
  dst : Word
  /-- op.PAY -/
  pay : Word
  /-- op.LEN -/
  len : Word
  /-- op.OUT -/
  out : Word
deriving DecidableEq, Repr

/-- The internal state of the sub-blocks (R33). It matters only while BUSY = 1. -/
structure Internal where
  /-- ENCODE's slot cursor `s` (R21, R33) -/
  cursor : Nat
  /-- the sentinel_detector's zero-run counter `z` (R152) -/
  zeroRun : Nat
  /-- the bitstream_decoder's bit index `k` (R21, R33) -/
  bitIndex : Nat
  /-- its byte accumulator `acc` (R156) -/
  acc : Byte
  /-- its bit position `j` (R156) -/
  bitPos : Nat
  /-- its completed byte count `m` (R156) -/
  count : Nat
  /-- the completed bytes (R33, R156) -/
  completed : List Byte
deriving DecidableEq, Repr

/-- The initial values of R33, set at each accepted START. -/
def Internal.initial : Internal where
  cursor := 0
  zeroRun := 0
  bitIndex := 0
  acc := 0#8
  bitPos := 0
  count := 0
  completed := []

/-- A run of locations of one space, from `base` up. -/
structure Region where
  base : Nat
  len : Nat
deriving DecidableEq, Repr

/-- What a command reads and writes of the two spaces (R66, R69). -/
structure Footprint where
  pixRead : Region
  pixWritten : Region
  byteRead : Region
  byteWritten : Region
deriving DecidableEq, Repr

/-- An instance of the core that the moves do not address at present: its own register block, latched operands and
internal state (R233). -/
structure Instance where
  /-- CTRL.OP (R23) -/
  ctrlOp : BitVec 2
  /-- CTRL.IRQ_EN (R23) -/
  irqEn : Bool
  /-- STATUS.BUSY (R24) -/
  busy : Bool
  /-- STATUS.DONE (R24) -/
  done : Bool
  /-- STATUS.ERR (R24) -/
  err : BitVec 4
  /-- DIM (R25) -/
  dim : Word
  /-- SRC_BASE (R26) -/
  srcBase : Word
  /-- DST_BASE (R26) -/
  dstBase : Word
  /-- PAY_BASE (R26) -/
  payBase : Word
  /-- PAY_LEN (R26) -/
  payLen : Word
  /-- OUT_BASE (R26) -/
  outBase : Word
  /-- RESULT (R28) -/
  result : BitVec 64
  /-- the latched operands (R27) -/
  op : Operands
  /-- the internal sub-block state (R33) -/
  internal : Internal
  /-- the draws of its running command's reads are those from this number on (R233; log entry 12) -/
  firstDraw : Nat
  /-- what commands of other instances touched that have ended while its command has been running (R233; log entry 12) -/
  ended : List Footprint
deriving DecidableEq, Repr

/-- The complete architectural state of R34 for the instance that the moves address, the other instances of the platform
(R233), the OPEN sizes (R9), and the model's own fields: what bears on a clash (`firstDraw`, `ended`), the pending moves
(`script`), the values the last two host reads returned (`hostData`, `hostPrior`) and the draw counter (`draws`). -/
structure State where
  /-- CTRL.OP, bits 2:1 (R23) -/
  ctrlOp : BitVec 2
  /-- CTRL.IRQ_EN, bit 3 (R23) -/
  irqEn : Bool
  /-- STATUS.BUSY, bit 0 (R24) -/
  busy : Bool
  /-- STATUS.DONE, bit 1 (R24) -/
  done : Bool
  /-- STATUS.ERR, bits 7:4 (R24) -/
  err : BitVec 4
  /-- DIM: HEIGHT in bits 31:16, WIDTH in bits 15:0 (R25) -/
  dim : Word
  /-- SRC_BASE (R26) -/
  srcBase : Word
  /-- DST_BASE (R26) -/
  dstBase : Word
  /-- PAY_BASE (R26) -/
  payBase : Word
  /-- PAY_LEN (R26) -/
  payLen : Word
  /-- OUT_BASE (R26) -/
  outBase : Word
  /-- RESULT, read as RESULT_LO and RESULT_HI (R28) -/
  result : BitVec 64
  /-- the latched operands (R27) -/
  op : Operands
  /-- the internal sub-block state (R33) -/
  internal : Internal
  /-- the draws of the running command's reads are those from this number on (R233; log entry 12) -/
  firstDraw : Nat
  /-- what commands of other instances touched that have ended while the running command has been running (R233; log entry
  12) -/
  ended : List Footprint
  /-- the other instances of the platform, each with a register block of its own (R233) -/
  others : List Instance
  /-- pixel space PM (R34, R61) -/
  pix : List (Nat × BitVec 32)
  /-- byte space BM (R34, R62) -/
  bytes : List Host.Cell
  /-- PIX_AW: pixel space holds 2^pixAw words (R9, R61). No step changes it. -/
  pixAw : Nat
  /-- BYTE_AW: byte space holds 2^byteAw bytes (R9, R62). No step changes it. -/
  byteAw : Nat
  /-- the moves still to be taken, first the next one (R200; log entry 6) -/
  script : List Move
  /-- what the last host read returned (R201; log entry 7) -/
  hostData : Word
  /-- what the host read before that returned (R101 `RESULT`; log entry 7) -/
  hostPrior : Word
  /-- how many free values have been drawn (log entries 3 to 5) -/
  draws : Nat
deriving DecidableEq, Repr

/-- Why the machine stops with a fault. -/
inductive Fault where
  /-- Raised by a host pixel read or write at an index of 2^PIX_AW or more: R61 gives pixel space no such word
  (log entry 13). Safe. -/
  | noSuchPixel
  /-- Raised by a host byte read or write at an address of 2^BYTE_AW or more: R62 gives byte space no such byte
  (log entry 13). Safe. -/
  | noSuchByte
deriving DecidableEq, Repr

/-- Why a step is refused. -/
inductive Refusal where
  /-- Raised by exec for an instruction that has no meaning yet: none is left. Safe. -/
  | notModelled (mnemonic : String)
  /-- Raised by a host register access that is not 32 bits wide or not 4-byte aligned: R265 and I-4 have the model
  refuse it for the rest of the run. Safe. -/
  | badRegisterAccess (bits offset : Nat)
  /-- Raised by a host write to a region of a running command while BUSY = 1: R74 item 3 and I-3 give the host no
  such move (log entry 14). Unsafe where a host breaks its duty. -/
  | busyRegionWrite
  /-- Raised by a scheduled core step while BUSY = 0: R200 gives the core no step then (log entry
  6). Safe. -/
  | coreHasNoStep
  /-- Raised by a move that addresses an instance the platform does not hold (R233; log entry 12). Safe. -/
  | noSuchInstance (k : Nat)
deriving DecidableEq, Repr

/-- The latched operands in a state right after reset: R35 leaves them unspecified, and the model names zeros (log entry
8). -/
def Operands.zero : Operands := ⟨0#2, 0#16, 0#16, 0#32, 0#32, 0#32, 0#32, 0#32⟩

/-- An instance right after reset (R35): every register field 0. -/
def Instance.reset : Instance where
  ctrlOp := 0#2
  irqEn := false
  busy := false
  done := false
  err := 0#4
  dim := 0#32
  srcBase := 0#32
  dstBase := 0#32
  payBase := 0#32
  payLen := 0#32
  outBase := 0#32
  result := 0#64
  op := Operands.zero
  internal := Internal.initial
  firstDraw := 0
  ended := []

/-- The machine right after reset (R35, R262): every register field 0, both memories with nothing listed. R35 leaves
`op` and the internal state unspecified: the model names zeros (log entry 8). The platform holds one instance (log entry
12; `State.platform` holds more). -/
def State.reset : State where
  ctrlOp := 0#2
  irqEn := false
  busy := false
  done := false
  err := 0#4
  dim := 0#32
  srcBase := 0#32
  dstBase := 0#32
  payBase := 0#32
  payLen := 0#32
  outBase := 0#32
  result := 0#64
  op := Operands.zero
  internal := Internal.initial
  firstDraw := 0
  ended := []
  others := []
  pix := []
  bytes := []
  pixAw := Config.pixAw
  byteAw := Config.byteAw
  script := []
  hostData := 0#32
  hostPrior := 0#32
  draws := 0

/-- The machine right after reset on a platform with `n` further instances (R233). -/
def State.platform (n : Nat) : State := { State.reset with others := List.replicate n Instance.reset }

end Sys2Proof.Machine
end

