-- ==== Sys2Proof/Machine/Ops.lean ====
section
/-! DEFINITION. The named operations over the two memories (spec/00_scope.md R12, spec/20_memory.md R61 and R62) and
over the register block (spec/10_state.md R22 to R29, spec/44_control.md R201, R206). -/

namespace Sys2Proof.Machine

/-! ### Memories -/

/-- What a location reads as that the memory does not list: 0. The spec says only that every location holds a value
(R34, D27); the value is log entry 1's. -/
def unlistedValue (w : Nat) : BitVec w := 0#w

/-- The canonical form: locations strictly rising, no value equal to the unlisted one. -/
abbrev Memory.wf {w : Nat} (m : Memory w) : Prop :=
  m.Pairwise (fun p q => p.1 < q.1) ∧ ∀ p ∈ m, p.2 ≠ unlistedValue w

/-- Every listed location lies below `size`, the number of locations of the space (R61, R62). -/
abbrev Memory.within {w : Nat} (size : Nat) (m : Memory w) : Prop := ∀ p ∈ m, p.1 < size

/-- The value at a location: `PixRead` on pixel space, `MemRead` on byte space (R12). -/
def memRead {w : Nat} (m : Memory w) (a : Nat) : BitVec w :=
  match m with
  | [] => unlistedValue w
  | (k, x) :: rest => if k = a then x else memRead rest a

/-- Puts `(a, v)` before `rest`, unless `v` is what an unlisted location reads as. -/
def memCons {w : Nat} (a : Nat) (v : BitVec w) (rest : Memory w) : Memory w :=
  if v = unlistedValue w then rest else (a, v) :: rest

/-- Replaces the value at a location, in canonical form: `PixWrite` on pixel space, `MemWrite` on byte space (R12). -/
def memWrite {w : Nat} (m : Memory w) (a : Nat) (v : BitVec w) : Memory w :=
  match m with
  | [] => memCons a v []
  | (k, x) :: rest =>
    if a < k then memCons a v ((k, x) :: rest)
    else if a = k then memCons a v rest
    else (k, x) :: memWrite rest a v

/-- The `n` values from `base` up. -/
def readRange {w : Nat} (m : Memory w) (base : Nat) (n : Nat) : List (BitVec w) :=
  match n with
  | 0 => []
  | n + 1 => memRead m base :: readRange m (base + 1) n

/-- Writes a list of values from `base` up. -/
def writeRange {w : Nat} (m : Memory w) (base : Nat) (values : List (BitVec w)) : Memory w :=
  match values with
  | [] => m
  | v :: rest => writeRange (memWrite m base v) (base + 1) rest

/-- Writes `v a` to each location `a` of the `n` from `base` up that `p` picks. -/
def overlayRange {w : Nat} (p : Nat → Bool) (v : Nat → BitVec w) (m : Memory w) (base n : Nat) : Memory w :=
  match n with
  | 0 => m
  | n + 1 => overlayRange p v (if p base then memWrite m base (v base) else m) (base + 1) n

/-- Writes to each of the `n` locations from `base` up that exist (those below `size`) and that `p` picks the draw of its
own: location `base + i` gets `free (d + i)`. -/
def drawRange {w : Nat} (free : Nat → BitVec w) (size : Nat) (p : Nat → Bool) (m : Memory w) (base d n : Nat) :
    Memory w :=
  overlayRange (fun a => decide (a < size) && p a) (fun a => free (d + (a - base))) m base n

/-! ### Updates of one part of the state -/

/-- The schedule replaced. -/
def State.withScript (s : State) (moves : List Move) : State := { s with script := moves }

/-- A host read returns `v`; what the read before it returned is kept as `hostPrior`. -/
def State.withHostData (s : State) (v : Word) : State := { s with hostData := v, hostPrior := s.hostData }

/-- Pixel space replaced. -/
def State.withPix (s : State) (m : Memory 32) : State := { s with pix := m }

/-- Byte space replaced. -/
def State.withBytes (s : State) (m : Memory 8) : State := { s with bytes := m }

/-- `n` free values drawn. -/
def State.drawn (s : State) (n : Nat) : State := { s with draws := s.draws + n }

/-- CTRL.OP and CTRL.IRQ_EN take bits 2:1 and 3 of the written value (R23, R202). -/
def State.setCtrl (s : State) (v : Word) : State :=
  { s with ctrlOp := (parseCtrl v).op, irqEn := (parseCtrl v).irqEn }

/-! ### Registers -/

/-- The value CTRL reads as: OP and IRQ_EN; START and bits 31:4 read 0 (R23). -/
def State.ctrlWord (s : State) : Word := buildCtrl ⟨0#28, s.irqEn, s.ctrlOp, false⟩

/-- The value STATUS reads as: BUSY in bit 0, DONE in bit 1, ERR in bits 7:4, the rest 0 (R24). -/
def State.statusWord (s : State) : Word :=
  0#24 ++ (s.err ++ (0#2 ++ (BitVec.ofBool s.done ++ BitVec.ofBool s.busy)))

/-- WIDTH, bits 15:0 of DIM (R25). -/
def State.width (s : State) : BitVec 16 := s.dim.extractLsb' 0 16

/-- HEIGHT, bits 31:16 of DIM (R25). -/
def State.height (s : State) : BitVec 16 := s.dim.extractLsb' 16 16

/-- RESULT_LO, bits 31:0 of RESULT (R28). -/
def State.resultLo (s : State) : Word := s.result.extractLsb' 0 32

/-- RESULT_HI, bits 63:32 of RESULT (R28). -/
def State.resultHi (s : State) : Word := s.result.extractLsb' 32 32

/-- The value of a register (R22 to R28, R201). -/
def State.regValue (s : State) : Reg → Word
  | .ctrl => s.ctrlWord
  | .status => s.statusWord
  | .dim => s.dim
  | .srcBase => s.srcBase
  | .dstBase => s.dstBase
  | .payBase => s.payBase
  | .payLen => s.payLen
  | .outBase => s.outBase
  | .resultLo => s.resultLo
  | .resultHi => s.resultHi

/-- The value a register read at an offset returns: unmapped offsets read 0 (R29, R201). -/
def State.readOffset (s : State) (offset : Nat) : Word :=
  match regAt offset with
  | some r => s.regValue r
  | none => 0#32

/-- A write to an operand register: it takes the written value, whether BUSY is 0 or 1 (R206). Writes to the
registers that are not operands do nothing here: CTRL and STATUS have operations of their own (R202, R205), and
RESULT_LO and RESULT_HI ignore writes (R28). -/
def State.writeOperand (s : State) (r : Reg) (v : Word) : State :=
  match r with
  | .dim => { s with dim := v }
  | .srcBase => { s with srcBase := v }
  | .dstBase => { s with dstBase := v }
  | .payBase => { s with payBase := v }
  | .payLen => { s with payLen := v }
  | .outBase => { s with outBase := v }
  | .ctrl => s
  | .status => s
  | .resultLo => s
  | .resultHi => s

end Sys2Proof.Machine
end

