-- ==== Sys2Proof/Machine/Operands.lean ====
section
/-! DEFINITION. The operands of a command: latching (spec/10_state.md R27), the derived quantities T, L, n and N,
the region predicates (spec/20_memory.md R71, R72) and the regions of a running command (R74, R261). -/

namespace Sys2Proof.Machine

/-- The operand record an accepted START of the command code `op` latches (R27). -/
def State.latched (s : State) (op : BitVec 2) : Operands where
  op := op
  w := s.width
  h := s.height
  src := s.srcBase
  dst := s.dstBase
  pay := s.payBase
  len := s.payLen
  out := s.outBase

/-- T, the pixel count of a command (R15, R27): exact, never wrapping (R10). -/
def Operands.pixels (o : Operands) : Nat := o.w.toNat * o.h.toNat

/-- L, the slot count of a command (R15, R27). -/
def Operands.slots (o : Operands) : Nat := 3 * o.pixels

/-- n, the payload length in bytes (R15, R27). -/
def Operands.payloadLen (o : Operands) : Nat := o.len.toNat

/-- N, the length of the encoder's bit stream (R15, R27, R123). -/
def Operands.streamLen (o : Operands) : Nat := 8 * o.payloadLen + 8

/-- The number of slots ENCODE writes, `min(N, L)` (R127). -/
def Operands.slotsWritten (o : Operands) : Nat := min o.streamLen o.slots

/-- G, the number of whole 8-bit groups DECODE scans (R155). -/
def Operands.groups (o : Operands) : Nat := o.slots / 8

/-- Whether a region fits a space of `size` locations: a region of length 0 always does (R71). -/
def fits (size base len : Nat) : Bool := len == 0 || decide (base + len ≤ size)

/-- `fitsPix` of R71. -/
def State.fitsPix (s : State) (base len : Nat) : Bool := fits (2 ^ s.pixAw) base len

/-- `fitsByte` of R71. -/
def State.fitsByte (s : State) (base len : Nat) : Bool := fits (2 ^ s.byteAw) base len

/-- Whether two pixel regions of length `t` overlap (R72). -/
def overlapPix (a b t : Nat) : Bool := decide (0 < t) && decide (a < b + t) && decide (b < a + t)

/-- Whether a location lies in the region of `len` locations from `base`. -/
def inRegion (base len a : Nat) : Bool := decide (base ≤ a) && decide (a < base + len)

/-- The length of the pixel region a command reads from `op.SRC`: ENCODE's and DECODE's source (R26, R66). -/
def Operands.sourceLen (o : Operands) : Nat :=
  match instrOfOp o.op with
  | .encode => o.pixels
  | .decode => o.pixels
  | .capacity => 0
  | .reservedOp3 => 0

/-- The length of the pixel region a command could write from `op.DST`: ENCODE's T destination words (R66, R261). -/
def Operands.destinationLen (o : Operands) : Nat :=
  match instrOfOp o.op with
  | .encode => o.pixels
  | .decode => 0
  | .capacity => 0
  | .reservedOp3 => 0

/-- The length of the byte region a command reads from `op.PAY`: ENCODE's payload (R26, R66). -/
def Operands.payloadRegionLen (o : Operands) : Nat :=
  match instrOfOp o.op with
  | .encode => o.payloadLen
  | .decode => 0
  | .capacity => 0
  | .reservedOp3 => 0

/-- The length of the byte region a command could write from `op.OUT`: DECODE's `L div 8` bytes (R261; log entry 9). -/
def Operands.outputLen (o : Operands) : Nat :=
  match instrOfOp o.op with
  | .encode => 0
  | .decode => o.groups
  | .capacity => 0
  | .reservedOp3 => 0

/-- A pixel word the command reads. -/
def Operands.inSource (o : Operands) (i : Nat) : Bool := inRegion o.src.toNat o.sourceLen i

/-- A pixel word the command could write. -/
def Operands.inDestination (o : Operands) (i : Nat) : Bool := inRegion o.dst.toNat o.destinationLen i

/-- A byte the command reads. -/
def Operands.inPayload (o : Operands) (a : Nat) : Bool := inRegion o.pay.toNat o.payloadRegionLen a

/-- A byte the command could write. -/
def Operands.inOutput (o : Operands) (a : Nat) : Bool := inRegion o.out.toNat o.outputLen a

/-- How many locations a command reads at most: so many draws are set aside for it (log entry 12). -/
def Operands.readLen (o : Operands) : Nat := o.sourceLen + o.payloadRegionLen

/-- Whether the regions of `n` locations from `a` and of `m` locations from `b` share a location. -/
def regionsMeet (a n b m : Nat) : Bool := decide (0 < n) && decide (0 < m) && decide (a < b + m) && decide (b < a + n)

/-- `o` could write a location that `r` reads or could write. -/
def Operands.writesInto (o r : Operands) : Bool :=
  regionsMeet o.dst.toNat o.destinationLen r.src.toNat r.sourceLen ||
    regionsMeet o.dst.toNat o.destinationLen r.dst.toNat r.destinationLen ||
    regionsMeet o.out.toNat o.outputLen r.pay.toNat r.payloadRegionLen ||
    regionsMeet o.out.toNat o.outputLen r.out.toNat r.outputLen

/-- Two commands can clash: one could write a location that the other reads or could write, by the regions that their
operands name (R233). -/
def Operands.clashes (o r : Operands) : Bool := o.writesInto r || r.writesInto o

/-- An operand record of draws with no law, from draw number `d` on (R35, I-6; log entry 5). -/
def drawnOperands (d : Nat) : Operands where
  op := (Config.freeWord d).setWidth 2
  w := (Config.freeWord (d + 1)).setWidth 16
  h := (Config.freeWord (d + 2)).setWidth 16
  src := Config.freeWord (d + 3)
  dst := Config.freeWord (d + 4)
  pay := Config.freeWord (d + 5)
  len := Config.freeWord (d + 6)
  out := Config.freeWord (d + 7)

/-- Internal state of draws with no law, from draw number `d` on (R35, I-6; log entry 5). -/
def drawnInternal (d : Nat) : Internal where
  cursor := Config.freeNat d
  zeroRun := Config.freeNat (d + 1)
  bitIndex := Config.freeNat (d + 2)
  acc := Config.freeByte d
  bitPos := Config.freeNat (d + 3)
  count := Config.freeNat (d + 4)
  completed := Config.freeBytes d

/-- Leaves the latched operands and the internal state unspecified, as they are while BUSY = 0 (R35, I-6), and nothing on
record for them. -/
def State.releaseLatches (s : State) : State :=
  { s with
    op := drawnOperands s.draws
    internal := drawnInternal s.draws
    firstDraw := 0
    ended := []
    draws := s.draws + 8 }

end Sys2Proof.Machine
end

