-- ==== Sys2Proof/Machine/Flags.lean ====
section
/-! DEFINITION. The flags BUSY, DONE and ERR (spec/10_state.md R24, R30), the interrupt output (R31), the error codes
(spec/60_exceptions.md R220), and the two shared operations that write the flags: the accepted START
(spec/44_control.md R202) and completion (R203), which is also how every error is reported (R225). -/

namespace Sys2Proof.Machine

/-- The outcomes a command reports in STATUS.ERR (R220). -/
inductive ErrorCode where
  | none
  | emptyPayload
  | noStopMarker
  | illegalOp
  | addressRange
  | overlap
deriving DecidableEq, Repr

/-- The 4-bit code of an outcome (R220). -/
def errorCode : ErrorCode → BitVec 4
  | .none => 0#4
  | .emptyPayload => 1#4
  | .noStopMarker => 2#4
  | .illegalOp => 3#4
  | .addressRange => 4#4
  | .overlap => 5#4

/-- The interrupt output: the level `done_irq = STATUS.DONE AND CTRL.IRQ_EN` (R31, R227). -/
def State.doneIrq (s : State) : Bool := s.done && s.irqEn

/-- The accepted START of command `i`: the operands are latched, the internal state is initialised, BUSY is set, and
DONE, ERR and RESULT are cleared (R202). The draws that its reads take in a clash are set aside (R233; log entry 12). -/
def State.start (s : State) (i : Instr) : State :=
  { s with
    op := s.latched i.opCode
    internal := Internal.initial
    firstDraw := s.draws
    ended := []
    draws := s.draws + (s.latched i.opCode).readLen
    busy := true
    done := false
    err := 0#4
    result := 0#64 }

/-- The end of a command: ERR and RESULT are written, BUSY falls and DONE rises (R203). The latched operands and the
internal state are unspecified from here on (I-6). -/
def State.finish (s : State) (e : ErrorCode) (result : Nat) : State :=
  { s.releaseLatches with
    err := errorCode e
    result := BitVec.ofNat 64 result
    busy := false
    done := true }

/-- Taking an error: the command ends with the code `e`, RESULT = 0, and no write to either memory (R222, R225). No
state is saved and no mode changes. -/
def State.raise (s : State) (e : ErrorCode) : State := s.finish e 0

/-- The host's write of 1 to STATUS[1]: DONE falls, everything else stays (R205). This is what follows an error or an
interrupt; there is no return operation (R226). -/
def State.clearDone (s : State) : State := { s with done := false }

end Sys2Proof.Machine
end

