-- ==== Sys2Proof/Machine/Capacity.lean ====
section
/-! DEFINITION. CAPACITY (spec/43_capacity.md R190) and the reserved command code (spec/30_encoding.md R96). -/

namespace Sys2Proof.Machine

/-- CAPACITY (R190): the number of embeddable bits, `3 * W * H`, exact. It cannot fail and accesses no memory. -/
def execCapacity (s : State) : Host.Outcome State Fault Refusal := .next (s.finish .none s.op.slots)

/-- OP = 3 (R96, R203): completes with ILLEGAL_OP, RESULT = 0 and no memory access. -/
def execReservedOp3 (s : State) : Host.Outcome State Fault Refusal := .next (s.raise .illegalOp)

end Sys2Proof.Machine
end

