-- ==== Sys2Proof/Machine/Channels.lean ====
section
/-! DEFINITION. The rgb_channel_mux and the channel bit helpers: setLsb and getLsb (spec/42_channel_helpers.md R180,
R181), the slot map (spec/30_encoding.md R92, R94), the write path (spec/40_encoder.md R124 to R126) and the read path
(spec/41_decoder.md R150). -/

namespace Sys2Proof.Machine

/-- `setLsb` (R180): sets or clears bit 0 of a channel value. -/
def setLsb (v : Byte) (b : Bool) : Byte := if b then v ||| 0x01#8 else v &&& 0xFE#8

/-- `getLsb` (R181): `v AND 0x01`, read as a bit (1 is `true`, R10). -/
def getLsb (v : Byte) : Bool := v &&& 0x01#8 != 0#8

/-- The word bit that is the LSB of a lane's channel, `pos(lane)` (R92). -/
def lanePos : Lane → Nat
  | .red => 16
  | .green => 8
  | .blue => 0

/-- The pixel of a slot, `slotPixel(s) = s div 3` (R124). -/
def slotPixel (s : Nat) : Nat := s / 3

/-- The lane of a slot: `s mod 3` is 0 for red, 1 for green, 2 for blue (R92, R124). -/
def slotLane (s : Nat) : Lane :=
  if s % 3 = 0 then .red else if s % 3 = 1 then .green else .blue

/-- The channel field of a lane in a pixel word, `v[pos+7 : pos]` (R125). -/
def chan (v : Word) (l : Lane) : Byte := v.extractLsb' (lanePos l) 8

/-- The pixel word with the channel field of a lane replaced. -/
def setChan (v : Word) (l : Lane) (c : Byte) : Word :=
  (v &&& ~~~(0xFF#32 <<< lanePos l)) ||| (c.setWidth 32 <<< lanePos l)

/-- The write path: embeds bit `b` into lane `l` of pixel word `v` (R126). -/
def embed (v : Word) (l : Lane) (b : Bool) : Word := setChan v l (setLsb (chan v l) b)

/-- The read path on one pixel word: the LSBs of red, green and blue, in slot order (R150). -/
def laneBits (v : Word) : List Bool :=
  [getLsb (chan v .red), getLsb (chan v .green), getLsb (chan v .blue)]

end Sys2Proof.Machine
end

