-- ==== Sys2Proof/Machine/Encoder.lean ====
section
/-! DEFINITION. The bit expander (spec/40_encoder.md R120 to R123) and ENCODE (R127). -/

namespace Sys2Proof.Machine

/-- The bits of a byte, LSB first (R121). -/
def bitsLsb (b : Byte) : List Bool :=
  [b.getLsbD 0, b.getLsbD 1, b.getLsbD 2, b.getLsbD 3, b.getLsbD 4, b.getLsbD 5, b.getLsbD 6, b.getLsbD 7]

/-- The encode bit stream: the payload's bits in payload order, then the sentinel of 8 zero bits (R93, R121, R122). -/
def expand (payload : List Byte) : List Bool := payload.flatMap bitsLsb ++ List.replicate 8 false

/-- One slot of ENCODE's traversal at cursor `s`: while `s` is below the number `w` of slots to write, stream bit
`S[s]` goes into the lane and the cursor goes up by 1 (R21, R127). -/
def embedSlot (stream : List Bool) (w : Nat) (l : Lane) (vs : Word × Nat) : Word × Nat :=
  if vs.2 < w then (embed vs.1 l (stream.getD vs.2 false), vs.2 + 1) else vs

/-- The three slots of one pixel: red, then green, then blue (R124, R127). -/
def embedPixel (stream : List Bool) (w : Nat) (v : Word) (s : Nat) : Word × Nat :=
  embedSlot stream w .blue (embedSlot stream w .green (embedSlot stream w .red (v, s)))

/-- ENCODE's traversal in buffer order from cursor `s`: the destination words. The pixels past the stream come out as
copies of the source (R127, D30). -/
def encodeWords (stream : List Bool) (w : Nat) (source : List Word) (s : Nat) : List Word :=
  match source with
  | [] => []
  | v :: rest => (embedPixel stream w v s).1 :: encodeWords stream w rest (embedPixel stream w v s).2

/-- The source pixel words of the running command, `PixRead(op.SRC + i)` for `i < T`. -/
def State.sourceWords (s : State) : List Word := readRange s.pix s.op.src.toNat s.op.pixels

/-- The payload of the running command, `MemRead(op.PAY + i, 1)` for `i < n`. -/
def State.payload (s : State) : List Byte := readRange s.bytes s.op.pay.toNat s.op.payloadLen

/-- The checks of ENCODE, in order; the first that fails is the error (R127, R221). -/
def State.encodeError (s : State) : ErrorCode :=
  if s.op.payloadLen = 0 then .emptyPayload
  else if !s.fitsPix s.op.src.toNat s.op.pixels || !s.fitsPix s.op.dst.toNat s.op.pixels
      || !s.fitsByte s.op.pay.toNat s.op.payloadLen then .addressRange
  else if overlapPix s.op.src.toNat s.op.dst.toNat s.op.pixels then .overlap
  else .none

/-- The destination words of a successful ENCODE (R127). -/
def State.encodedWords (s : State) : List Word :=
  encodeWords (expand s.payload) s.op.slotsWritten s.sourceWords s.internal.cursor

/-- Pixel space with ENCODE's T destination words written (R69, R127). -/
def State.writeEncoded (s : State) : State :=
  s.withPix (writeRange s.pix s.op.dst.toNat s.encodedWords)

/-- ENCODE (R127): embeds the payload in a copy of the source image. -/
def execEncode (s : State) : Host.Outcome State Fault Refusal :=
  .next (if s.encodeError = .none then s.writeEncoded.finish .none s.op.slotsWritten else s.raise s.encodeError)

end Sys2Proof.Machine
end

