-- ==== Sys2Proof/Machine/Decoder.lean ====
section
/-! DEFINITION. The sentinel_detector (spec/41_decoder.md R152 to R154), the bitstream_decoder (R155 to R158) and DECODE
(R159). -/

namespace Sys2Proof.Machine

/-- One detector step: the new zero-run counter (R153). `stop` is signalled when it is 8. -/
def detect (z : Nat) (b : Bool) : Nat := if b then 0 else z + 1

/-- The byte accumulator after bit `b` at bit position `j` (R156). -/
def accumulate (acc : Byte) (j : Nat) (b : Bool) : Byte := if b then acc ||| (1#8 <<< j) else acc

/-- One bit through the bitstream_decoder and its detector. When the detector signals `stop` the group is discarded
(R157); otherwise the bit at position 7 completes a byte (R156). The counter carries across groups (R154). -/
def scanBit (x : Internal) (b : Bool) : Internal :=
  let acc := accumulate x.acc x.bitPos b
  let z := detect x.zeroRun b
  if z = 8 then { x with zeroRun := z, bitIndex := x.bitIndex + 1 }
  else if x.bitPos = 7 then
    { x with
      zeroRun := z
      bitIndex := x.bitIndex + 1
      acc := 0#8
      bitPos := 0
      count := x.count + 1
      completed := x.completed ++ [acc] }
  else { x with zeroRun := z, bitIndex := x.bitIndex + 1, acc := acc, bitPos := x.bitPos + 1 }

/-- The scan of the bits in increasing index: it ends at the bit on which the detector signals `stop`, or at the end of
the bits (R152, R157, R158). -/
def scan (bits : List Bool) (x : Internal) : Internal :=
  match bits with
  | [] => x
  | b :: rest => if (scanBit x b).zeroRun = 8 then scanBit x b else scan rest (scanBit x b)

/-- The decode bit stream `B` of the running command, of exactly L bits (R150, R151). -/
def State.decodeBitStream (s : State) : List Bool := s.sourceWords.flatMap laneBits

/-- The bits given to the detector: those of the whole 8-bit groups only (R155). -/
def State.scannedBits (s : State) : List Bool := s.decodeBitStream.take (8 * s.op.groups)

/-- The scan of the running DECODE, from the internal state that START initialised (R33, R152). -/
def State.decodeScan (s : State) : Internal := scan s.scannedBits s.internal

/-- The checks of DECODE, in order; the first that fails is the error (R159, R221). -/
def State.decodeError (s : State) : ErrorCode :=
  if !s.fitsPix s.op.src.toNat s.op.pixels then .addressRange
  else if s.decodeScan.zeroRun ≠ 8 then .noStopMarker
  else if !s.fitsByte s.op.out.toNat s.decodeScan.count then .addressRange
  else .none

/-- Byte space with DECODE's completed bytes written (R69, R159). -/
def State.writeDecoded (s : State) : State :=
  s.withBytes (writeRange s.bytes s.op.out.toNat s.decodeScan.completed)

/-- DECODE (R159): extracts bytes from the source image up to the first run of 8 zero bits. -/
def execDecode (s : State) : Host.Outcome State Fault Refusal :=
  .next (if s.decodeError = .none then s.writeDecoded.finish .none s.decodeScan.count else s.raise s.decodeError)

end Sys2Proof.Machine
end

