-- ==== Sys2Proof/Machine/Dispatch.lean ====
section
/-! DEFINITION. The completion step's case over the latched command (spec/44_control.md R203): one arm per command. -/

namespace Sys2Proof.Machine

-- exec i s is the completion step of command i on the operands latched in s.
def exec (i : Instr) (s : State) : Host.Outcome State Fault Refusal :=
  match i with
  | .encode => Sys2Proof.Machine.execEncode s
  | .decode => Sys2Proof.Machine.execDecode s
  | .capacity => Sys2Proof.Machine.execCapacity s
  | .reservedOp3 => Sys2Proof.Machine.execReservedOp3 s

end Sys2Proof.Machine
end

