-- ==== Sys2Proof/Machine/Instances.lean ====
section
/-! DEFINITION. Several instances of the core on one platform (spec/60_exceptions.md R233, spec/93_implementation_defined.md
I-7): which one the moves address, which commands run at the same time, what each of them reads and writes, and what a
clash of two of them does to what a command reads and leaves. -/

namespace Sys2Proof.Machine

/-- The addressed instance. -/
def State.selected (s : State) : Instance where
  ctrlOp := s.ctrlOp
  irqEn := s.irqEn
  busy := s.busy
  done := s.done
  err := s.err
  dim := s.dim
  srcBase := s.srcBase
  dstBase := s.dstBase
  payBase := s.payBase
  payLen := s.payLen
  outBase := s.outBase
  result := s.result
  op := s.op
  internal := s.internal
  firstDraw := s.firstDraw
  ended := s.ended

/-- The state with `x` as the addressed instance and `l` as the others. -/
def State.withInstances (s : State) (x : Instance) (l : List Instance) : State :=
  { s with
    ctrlOp := x.ctrlOp
    irqEn := x.irqEn
    busy := x.busy
    done := x.done
    err := x.err
    dim := x.dim
    srcBase := x.srcBase
    dstBase := x.dstBase
    payBase := x.payBase
    payLen := x.payLen
    outBase := x.outBase
    result := x.result
    op := x.op
    internal := x.internal
    firstDraw := x.firstDraw
    ended := x.ended
    others := l }

/-- All instances of the platform, the addressed one first. -/
def State.instances (s : State) : List Instance := s.selected :: s.others

/-- The operands of the running commands of a list of instances. -/
def runningOps (l : List Instance) : List Operands := (l.filter (·.busy)).map (·.op)

/-- The operands of all running commands. -/
def State.running (s : State) : List Operands := runningOps s.instances

/-- The moves from here on address number `k` of the others, which changes places with the addressed instance. Nothing
of any instance or memory changes (log entry 12). -/
def selectInstance (k : Nat) (s : State) : Host.Outcome State Fault Refusal :=
  match s.others[k]? with
  | some x => .next (s.withInstances x (s.others.set k s.selected))
  | none => .refused (.noSuchInstance k)

/-- The state as each other instance that runs sees it: the same platform, with that instance addressed. -/
def State.peers (s : State) : List State :=
  s.others.zipIdx.filterMap fun p =>
    if p.1.busy then some (s.withInstances p.1 (s.others.set p.2 s.selected)) else none

/-! ### What a command reads and writes -/

/-- No location. -/
def Region.empty : Region := ⟨0, 0⟩

/-- Whether a location lies in a region. -/
def Region.holds (r : Region) (a : Nat) : Bool := inRegion r.base r.len a

/-- Whether two regions share a location. -/
def Region.meets (r q : Region) : Bool := regionsMeet r.base r.len q.base q.len

/-- The pixel words the running command reads: those of its source, unless a check fails before it reads (R66, R127,
R159). -/
def State.pixReads (s : State) : Region :=
  match instrOfOp s.op.op with
  | .encode => if s.encodeError = .none then ⟨s.op.src.toNat, s.op.pixels⟩ else .empty
  | .decode => if s.fitsPix s.op.src.toNat s.op.pixels then ⟨s.op.src.toNat, s.op.pixels⟩ else .empty
  | .capacity => .empty
  | .reservedOp3 => .empty

/-- The pixel words the running command writes: ENCODE's T destination words, and none if it ends with an error (R69,
R222). -/
def State.pixWrites (s : State) : Region :=
  match instrOfOp s.op.op with
  | .encode => if s.encodeError = .none then ⟨s.op.dst.toNat, s.op.pixels⟩ else .empty
  | .decode => .empty
  | .capacity => .empty
  | .reservedOp3 => .empty

/-- The bytes the running command reads: ENCODE's payload, unless a check fails before it reads (R66, R127). -/
def State.byteReads (s : State) : Region :=
  match instrOfOp s.op.op with
  | .encode => if s.encodeError = .none then ⟨s.op.pay.toNat, s.op.payloadLen⟩ else .empty
  | .decode => .empty
  | .capacity => .empty
  | .reservedOp3 => .empty

/-- A pixel word that a command of another instance, ended or running, writes while the running one runs. -/
def State.foreignPix (s : State) (i : Nat) : Bool :=
  s.ended.any (·.pixWritten.holds i) || s.peers.any (·.pixWrites.holds i)

/-- Pixel space as the running command reads it: a read of a word that a command of another instance writes returns a draw
with no law (R233, I-7). -/
def State.seenPix (s : State) : State :=
  s.withPix (drawRange Config.freeWord (2 ^ s.pixAw) s.foreignPix s.pix s.op.src.toNat s.firstDraw s.op.sourceLen)

/-- The bytes the running command writes: the `m` bytes of a DECODE, and none if it ends with an error (R69, R222). -/
def State.byteWrites (s : State) : Region :=
  match instrOfOp s.op.op with
  | .encode => .empty
  | .decode =>
    if s.seenPix.decodeError = .none then ⟨s.op.out.toNat, s.seenPix.decodeScan.count⟩ else .empty
  | .capacity => .empty
  | .reservedOp3 => .empty

/-- What the running command reads and writes. -/
def State.footprint (s : State) : Footprint := ⟨s.pixReads, s.pixWrites, s.byteReads, s.byteWrites⟩

/-- The same for a command that a reset abandons: it leaves draws in all that it could have written (R261). -/
def State.abandonedFootprint (s : State) : Footprint :=
  ⟨s.pixReads, ⟨s.op.dst.toNat, s.op.destinationLen⟩, s.byteReads, ⟨s.op.out.toNat, s.op.outputLen⟩⟩

/-! ### Clashes -/

/-- `f` writes a location that `g` reads or writes. -/
def Footprint.writesInto (f g : Footprint) : Bool :=
  f.pixWritten.meets g.pixRead || f.pixWritten.meets g.pixWritten || f.byteWritten.meets g.byteRead ||
    f.byteWritten.meets g.byteWritten

/-- Two commands clash: one writes a location that the other reads or writes (R233). -/
def Footprint.clashes (f g : Footprint) : Bool := f.writesInto g || g.writesInto f

/-- What the commands of other instances touch that have run at some time while the running one has. -/
def State.met (s : State) : List Footprint := s.ended ++ s.peers.map State.footprint

/-- Those of them that clash with the running command. -/
def State.rivals (s : State) : List Footprint := s.met.filter (·.clashes s.footprint)

/-- The memories as the running command reads them: a read of a location that a command of another instance writes returns
a draw with no law (R233, I-7). -/
def State.seen (s : State) : State :=
  s.seenPix.withBytes
    (drawRange Config.freeByte (2 ^ s.byteAw) (fun a => s.met.any (·.byteWritten.holds a)) s.bytes s.op.pay.toNat
      s.firstDraw s.op.payloadRegionLen)

/-- The end of a command in a clash: `t` is what it left on the memories it saw from `s`. What it only read keeps its
value, and of the locations it wrote those that another command reads or writes hold draws with no law (R233, I-7). -/
def State.settle (s t : State) : State :=
  { t with
    pix := drawRange Config.freeWord (2 ^ s.pixAw)
      (fun i => s.footprint.pixWritten.holds i && s.met.any fun f => f.pixRead.holds i || f.pixWritten.holds i)
      (overlayRange (fun i => decide (i < 2 ^ s.pixAw) && s.foreignPix i) (memRead s.pix) t.pix s.op.src.toNat
        s.op.sourceLen)
      s.op.dst.toNat t.draws s.op.destinationLen
    bytes := drawRange Config.freeByte (2 ^ s.byteAw)
      (fun a => s.footprint.byteWritten.holds a && s.met.any fun f => f.byteRead.holds a || f.byteWritten.holds a)
      (overlayRange (fun a => decide (a < 2 ^ s.byteAw) && s.met.any (·.byteWritten.holds a)) (memRead s.bytes) t.bytes
        s.op.pay.toNat s.op.payloadRegionLen)
      s.op.out.toNat t.draws s.op.outputLen
    draws := t.draws + s.op.destinationLen + s.op.outputLen }

/-- An instance whose running command can clash with one with operands `o` keeps on record what that one touched when it
ends. -/
def Instance.meet (x : Instance) (o : Operands) (f : Footprint) : Instance :=
  if x.busy && x.op.clashes o then { x with ended := f :: x.ended } else x

/-- A command with operands `o` ends here, and every other instance that runs keeps what it touched on record. -/
def State.recordEnding (s : State) (o : Operands) (f : Footprint) : State :=
  { s with others := s.others.map fun x => x.meet o f }

/-- Applies `f` to the state an outcome goes on with. -/
def onNext (f : State → State) (r : Host.Outcome State Fault Refusal) : Host.Outcome State Fault Refusal :=
  match r with
  | .next t => .next (f t)
  | .fault e => .fault e
  | .refused e => .refused e

end Sys2Proof.Machine
end

