-- ==== Sys2Proof/Machine/Control.lean ====
section
/-! DEFINITION. The control operations: register reads and writes with START and DONE clear (spec/44_control.md R201,
R202, R205, R206), the host's memory accesses (spec/20_memory.md R74), reset (spec/70_reset_and_hazards.md R260, R261),
and the step table of R200. -/

namespace Sys2Proof.Machine

/-- A write to CTRL (R202): OP and IRQ_EN take the written bits; a command word starts its command if BUSY = 0, and is
otherwise ignored. -/
def State.writeCtrl (s : State) (v : Word) : State :=
  match decode v with
  | .ok i => if s.busy then s.setCtrl v else (s.setCtrl v).start i
  | .error _ => s.setCtrl v

/-- A write to STATUS: bit 1 clears DONE, the other bits are ignored (R205). -/
def State.writeStatus (s : State) (v : Word) : State := if v.getLsbD 1 then s.clearDone else s

/-- A register write (R202, R205, R206). -/
def State.writeReg (s : State) (r : Reg) (v : Word) : State :=
  match r with
  | .ctrl => s.writeCtrl v
  | .status => s.writeStatus v
  | .dim => s.writeOperand .dim v
  | .srcBase => s.writeOperand .srcBase v
  | .dstBase => s.writeOperand .dstBase v
  | .payBase => s.writeOperand .payBase v
  | .payLen => s.writeOperand .payLen v
  | .outBase => s.writeOperand .outBase v
  | .resultLo => s
  | .resultHi => s

/-- A register write at an offset: unmapped offsets ignore it (R29, R206). -/
def State.writeOffset (s : State) (offset : Nat) (v : Word) : State :=
  match regAt offset with
  | some r => s.writeReg r v
  | none => s

/-- The host's register read: the value goes to the host and no core state changes (R201). -/
def hostRegRead (bits offset : Nat) (s : State) : Host.Outcome State Fault Refusal :=
  if registerAccessWf bits offset then .next (s.withHostData (s.readOffset offset))
  else .refused (.badRegisterAccess bits offset)

/-- The host's register write. -/
def hostRegWrite (bits offset : Nat) (v : Word) (s : State) : Host.Outcome State Fault Refusal :=
  if registerAccessWf bits offset then .next (s.writeOffset offset v)
  else .refused (.badRegisterAccess bits offset)

/-- The host's read of a pixel word. While BUSY = 1 a running command's destination region returns a draw with no law
(R74 item 3, I-2), whichever instance runs it (R233). -/
def hostPixRead (index : Nat) (s : State) : Host.Outcome State Fault Refusal :=
  if 2 ^ s.pixAw ≤ index then .fault .noSuchPixel
  else if s.running.any (·.inDestination index) then .next ((s.withHostData (Config.freeWord s.draws)).drawn 1)
  else .next (s.withHostData (memRead s.pix index))

/-- The host's write of a pixel word. While BUSY = 1 the host has no move that writes a region of a running command
(R74 item 3, I-3). -/
def hostPixWrite (index : Nat) (v : Word) (s : State) : Host.Outcome State Fault Refusal :=
  if 2 ^ s.pixAw ≤ index then .fault .noSuchPixel
  else if s.running.any (fun o => o.inSource index || o.inDestination index) then .refused .busyRegionWrite
  else .next (s.withPix (memWrite s.pix index v))

/-- The host's read of a byte. While BUSY = 1 a running command's output region returns a draw with no law (R74 item
3, I-2). -/
def hostByteRead (addr : Nat) (s : State) : Host.Outcome State Fault Refusal :=
  if 2 ^ s.byteAw ≤ addr then .fault .noSuchByte
  else if s.running.any (·.inOutput addr) then
    .next ((s.withHostData ((Config.freeByte s.draws).setWidth 32)).drawn 1)
  else .next (s.withHostData ((memRead s.bytes addr).setWidth 32))

/-- The host's write of a byte, with the busy window of R74 item 3 (I-3). -/
def hostByteWrite (addr : Nat) (v : Byte) (s : State) : Host.Outcome State Fault Refusal :=
  if 2 ^ s.byteAw ≤ addr then .fault .noSuchByte
  else if s.running.any (fun o => o.inPayload addr || o.inOutput addr) then .refused .busyRegionWrite
  else .next (s.withBytes (memWrite s.bytes addr v))

/-- What a reset during a command leaves in the memories: every location the command could have written holds a draw
with no law (R261, I-5). -/
def State.abandon (s : State) : State :=
  { s with
    pix := drawRange Config.freeWord (2 ^ s.pixAw) (fun _ => true) s.pix s.op.dst.toNat s.draws s.op.destinationLen
    bytes := drawRange Config.freeByte (2 ^ s.byteAw) (fun _ => true) s.bytes s.op.out.toNat s.draws s.op.outputLen
    draws := s.draws + s.op.destinationLen + s.op.outputLen }

/-- Every register field at its reset value (R35, R260). -/
def State.resetRegisters (s : State) : State :=
  { s with
    ctrlOp := 0#2
    irqEn := false
    busy := false
    done := false
    err := 0#4
    dim := 0#32
    srcBase := 0#32
    dstBase := 0#32
    payBase := 0#32
    payLen := 0#32
    outBase := 0#32
    result := 0#64 }

/-- The reset step (R260, R261): a running command is abandoned, the registers reset, and the latched operands and
internal state are unspecified (R35). The commands of other instances that run keep what the abandoned one touched on
record (R233). -/
def platformReset (s : State) : Host.Outcome State Fault Refusal :=
  .next (if s.busy then s.abandon.recordEnding s.op s.abandonedFootprint else s).resetRegisters.releaseLatches

/-- The completion of command `i`: exec, and in a clash with commands of other instances exec on what the command sees,
with the clash settled after it. The commands of other instances that run keep what it touched on record (R203, R233). -/
def completeCommand (i : Instr) (s : State) : Host.Outcome State Fault Refusal :=
  onNext (·.recordEnding s.op s.footprint)
    (if s.rivals.isEmpty then exec i s else onNext s.settle (exec i s.seen))

/-- The core's completion step: it runs the latched command (R203). It is enabled while BUSY = 1 (R200). -/
def coreComplete (s : State) : Host.Outcome State Fault Refusal :=
  if s.busy then completeCommand (instrOfOp s.op.op) s else .refused .coreHasNoStep

/-- The core's idle step: no state changes. It is enabled while BUSY = 1 (R200, R203). -/
def coreIdle (s : State) : Host.Outcome State Fault Refusal :=
  if s.busy then .next s else .refused .coreHasNoStep

/-- The completion step of a running command, of the addressed instance or else of the first other one that runs, as
moves; the moves after it address the same instance as before. -/
def State.fairCompletion (s : State) : List Move :=
  if s.busy then [.complete]
  else
    match s.others.findIdx? (·.busy) with
    | some k => [.select k, .complete, .select k]
    | none => []

/-- The moves after a turn of the `WAITDONE` loop that found DONE = 0: as many of the pending moves as the next gap says,
then the next turn. With no gap left a running command completes before each turn, whichever instance runs it (the weak
fairness of R267; log entry 11). -/
def State.waitSchedule (s : State) (gaps : List Nat) : List Move :=
  match gaps with
  | [] => s.fairCompletion ++ .waitDone [] :: s.script
  | g :: rest => s.script.take g ++ .waitDone rest :: s.script.drop g

/-- One turn of the host's `WAITDONE` loop (R101): a STATUS read. The loop goes on if it finds DONE = 0. -/
def hostWaitDone (gaps : List Nat) (s : State) : Host.Outcome State Fault Refusal :=
  .next (if s.done then s.withHostData s.statusWord
    else (s.withHostData s.statusWord).withScript (s.waitSchedule gaps))

/-- One move of the table of R200, the `WAITDONE` loop, or a change of the addressed instance. -/
def runMove (m : Move) (s : State) : Host.Outcome State Fault Refusal :=
  match m with
  | .regRead bits offset => hostRegRead bits offset s
  | .regWrite bits offset v => hostRegWrite bits offset v s
  | .pixRead index => hostPixRead index s
  | .pixWrite index v => hostPixWrite index v s
  | .byteRead addr => hostByteRead addr s
  | .byteWrite addr v => hostByteWrite addr v s
  | .idle => coreIdle s
  | .complete => coreComplete s
  | .reset => platformReset s
  | .waitDone gaps => hostWaitDone gaps s
  | .select k => selectInstance k s

/-- What happens with no move pending: a running command of the addressed instance completes, a running instance among
the others is addressed in its turn (the weak fairness of R267), and an idle platform keeps its state (R235; log entry
6). -/
def runUnscheduled (s : State) : Host.Outcome State Fault Refusal :=
  if s.busy then coreComplete s
  else
    match s.others.findIdx? (·.busy) with
    | some k => selectInstance k s
    | none => .next s

/-- The next pending move, taken off the schedule before it runs. -/
def runScheduled (s : State) : Host.Outcome State Fault Refusal :=
  match s.script with
  | [] => runUnscheduled s
  | m :: rest => runMove m (s.withScript rest)

/-- The state in which the command word `v` has been written to CTRL and its START accepted, whatever BUSY was, and the
completion step is the next move. A `v` that is no command is left as the next CTRL write (log entry 10). -/
def State.launch (s : State) (v : Word) : State :=
  match decode v with
  | .ok i => ((s.setCtrl v).start i).withScript (.complete :: s.script)
  | .error _ => s.withScript (.regWrite 32 Reg.ctrl.offset v :: s.script)

end Sys2Proof.Machine
end

