-- ==== Sys2Proof/Machine/Script.lean ====
section
/-! DEFINITION. The host-script statements and pseudo-instructions (spec/30_encoding.md R100, R101), as the moves they
expand to. -/

namespace Sys2Proof.Machine

/-- `WR <REG>, <value>` (R100). -/
def wr (r : Reg) (v : Word) : Move := .regWrite 32 r.offset v

/-- `RD <REG>` (R100). -/
def rd (r : Reg) : Move := .regRead 32 r.offset

/-- `SETDIM <w>, <h>` (R101). -/
def scriptSetDim (w h : BitVec 16) : List Move := [wr .dim ((h.setWidth 32 <<< 16) ||| w.setWidth 32)]

/-- `ENCODE` and `ENCODE.IRQ` (R101). -/
def scriptEncode (irq : Bool) : List Move := [wr .ctrl (encodeWith 0#28 irq .encode)]

/-- `DECODE` and `DECODE.IRQ` (R101). -/
def scriptDecode (irq : Bool) : List Move := [wr .ctrl (encodeWith 0#28 irq .decode)]

/-- `CAPACITY` (R101). -/
def scriptCapacity : List Move := [wr .ctrl (encode .capacity)]

/-- `WAITDONE` (R101): one STATUS read if DONE = 1, and otherwise a loop of them, with the moves of the other agents that
`gaps` lets come between two reads (log entry 11). -/
def scriptWaitDone (gaps : List Nat) : List Move := [.waitDone gaps]

/-- `CLRDONE` (R101). -/
def scriptClrDone : List Move := [wr .status 0x2#32]

/-- `RESULT` (R101). -/
def scriptResult : List Move := [rd .resultLo, rd .resultHi]

/-- The value of `RESULT`, `{hi, lo}`, after its two reads (R101). -/
def State.hostResult (s : State) : BitVec 64 := s.hostData ++ s.hostPrior

end Sys2Proof.Machine
end

