-- ==== Sys2Proof/Machine/Step.lean ====
section
/-! DEFINITION. One step of the machine (spec/44_control.md R200). -/

namespace Sys2Proof.Machine

/-- One step: the next pending move; with none pending, the completion of a running command. -/
def step (s : State) : Host.Outcome State Fault Refusal := runScheduled s

/-- `s` with the command word of `nbits` bits `w` (the bits above them 0) written to CTRL and accepted, so that the next
step is that command's completion (log entry 10). -/
def State.withFetchWord (s : State) (nbits w : Nat) : State := s.launch (BitVec.ofNat 32 (w % 2 ^ nbits))

end Sys2Proof.Machine
end

