-- ==== Sys2Proof/Safety.lean ====
section
/-! DEFINITION. The terms in which claims about the machine are stated: the invariant of its states, what a running
command is, what a step leaves alone, and the spec's closed forms of the two bit streams (spec/30_encoding.md R93,
R94; spec/41_decoder.md R160). -/

namespace Sys2Proof.Machine

/-- A command is running as an accepted START left it: BUSY = 1 and every internal field at its initial value (R33,
R202). Every state with BUSY = 1 that a run reaches from reset is one (`InstanceInv.busy_internal`). -/
abbrev Running (s : State) : Prop := s.busy = true ∧ s.internal = Internal.initial

/-- The command has ended: BUSY = 0 and DONE = 1 (R203). -/
abbrev Completed (s : State) : Prop := s.busy = false ∧ s.done = true

/-- The registers the host writes keep their values: CTRL.OP, CTRL.IRQ_EN and the operand registers of R25 and R26. -/
abbrev SameHostRegisters (s t : State) : Prop :=
  t.ctrlOp = s.ctrlOp ∧ t.irqEn = s.irqEn ∧ t.dim = s.dim ∧ t.srcBase = s.srcBase ∧ t.dstBase = s.dstBase ∧
    t.payBase = s.payBase ∧ t.payLen = s.payLen ∧ t.outBase = s.outBase

/-- BUSY, DONE, ERR and RESULT keep their values. -/
abbrev SameStatus (s t : State) : Prop :=
  t.busy = s.busy ∧ t.done = s.done ∧ t.err = s.err ∧ t.result = s.result

/-- The latched operands and the internal state keep their values, and so does the model's record beside them. -/
abbrev SameLatches (s t : State) : Prop :=
  t.op = s.op ∧ t.internal = s.internal ∧ t.firstDraw = s.firstDraw ∧ t.ended = s.ended

/-- An instance without the record of the commands that have ended beside its own: what R233 gives it. -/
def Instance.own (x : Instance) : Instance := { x with ended := [] }

/-- What the host has read stays as it is. -/
abbrev SameHostReads (s t : State) : Prop := t.hostData = s.hostData ∧ t.hostPrior = s.hostPrior

/-- Every word of pixel space and every byte of byte space reads as before. -/
def SameMemories (s t : State) : Prop :=
  (∀ i, memRead t.pix i = memRead s.pix i) ∧ ∀ a, memRead t.bytes a = memRead s.bytes a

/-- The sizes of the two spaces keep their values. -/
abbrev SameSizes (s t : State) : Prop := t.pixAw = s.pixAw ∧ t.byteAw = s.byteAw

/-- The laws of STATUS and RESULT (R24, R28, R33, R222) for one instance; and only a running command has a record. -/
structure InstanceInv (x : Instance) : Prop where
  busy_not_done : ¬(x.busy = true ∧ x.done = true)
  busy_err : x.busy = true → x.err = 0#4
  busy_result : x.busy = true → x.result = 0#64
  busy_internal : x.busy = true → x.internal = Internal.initial
  err_legal : x.err.toNat ≤ 5
  err_result : x.err ≠ 0#4 → x.result = 0#64
  result_bound : x.result.toNat < 2 ^ 34
  idle_ended : x.busy = false → x.ended = []

/-- Two instances that run have draws of their own set aside for their reads (log entry 12). -/
abbrev DrawsApart (x y : Instance) : Prop :=
  x.busy = true → y.busy = true →
    x.firstDraw + x.op.readLen ≤ y.firstDraw ∨ y.firstDraw + y.op.readLen ≤ x.firstDraw

/-- What the machine's states satisfy: the sizes are legal (R9), both memories are in canonical form and hold
locations of their spaces only (R61, R62), every instance keeps its laws, and no draw is used twice. -/
structure Inv (s : State) : Prop where
  pixAw_range : 1 ≤ s.pixAw ∧ s.pixAw ≤ 32
  byteAw_range : 1 ≤ s.byteAw ∧ s.byteAw ≤ 32
  pix_wf : Memory.wf s.pix
  pix_within : Memory.within (2 ^ s.pixAw) s.pix
  bytes_wf : Memory.wf s.bytes
  bytes_within : Memory.within (2 ^ s.byteAw) s.bytes
  instance_laws : ∀ x ∈ s.instances, InstanceInv x
  draws_spent : ∀ x ∈ s.instances, x.busy = true → x.firstDraw + x.op.readLen ≤ s.draws
  draws_apart : s.instances.Pairwise DrawsApart

/-- Bit `k` of the encode bit stream of a payload: bit `k mod 8` of byte `k div 8`, and 0 past the payload (R93). -/
def streamBit (payload : List Byte) (k : Nat) : Bool := (payload.getD (k / 8) 0#8).getLsbD (k % 8)

/-- The bit in slot `k` of the pixel buffer at `base`: word bit `pos(k mod 3)` of pixel `k div 3` (R92, R94). -/
def slotBit (m : Memory 32) (base k : Nat) : Bool :=
  (memRead m (base + slotPixel k)).getLsbD (lanePos (slotLane k))

/-- The bits `k-7` to `k` are all 0 (R160). -/
abbrev ZeroRunEndsAt (bits : Nat → Bool) (k : Nat) : Prop := 7 ≤ k ∧ ∀ j < 8, bits (k - j) = false

/-- `k` is the `k*` of R160: the least index below `limit` at which a run of 8 zero bits ends. -/
abbrev FirstStop (bits : Nat → Bool) (limit k : Nat) : Prop :=
  k < limit ∧ ZeroRunEndsAt bits k ∧ ∀ k' < k, ¬ZeroRunEndsAt bits k'

/-- `bytes` hold the groups 0 to `m - 1` of `bits` from `base` up, least-significant bit first (R156, R160). -/
abbrev HoldsGroups (m : Memory 8) (base : Nat) (bits : Nat → Bool) (n : Nat) : Prop :=
  ∀ g < n, ∀ j < 8, (memRead m (base + g)).getLsbD j = bits (8 * g + j)

/-- The data bits of a payload hold no run of 8 consecutive zero bits (R161). -/
abbrev NoZeroRun (payload : List Byte) : Prop :=
  ∀ k < 8 * payload.length, ¬ZeroRunEndsAt (streamBit payload) k

/-- The zero bits of a byte from bit 7 down to the first 1 (R161). -/
def clz8 (b : Byte) : Nat := ((List.range 8).takeWhile fun j => !b.getLsbD (7 - j)).length

/-- The zero bits of a byte from bit 0 up to the first 1 (R161). -/
def ctz8 (b : Byte) : Nat := ((List.range 8).takeWhile fun j => !b.getLsbD j).length

/-- ENCODE's three checks pass on the latched operands (R127, R221). -/
abbrev EncodeChecksPass (s : State) : Prop :=
  s.op.payloadLen ≠ 0 ∧ s.fitsPix s.op.src.toNat s.op.pixels = true ∧
    s.fitsPix s.op.dst.toNat s.op.pixels = true ∧ s.fitsByte s.op.pay.toNat s.op.payloadLen = true ∧
    overlapPix s.op.src.toNat s.op.dst.toNat s.op.pixels = false

/-- The two memories agree on the words of the pixel buffer of `t` pixels at `a` and at `b`. -/
abbrev SamePixels (m m' : Memory 32) (a b t : Nat) : Prop := ∀ i < t, memRead m' (b + i) = memRead m (a + i)

/-- `d` runs a DECODE, on the same sizes, of the image that the ENCODE from `s` to `t` wrote (R161 to R164). -/
abbrev DecodesImageOf (s t d : State) : Prop :=
  Running d ∧ instrOfOp d.op.op = .decode ∧ SameSizes t d ∧ d.op.w = s.op.w ∧ d.op.h = s.op.h ∧
    d.fitsPix d.op.src.toNat d.op.pixels = true ∧
    SamePixels t.pix d.pix s.op.dst.toNat d.op.src.toNat s.op.pixels

end Sys2Proof.Machine
end

