-- ==== Sys2Proof/Certificates/Slice0/Obligations.lean ====
section
/-! DEFINITION. The statements about the machine, each citing the rule of spec/ it formalises. -/

open Sys2Proof Sys2Proof.Machine

/-! ### Encodings -/

/-- R95: decoding looks only at bits 2:0. The patterns 001, 011, 101 and 111 are the four commands, and a value with
bit 0 = 0 is no command. -/
def Obligations.DecodingLooksOnlyAtBits2To0 : Prop :=
  ∀ w : Word,
    (w.extractLsb' 0 3 = 0b001#3 → decode w = .ok .encode) ∧
    (w.extractLsb' 0 3 = 0b011#3 → decode w = .ok .decode) ∧
    (w.extractLsb' 0 3 = 0b101#3 → decode w = .ok .capacity) ∧
    (w.extractLsb' 0 3 = 0b111#3 → decode w = .ok .reservedOp3) ∧
    (w.getLsbD 0 = false → decode w = .error .notACommand)

/-- Command words written out from R95 and R101, with IRQ_EN and reserved bits set or clear. -/
def Obligations.WrittenOutCommandWordsDecode : Prop :=
  decode 0x00000001#32 = .ok .encode ∧ decode 0x00000009#32 = .ok .encode ∧ decode 0x00000003#32 = .ok .decode ∧
    decode 0x0000000B#32 = .ok .decode ∧ decode 0x00000005#32 = .ok .capacity ∧
    decode 0xFFFFFFFF#32 = .ok .reservedOp3 ∧ decode 0x00000008#32 = .error .notACommand ∧
    decode 0xFFFFFFF0#32 = .error .notACommand

/-- R95, R96: every 32-bit CTRL value selects exactly one row of the command table, or none when bit 0 = 0 (the row
`xx0`). -/
def Obligations.CommandRowsDoNotOverlap : Prop :=
  ∀ w : Word, (commandTable.filter fun r => r.selects w).length = if w.getLsbD 0 then 1 else 0

/-- Decode and encode agree on the whole command word: for every command, IRQ_EN and reserved bits the word decodes to
the command and its fields, and a word that decodes to a command is the word of its fields (R95). -/
def Obligations.CommandWordsDecodeToTheirFields : Prop :=
  (∀ (i : Instr) (r : BitVec 28) (q : Bool), i.wf = true →
    decode (encodeWith r q i) = .ok i ∧ parseCtrl (encodeWith r q i) = ⟨r, q, i.opCode, true⟩) ∧
  ∀ (w : Word) (i : Instr), decode w = .ok i → encodeWith (parseCtrl w).reserved (parseCtrl w).irqEn i = w

/-! ### Steps -/

/-- A completion step of a running command, scheduled or not, completes the latched command, which is exec of it unless it
clashes with a command of another instance (the others then keep on record that it has ended); and the step after a
command word is placed completes the command that the word decodes to (R203, R233; log entries 6, 10 and 12). -/
def Obligations.StepRunsTheDecodedCommand : Prop :=
  (∀ (s : State) (rest : List Move), s.script = .complete :: rest → s.busy = true →
    step s = completeCommand (instrOfOp s.op.op) (s.withScript rest)) ∧
  (∀ s : State, s.script = [] → s.busy = true → step s = completeCommand (instrOfOp s.op.op) s) ∧
  (∀ (i : Instr) (s : State), s.rivals = [] →
    ∃ t, exec i s = .next t ∧ completeCommand i s = .next (t.recordEnding s.op s.footprint)) ∧
  (∀ (i : Instr) (s : State), s.met = [] → completeCommand i s = exec i s) ∧
  ∀ (s : State) (w : Word) (i : Instr), decode w = .ok i →
    Running (s.withFetchWord 32 w.toNat) ∧
    step (s.withFetchWord 32 w.toNat) = completeCommand i ((s.withFetchWord 32 w.toNat).withScript s.script) ∧
    (runningOps s.others = [] →
      step (s.withFetchWord 32 w.toNat) = exec i ((s.withFetchWord 32 w.toNat).withScript s.script))

/-- A command word written to CTRL while the core is idle, with the completion step after it, runs the command it
decodes to on the operands latched by that write (R27, R202, R203), in a clash as R233 says (log entry 12). `Inv` rules out running
commands of other instances whose internal state no run reaches. -/
def Obligations.StartThenCompletionRunsTheCommand : Prop :=
  ∀ (s : State) (w : Word) (i : Instr) (rest : List Move),
    s.script = .regWrite 32 0x00 w :: .complete :: rest → s.busy = false → decode w = .ok i →
    ∃ t, step s = .next t ∧ Running t ∧ t.script = .complete :: rest ∧ instrOfOp t.op.op = i ∧
      t.op.src = s.srcBase ∧ t.op.dst = s.dstBase ∧ t.op.pay = s.payBase ∧ t.op.len = s.payLen ∧
      t.op.out = s.outBase ∧ t.op.w = s.dim.extractLsb' 0 16 ∧ t.op.h = s.dim.extractLsb' 16 16 ∧
      step t = completeCommand i (t.withScript rest) ∧
      (Inv s → (∀ o ∈ runningOps s.others, o.clashes t.op = false) → step t = exec i (t.withScript rest))

/-- R202: a write to CTRL takes OP and IRQ_EN; with START = 1 and BUSY = 0 it latches the operands (R27), initialises the
internal state (R33), sets BUSY and clears DONE, ERR and RESULT, so that `done_irq` falls; otherwise status and running
command stay. Nothing else changes. -/
def Obligations.CtrlWriteStartsACommandOnlyWhenIdle : Prop :=
  ∀ (s : State) (v : Word) (rest : List Move), s.script = .regWrite 32 0x00 v :: rest →
    ∃ t, step s = .next t ∧ t.script = rest ∧ t.ctrlOp = v.extractLsb' 1 2 ∧ t.irqEn = v.getLsbD 3 ∧
      t.dim = s.dim ∧ t.srcBase = s.srcBase ∧ t.dstBase = s.dstBase ∧ t.payBase = s.payBase ∧
      t.payLen = s.payLen ∧ t.outBase = s.outBase ∧ t.pix = s.pix ∧ t.bytes = s.bytes ∧ SameSizes s t ∧
      SameHostReads s t ∧ t.others = s.others ∧
      (v.getLsbD 0 = true ∧ s.busy = false →
        t.busy = true ∧ t.done = false ∧ t.err = 0#4 ∧ t.result = 0#64 ∧ t.doneIrq = false ∧
        t.internal = Internal.initial ∧
        t.op = ⟨v.extractLsb' 1 2, s.dim.extractLsb' 0 16, s.dim.extractLsb' 16 16, s.srcBase, s.dstBase, s.payBase,
          s.payLen, s.outBase⟩) ∧
      (v.getLsbD 0 = false ∨ s.busy = true → SameStatus s t ∧ SameLatches s t)

/-- R205: a write to STATUS with bit 1 = 1 clears DONE, so that `done_irq` falls; every other bit written is ignored and
everything else keeps its value. -/
def Obligations.StatusWriteClearsDoneAndNothingElse : Prop :=
  ∀ (s : State) (v : Word) (rest : List Move), s.script = .regWrite 32 0x04 v :: rest →
    ∃ t, step s = .next t ∧ t = { s.withScript rest with done := t.done } ∧
      (v.getLsbD 1 = true → t.done = false ∧ t.doneIrq = false) ∧ (v.getLsbD 1 = false → t.done = s.done)

/-- R206: a write to an operand register is taken whether BUSY is 0 or 1 and reaches no running command; writes to
RESULT_LO, RESULT_HI and unmapped offsets are ignored. -/
def Obligations.OperandWritesTakeTheValue : Prop :=
  ∀ (s : State) (v : Word) (rest : List Move),
    (∀ r ∈ [Reg.dim, .srcBase, .dstBase, .payBase, .payLen, .outBase], s.script = .regWrite 32 r.offset v :: rest →
      ∃ t, step s = .next t ∧ t.regValue r = v ∧ (∀ r' : Reg, r' ≠ r → t.regValue r' = s.regValue r') ∧
        SameLatches s t ∧ t.pix = s.pix ∧ t.bytes = s.bytes ∧ SameSizes s t ∧ t.others = s.others ∧
        t.script = rest) ∧
    (∀ r ∈ [Reg.resultLo, .resultHi], s.script = .regWrite 32 r.offset v :: rest →
      step s = .next (s.withScript rest)) ∧
    ∀ offset : Nat, 0x28 ≤ offset → offset % 4 = 0 → s.script = .regWrite 32 offset v :: rest →
      step s = .next (s.withScript rest)

/-- R201: a register read returns the value built from the fields of R23 to R28 and changes no state of the core;
reserved bits, START and unmapped offsets read 0. While a command runs STATUS reads 0x00000001 and RESULT reads 0
(`Inv` rules out the states no run reaches). -/
def Obligations.RegisterReadsReturnTheFields : Prop :=
  ∀ (s : State) (offset : Nat) (rest : List Move), s.script = .regRead 32 offset :: rest → offset % 4 = 0 →
    ∃ t, step s = .next t ∧ t = (s.withScript rest).withHostData t.hostData ∧
      (offset = 0x00 → ∀ k, t.hostData.getLsbD k =
        if k = 1 then s.ctrlOp.getLsbD 0 else if k = 2 then s.ctrlOp.getLsbD 1 else if k = 3 then s.irqEn
        else false) ∧
      (offset = 0x04 → ∀ k, t.hostData.getLsbD k =
        if k = 0 then s.busy else if k = 1 then s.done else if 4 ≤ k ∧ k < 8 then s.err.getLsbD (k - 4)
        else false) ∧
      (offset = 0x08 → t.hostData = s.dim) ∧ (offset = 0x0C → t.hostData = s.srcBase) ∧
      (offset = 0x10 → t.hostData = s.dstBase) ∧ (offset = 0x14 → t.hostData = s.payBase) ∧
      (offset = 0x18 → t.hostData = s.payLen) ∧ (offset = 0x1C → t.hostData = s.outBase) ∧
      (offset = 0x20 → ∀ k < 32, t.hostData.getLsbD k = s.result.getLsbD k) ∧
      (offset = 0x24 → ∀ k < 32, t.hostData.getLsbD k = s.result.getLsbD (32 + k)) ∧
      (0x28 ≤ offset → t.hostData = 0#32) ∧
      (Inv s → s.busy = true → offset = 0x04 → t.hostData = 0x00000001#32) ∧
      (Inv s → s.busy = true → offset = 0x20 ∨ offset = 0x24 → t.hostData = 0#32)

/-- R265: a register access that is not 32 bits wide or not at a 4-byte-aligned offset is refused, and the refusal holds
for the rest of the run. -/
def Obligations.BadRegisterAccessesAreRefused : Prop :=
  ∀ (s : State) (bits offset : Nat) (v : Word) (rest : List Move), ¬(bits = 32 ∧ offset % 4 = 0) →
    s.script = .regRead bits offset :: rest ∨ s.script = .regWrite bits offset v :: rest →
    ∀ k, Host.Core.run core (k + 1) s = .refused (.badRegisterAccess bits offset)

/-- R31: `done_irq = STATUS.DONE AND CTRL.IRQ_EN`. It rises on the completion step when IRQ_EN = 1 or on a write that
sets IRQ_EN while DONE = 1, and falls when DONE is cleared or IRQ_EN is written to 0. -/
def Obligations.DoneIrqIsTheLevelOfDoneAndIrqEn : Prop :=
  (∀ s : State, s.doneIrq = (s.done && s.irqEn)) ∧
  (∀ (i : Instr) (s t : State), exec i s = .next t → t.doneIrq = s.irqEn) ∧
  (∀ (s : State) (v : Word) (rest : List Move), s.script = .regWrite 32 0x00 v :: rest → v.getLsbD 0 = false →
    ∃ t, step s = .next t ∧ t.doneIrq = (s.done && v.getLsbD 3)) ∧
  ∀ (s : State) (v : Word) (rest : List Move), s.script = .regWrite 32 0x04 v :: rest → v.getLsbD 1 = true →
    ∃ t, step s = .next t ∧ t.doneIrq = false

/-- R207: while a command runs, no move but the completion step and reset ends it or changes its latched operands, its
internal state, STATUS or RESULT; a reset stops it. `Inv` rules out BUSY and DONE both 1, and a move that addresses
another instance is left to AddressingAnInstanceChangesNothing. -/
def Obligations.NothingButResetStopsARunningCommand : Prop :=
  (∀ (s t : State) (m : Move) (rest : List Move), Inv s → s.script = m :: rest → s.busy = true → m ≠ .complete →
    m ≠ .reset → (∀ k, m ≠ .select k) → step s = .next t → SameStatus s t ∧ SameLatches s t) ∧
  ∀ (s : State) (rest : List Move), s.script = .reset :: rest → ∃ t, step s = .next t ∧ t.busy = false

/-- R235: an idle core with nothing to do, on a platform where no instance runs, takes no step and keeps all of its state
(log entry 6 for the form of the step in the model). -/
def Obligations.IdleCoreKeepsItsState : Prop :=
  ∀ s : State, s.script = [] → s.running = [] → step s = .next s

/-- R204: idle steps before a completion step cannot be told from the completion step alone. -/
def Obligations.IdleStepsMakeNoDifference : Prop :=
  ∀ (s : State) (k : Nat) (rest : List Move), s.busy = true →
    Host.Core.run core (k + 1) (s.withScript (List.replicate k .idle ++ .complete :: rest)) =
      step (s.withScript (.complete :: rest))

/-- R267: an accepted command completes, whatever finite number of idle steps comes first; with nothing scheduled the
completion step is taken, of the addressed instance first and then of another that runs, and a WAITDONE loop that waits
for an idle core lets it be taken too (the fairness of R267; log entries 6 and 11). -/
def Obligations.EveryRunningCommandCompletes : Prop :=
  (∀ (s : State) (k : Nat), s.busy = true → s.script = List.replicate k .idle →
    ∃ t, Host.Core.run core (k + 1) s = .next t ∧ Completed t) ∧
  (∀ (s : State) (k : Nat), s.script = [] → s.busy = false → s.others.findIdx? (·.busy) = some k →
    ∃ t, Host.Core.run core 2 s = .next t ∧ Completed t ∧
      t.others.map Instance.own = (s.others.set k s.selected).map Instance.own) ∧
  ∀ (s : State) (k : Nat) (rest : List Move), s.script = .waitDone [] :: rest → s.busy = false → s.done = false →
    s.others.findIdx? (·.busy) = some k →
    ∃ t, Host.Core.run core 4 s = .next t ∧ t.script = .waitDone [] :: rest ∧ t.selected = s.selected ∧
      ∃ y, t.others[k]? = some y ∧ y.busy = false ∧ y.done = true

/-- R101: WAITDONE is one STATUS read if DONE = 1; otherwise it goes on, and it ends, after any number of polls that find
DONE = 0 and the completion, with a read that finds DONE = 1 (log entry 11 for its form). SETDIM sets WIDTH and
HEIGHT. -/
def Obligations.WaitDoneAndSetDimDoWhatTheirExpansionsSay : Prop :=
  (∀ (s : State) (gaps : List Nat) (rest : List Move), s.script = scriptWaitDone gaps ++ rest →
    (s.done = true → ∃ t, step s = .next t ∧ t = (s.withScript rest).withHostData s.statusWord ∧
      t.hostData.getLsbD 1 = true) ∧
    (s.done = false → ∃ t gaps', step s = .next t ∧ t.hostData = s.statusWord ∧ t.hostData.getLsbD 1 = false ∧
      .waitDone gaps' ∈ t.script ∧ SameStatus s t ∧ SameLatches s t)) ∧
  (∀ (s : State) (k : Nat) (rest : List Move), s.busy = true → s.done = false →
    s.script = scriptWaitDone (List.replicate k 1) ++ (List.replicate k .idle ++ rest) →
    ∃ t, Host.Core.run core (2 * k + 3) s = .next t ∧ Completed t ∧ t.hostData.getLsbD 1 = true ∧ t.script = rest) ∧
  ∀ (s : State) (w h : BitVec 16) (rest : List Move), s.script = scriptSetDim w h ++ rest →
    ∃ t, step s = .next t ∧ t.width = w ∧ t.height = h ∧ t.script = rest

/-- R101: the register writes that ENCODE, DECODE, their interrupt forms, CAPACITY and CLRDONE expand to, and the value
`{hi, lo}` of RESULT, which is the 64-bit result (log entry 7 for where the model keeps it). -/
def Obligations.PseudoInstructionsAreTheirExpansions : Prop :=
  scriptEncode false = [.regWrite 32 0x00 0x1#32] ∧ scriptEncode true = [.regWrite 32 0x00 0x9#32] ∧
  scriptDecode false = [.regWrite 32 0x00 0x3#32] ∧ scriptDecode true = [.regWrite 32 0x00 0xB#32] ∧
  scriptCapacity = [.regWrite 32 0x00 0x5#32] ∧ scriptClrDone = [.regWrite 32 0x04 0x2#32] ∧
  ∀ (s : State) (rest : List Move), s.script = scriptResult ++ rest →
    ∃ t, Host.Core.run core 2 s = .next t ∧ t.hostResult = s.result ∧ t.script = rest

/-! ### Reset -/

/-- The machine right after reset: every register reads 0 and `done_irq` is 0 (R35). That both memories list nothing is
log entry 1's choice. -/
def Obligations.ResetStateReadsZero : Prop :=
  (∀ r : Reg, State.reset.regValue r = 0#32) ∧ State.reset.doneIrq = false ∧ State.reset.pix = [] ∧
    State.reset.bytes = []

/-- R260: a reset step at any time sets every register field to its reset value, and changes neither space unless it
interrupts a command that could write that space (for which R261 says what it leaves). -/
def Obligations.ResetZeroesTheRegistersAndKeepsTheMemories : Prop :=
  ∀ (s : State) (rest : List Move), s.script = .reset :: rest →
    ∃ t, step s = .next t ∧ (∀ r : Reg, t.regValue r = 0#32) ∧ t.doneIrq = false ∧ SameSizes s t ∧
      t.script = rest ∧ SameHostReads s t ∧ t.others.map Instance.own = s.others.map Instance.own ∧
      (s.busy = false ∨ instrOfOp s.op.op ≠ .encode → t.pix = s.pix) ∧
      (s.busy = false ∨ instrOfOp s.op.op ≠ .decode → t.bytes = s.bytes)

/-- R261: a reset while BUSY = 1 abandons the command with no ERR and no RESULT. Each existing location that it could
have written (ENCODE's T destination words, DECODE's bytes `op.OUT` to `op.OUT + (L div 8) - 1`) holds a draw with no
law, and every other location keeps its value (log entry 3 for which draw, and for the clipping to existing locations).
`Inv` gives the canonical form of the memories. -/
def Obligations.ResetDuringACommandLeavesDraws : Prop :=
  ∀ (s : State) (rest : List Move), Inv s → s.script = .reset :: rest → s.busy = true →
    ∃ t, step s = .next t ∧ t.busy = false ∧ t.done = false ∧ t.err = 0#4 ∧ t.result = 0#64 ∧
      (∀ i, memRead t.pix i =
        if instrOfOp s.op.op = .encode ∧ s.op.dst.toNat ≤ i ∧ i < s.op.dst.toNat + s.op.pixels ∧ i < 2 ^ s.pixAw
        then Config.freeWord (s.draws + (i - s.op.dst.toNat)) else memRead s.pix i) ∧
      ∀ a, memRead t.bytes a =
        if instrOfOp s.op.op = .decode ∧ s.op.out.toNat ≤ a ∧ a < s.op.out.toNat + s.op.slots / 8 ∧
          a < 2 ^ s.byteAw
        then Config.freeByte (s.draws + (a - s.op.out.toNat)) else memRead s.bytes a

/-- R262: an ENCODE started at once after reset completes with EMPTY_PAYLOAD (STATUS reads 0x00000012) and RESULT = 0,
and writes nothing. -/
def Obligations.FirstStartAfterResetReportsEmptyPayload : Prop :=
  ∃ t, Host.Core.run core 2 (State.reset.withScript [.regWrite 32 0x00 0x00000001#32, .complete]) = .next t ∧
    t.statusWord = 0x00000012#32 ∧ t.result = 0#64 ∧ t.pix = State.reset.pix ∧ t.bytes = State.reset.bytes

/-! ### The invariant -/

/-- The machine right after reset meets the invariant, with any number of further instances on the platform. -/
def Obligations.ResetMeetsTheInvariant : Prop := Inv State.reset ∧ ∀ n, Inv (State.platform n)

/-- Every step keeps the invariant: legal sizes, memories in canonical form inside their spaces, and of every instance:
BUSY and DONE never both 1, ERR = 0 and RESULT = 0 while BUSY = 1, ERR at most 5, RESULT = 0 with an error and below 2^34
always, the internal state of a running command at its initial value, nothing on record while BUSY = 0, and draws of its
own for the reads of each running command (R9, R24, R28, R33, R61, R62, R222, R233; log entry 1 for the canonical form,
log entry 6 for the internal state, log entry 12 for the record and the draws). -/
def Obligations.StepKeepsTheInvariant : Prop :=
  ∀ s t : State, Inv s → step s = .next t → Inv t

/-- No step changes the sizes of the two spaces, which are parameters of the hardware (R9; log entry 2). -/
def Obligations.NoStepChangesTheSpaceSizes : Prop :=
  ∀ s t : State, step s = .next t → SameSizes s t

/-! ### Memory -/

/-- R71, R72: the region predicates in exact arithmetic. -/
def Obligations.RegionPredicatesAreExact : Prop :=
  (∀ (s : State) (base len : Nat), s.fitsPix base len = true ↔ len = 0 ∨ base + len ≤ 2 ^ s.pixAw) ∧
  (∀ (s : State) (base len : Nat), s.fitsByte base len = true ↔ len = 0 ∨ base + len ≤ 2 ^ s.byteAw) ∧
  ∀ a b t : Nat, (overlapPix a b t = true ↔ 0 < t ∧ a < b + t ∧ b < a + t) ∧
    (a = b → 0 < t → overlapPix a b t = true)

/-- R74 item 3: while a command runs, on any instance, a host write to one of its regions is refused, and a host read of
its destination or output region returns a draw with no law (log entries 4, 9, 12 and 14). -/
def Obligations.BusyWindowGuardsTheRegions : Prop :=
  ∀ (s : State) (rest : List Move), ∀ o ∈ s.running,
    (∀ (i : Nat) (v : Word), i < 2 ^ s.pixAw → o.inSource i = true ∨ o.inDestination i = true →
      s.script = .pixWrite i v :: rest → step s = .refused .busyRegionWrite) ∧
    (∀ (a : Nat) (v : Byte), a < 2 ^ s.byteAw → o.inPayload a = true ∨ o.inOutput a = true →
      s.script = .byteWrite a v :: rest → step s = .refused .busyRegionWrite) ∧
    (∀ i : Nat, i < 2 ^ s.pixAw → o.inDestination i = true → s.script = .pixRead i :: rest →
      ∃ t, step s = .next t ∧ t.hostData = Config.freeWord s.draws ∧ t.draws = s.draws + 1 ∧ SameMemories s t) ∧
    ∀ a : Nat, a < 2 ^ s.byteAw → o.inOutput a = true → s.script = .byteRead a :: rest →
      ∃ t, step s = .next t ∧ t.hostData = (Config.freeByte s.draws).setWidth 32 ∧ t.draws = s.draws + 1 ∧
        SameMemories s t

/-- A host write to a location of its space, outside the regions of a running command, lands there and nowhere else, and
a host read returns what the location holds (R12, R61, R62, R68). `Inv` gives the canonical form. -/
def Obligations.HostMemoryAccessesReachTheirLocation : Prop :=
  ∀ (s : State) (rest : List Move), Inv s →
    (∀ (i : Nat) (v : Word), i < 2 ^ s.pixAw →
      (∀ o ∈ s.running, o.inSource i = false ∧ o.inDestination i = false) → s.script = .pixWrite i v :: rest →
      ∃ t, step s = .next t ∧ memRead t.pix i = v ∧ (∀ j, j ≠ i → memRead t.pix j = memRead s.pix j) ∧
        t.bytes = s.bytes ∧ SameHostRegisters s t ∧ SameStatus s t ∧ SameLatches s t ∧ t.others = s.others) ∧
    (∀ (a : Nat) (v : Byte), a < 2 ^ s.byteAw →
      (∀ o ∈ s.running, o.inPayload a = false ∧ o.inOutput a = false) → s.script = .byteWrite a v :: rest →
      ∃ t, step s = .next t ∧ memRead t.bytes a = v ∧ (∀ b, b ≠ a → memRead t.bytes b = memRead s.bytes b) ∧
        t.pix = s.pix ∧ SameHostRegisters s t ∧ SameStatus s t ∧ SameLatches s t ∧ t.others = s.others) ∧
    (∀ i : Nat, i < 2 ^ s.pixAw → (∀ o ∈ s.running, o.inDestination i = false) → s.script = .pixRead i :: rest →
      step s = .next ((s.withScript rest).withHostData (memRead s.pix i))) ∧
    ∀ a : Nat, a < 2 ^ s.byteAw → (∀ o ∈ s.running, o.inOutput a = false) → s.script = .byteRead a :: rest →
      step s = .next ((s.withScript rest).withHostData ((memRead s.bytes a).setWidth 32))

/-- A completion step writes only the locations its command could write (ENCODE's destination words, DECODE's output
bytes), and never a location that its command reads (R69, R78), in a clash too. `Inv` rules out the states no run
reaches. -/
def Obligations.CommandsWriteOnlyTheirOwnRegions : Prop :=
  ∀ s t : State, Inv s → s.busy = true → completeCommand (instrOfOp s.op.op) s = .next t →
    (∀ i, s.op.inDestination i = false → memRead t.pix i = memRead s.pix i) ∧
    (∀ a, s.op.inOutput a = false → memRead t.bytes a = memRead s.bytes a) ∧
    (∀ i, s.op.inSource i = true → memRead t.pix i = memRead s.pix i) ∧
    ∀ a, s.op.inPayload a = true → memRead t.bytes a = memRead s.bytes a

/-! ### Several instances -/

/-- R233: each instance has its own registers, latched operands and internal state. A move that addresses number `k` of
the others makes it the addressed one and puts the one addressed before in its place, and changes nothing else; the
platform holds no instance past the last (log entry 12). -/
def Obligations.AddressingAnInstanceChangesNothing : Prop :=
  ∀ (s : State) (k : Nat) (rest : List Move), s.script = .select k :: rest →
    (∀ x, s.others[k]? = some x →
      ∃ t, step s = .next t ∧ t.selected = x ∧ t.others = s.others.set k s.selected ∧
        t.instances.Perm s.instances ∧ t.pix = s.pix ∧ t.bytes = s.bytes ∧ SameSizes s t ∧ t.script = rest ∧
        SameHostReads s t) ∧
    (s.others.length ≤ k → step s = .refused (.noSuchInstance k))

/-- R233: instances share only the memories. No move but one that addresses another instance changes a register, a
latched operand or the internal state of another instance. Another instance that runs keeps on record what a command has
touched that ends, by a completion or a reset, if the two can clash, and a START begins with nothing on record (log entry
12). -/
def Obligations.InstancesShareOnlyTheMemories : Prop :=
  (∀ (s t : State) (m : Move) (rest : List Move), s.script = m :: rest → (∀ k, m ≠ .select k) → step s = .next t →
    t.others.map Instance.own = s.others.map Instance.own) ∧
  (∀ (i : Instr) (s : State), ∃ t, completeCommand i s = .next t ∧
    ∀ (k : Nat) (x : Instance), s.others[k]? = some x →
      ∃ y, t.others[k]? = some y ∧ y.own = x.own ∧
        y.ended = if x.busy = true ∧ x.op.clashes s.op = true then s.footprint :: x.ended else x.ended) ∧
  (∀ (s : State) (rest : List Move), s.script = .reset :: rest → s.busy = true →
    ∃ t, step s = .next t ∧ ∀ (k : Nat) (x : Instance), s.others[k]? = some x →
      ∃ y, t.others[k]? = some y ∧ y.own = x.own ∧
        y.ended = if x.busy = true ∧ x.op.clashes s.op = true then s.abandonedFootprint :: x.ended else x.ended) ∧
  ∀ (s : State) (v : Word) (rest : List Move), s.script = .regWrite 32 0x00 v :: rest → v.getLsbD 0 = true →
    s.busy = false → ∃ t, step s = .next t ∧ t.ended = [] ∧ t.firstDraw = s.draws ∧ s.draws + t.op.readLen ≤ t.draws

/-- R66, R69, R222: what a running command reads and writes, and so what it can clash in. An ENCODE writes its T
destination words and a DECODE the RESULT bytes from OUT up, exactly if they end with ERR = 0; they read their source and
payload unless a check of the operands fails. -/
def Obligations.FootprintsAreWhatCommandsReadAndWrite : Prop :=
  ∀ s : State, Inv s → s.busy = true → ∃ t, completeCommand (instrOfOp s.op.op) s = .next t ∧
    (∀ i, s.footprint.pixWritten.holds i = true ↔
      instrOfOp s.op.op = .encode ∧ t.err = 0#4 ∧ s.op.dst.toNat ≤ i ∧ i < s.op.dst.toNat + s.op.pixels) ∧
    (∀ a, s.footprint.byteWritten.holds a = true ↔
      instrOfOp s.op.op = .decode ∧ t.err = 0#4 ∧ s.op.out.toNat ≤ a ∧ a < s.op.out.toNat + t.result.toNat) ∧
    (∀ i, s.footprint.pixRead.holds i = true ↔
      (instrOfOp s.op.op = .encode ∧ EncodeChecksPass s ∨
        instrOfOp s.op.op = .decode ∧ s.fitsPix s.op.src.toNat s.op.pixels = true) ∧
      s.op.src.toNat ≤ i ∧ i < s.op.src.toNat + s.op.pixels) ∧
    ∀ a, s.footprint.byteRead.holds a = true ↔
      instrOfOp s.op.op = .encode ∧ EncodeChecksPass s ∧ s.op.pay.toNat ≤ a ∧ a < s.op.pay.toNat + s.op.payloadLen

/-- R233: two commands clash exactly when there is a pixel word or a byte that one of them writes and the other reads or
writes; and by the regions that the operands name, exactly when there is one that one of them could write and the other
reads or could write (log entry 9 for DECODE's output region). -/
def Obligations.ClashesAreTheSharedLocations : Prop :=
  (∀ f g : Footprint, f.clashes g = true ↔
    (∃ i, (f.pixWritten.holds i = true ∧ (g.pixRead.holds i = true ∨ g.pixWritten.holds i = true)) ∨
      (g.pixWritten.holds i = true ∧ (f.pixRead.holds i = true ∨ f.pixWritten.holds i = true))) ∨
    ∃ a, (f.byteWritten.holds a = true ∧ (g.byteRead.holds a = true ∨ g.byteWritten.holds a = true)) ∨
      (g.byteWritten.holds a = true ∧ (f.byteRead.holds a = true ∨ f.byteWritten.holds a = true))) ∧
  ∀ o r : Operands, o.clashes r = true ↔
    (∃ i, (o.inDestination i = true ∧ (r.inSource i = true ∨ r.inDestination i = true)) ∨
      (r.inDestination i = true ∧ (o.inSource i = true ∨ o.inDestination i = true))) ∨
    ∃ a, (o.inOutput a = true ∧ (r.inPayload a = true ∨ r.inOutput a = true)) ∨
      (r.inOutput a = true ∧ (o.inPayload a = true ∨ o.inOutput a = true))

/-- R233: a command in a clash completes. A read of a location that a command of another instance writes returns a draw, a
location it writes that another command reads or writes holds a draw afterwards, and every other location that it writes
holds what exec puts there on what it read (log entry 12 for which draw). -/
def Obligations.ClashingLocationsHoldDraws : Prop :=
  ∀ s : State, Inv s → s.busy = true → s.rivals ≠ [] →
    (∀ i, memRead s.seen.pix i =
      if s.op.inSource i = true ∧ i < 2 ^ s.pixAw ∧ ∃ f ∈ s.met, f.pixWritten.holds i = true
      then Config.freeWord (s.firstDraw + (i - s.op.src.toNat)) else memRead s.pix i) ∧
    (∀ a, memRead s.seen.bytes a =
      if s.op.inPayload a = true ∧ a < 2 ^ s.byteAw ∧ ∃ f ∈ s.met, f.byteWritten.holds a = true
      then Config.freeByte (s.firstDraw + (a - s.op.pay.toNat)) else memRead s.bytes a) ∧
    ∃ u t, exec (instrOfOp s.op.op) s.seen = .next u ∧ completeCommand (instrOfOp s.op.op) s = .next t ∧
      Completed t ∧ t.err = u.err ∧ t.result = u.result ∧
      (∀ i, memRead t.pix i =
        if s.footprint.pixWritten.holds i = true then
          if ∃ f ∈ s.met, f.pixRead.holds i = true ∨ f.pixWritten.holds i = true
          then Config.freeWord (u.draws + (i - s.op.dst.toNat)) else memRead u.pix i
        else memRead s.pix i) ∧
      ∀ a, memRead t.bytes a =
        if s.footprint.byteWritten.holds a = true then
          if ∃ f ∈ s.met, f.byteRead.holds a = true ∨ f.byteWritten.holds a = true
          then Config.freeByte (u.draws + (a - s.op.out.toNat)) else memRead u.bytes a
        else memRead s.bytes a

/-- R233, R264: instances that run at the same time and do not clash are independent: the completion of one leaves the
other's registers, operands and internal state, and every location that the other reads or writes. If the regions that
their operands name do not clash, it leaves the other as it is. -/
def Obligations.ClashFreeInstancesAreIndependent : Prop :=
  ∀ (s t : State) (k : Nat) (x : Instance), Inv s → s.busy = true → s.others[k]? = some x → x.busy = true →
    completeCommand (instrOfOp s.op.op) s = .next t →
    (s.footprint.clashes (s.withInstances x (s.others.set k s.selected)).footprint = false →
      (∃ y, t.others[k]? = some y ∧ y.own = x.own) ∧
      (∀ i, (s.withInstances x (s.others.set k s.selected)).footprint.pixRead.holds i = true ∨
        (s.withInstances x (s.others.set k s.selected)).footprint.pixWritten.holds i = true →
        memRead t.pix i = memRead s.pix i) ∧
      ∀ a, (s.withInstances x (s.others.set k s.selected)).footprint.byteRead.holds a = true ∨
        (s.withInstances x (s.others.set k s.selected)).footprint.byteWritten.holds a = true →
        memRead t.bytes a = memRead s.bytes a) ∧
    (s.op.clashes x.op = false → t.others[k]? = some x ∧
      (∀ i, x.op.inSource i = true ∨ x.op.inDestination i = true → memRead t.pix i = memRead s.pix i) ∧
      ∀ a, x.op.inPayload a = true ∨ x.op.inOutput a = true → memRead t.bytes a = memRead s.bytes a)

/-! ### Channel helpers and the mux -/

/-- R182: the laws of setLsb and getLsb. -/
def Obligations.ChannelHelperLaws : Prop :=
  ∀ (v : Byte) (b : Bool), getLsb (setLsb v b) = b ∧ setLsb v (getLsb v) = v ∧
    (setLsb v b).extractLsb' 1 7 = v.extractLsb' 1 7 ∧
    setLsb v b = (v &&& 0xFE#8) ||| (BitVec.ofBool b).setWidth 8

/-- R126: embedding replaces the lane's channel field by setLsb of it, which is to replace word bit `pos(l)` by the bit
and keep the other 31; alpha never changes. -/
def Obligations.EmbedReplacesOneWordBit : Prop :=
  ∀ (v : Word) (l : Lane) (b : Bool),
    chan (embed v l b) l = setLsb (chan v l) b ∧
    (∀ k, (embed v l b).getLsbD k = if k = lanePos l then b else v.getLsbD k) ∧
    (embed v l b).extractLsb' 24 8 = v.extractLsb' 24 8

/-- R150, R151: the decode bit stream has exactly L = 3*T bits, and bit `s` is getLsb of the channel of slot `s` of the
source image. -/
def Obligations.DecodeBitStreamReadsEverySlot : Prop :=
  ∀ s : State, s.decodeBitStream.length = 3 * (s.op.w.toNat * s.op.h.toNat) ∧
    ∀ k < s.op.slots, s.decodeBitStream[k]? =
      some (getLsb (chan (memRead s.pix (s.op.src.toNat + k / 3))
        (if k % 3 = 0 then .red else if k % 3 = 1 then .green else .blue)))

/-! ### ENCODE -/

/-- R93, R121: the expanded stream has 8*n + 8 bits, each payload byte LSB first, then 8 zero bits. -/
def Obligations.ExpandedStreamIsLsbFirstWithSentinel : Prop :=
  ∀ P : List Byte, (expand P).length = 8 * P.length + 8 ∧
    (∀ (i j : Nat) (hi : i < P.length), j < 8 → (expand P)[8 * i + j]? = some (P[i].getLsbD j)) ∧
    ∀ t < 8, (expand P)[8 * P.length + t]? = some false

/-- R127, R129: when its checks pass, ENCODE completes with ERR = 0 and RESULT = min(N, L); slot `k` of the destination
holds stream bit `S[k]` (bit `k mod 8` of payload byte `k div 8`, or a sentinel 0) for `k < min(N, L)` and the source's
bit from there on; and every word bit that is no channel LSB is the source's. `Inv` gives the canonical form. -/
def Obligations.EncodeEmbedsTheStreamInACopy : Prop :=
  ∀ s : State, Inv s → Running s → EncodeChecksPass s →
    ∃ t, exec .encode s = .next t ∧ Completed t ∧ t.err = 0#4 ∧
      t.result.toNat = min (8 * s.op.len.toNat + 8) s.op.slots ∧
      (∀ k < s.op.slots, slotBit t.pix s.op.dst.toNat k =
        if k < 8 * s.op.len.toNat then (memRead s.bytes (s.op.pay.toNat + k / 8)).getLsbD (k % 8)
        else if k < 8 * s.op.len.toNat + 8 then false
        else slotBit s.pix s.op.src.toNat k) ∧
      ∀ i < s.op.pixels, ∀ b, b ≠ 16 → b ≠ 8 → b ≠ 0 →
        (memRead t.pix (s.op.dst.toNat + i)).getLsbD b = (memRead s.pix (s.op.src.toNat + i)).getLsbD b

/-- ENCODE's frame: the host's registers, the sizes, the schedule, the host's data and all of byte space stay; pixel
space stays outside the T destination words, and everywhere if ENCODE reports an error (R69, R127). -/
def Obligations.EncodeLeavesEverythingElseAlone : Prop :=
  ∀ s : State, Inv s → ∃ t, exec .encode s = .next t ∧ Completed t ∧ SameHostRegisters s t ∧ SameSizes s t ∧
    t.script = s.script ∧ SameHostReads s t ∧ t.others = s.others ∧ t.bytes = s.bytes ∧
    ∀ i, t.err ≠ 0#4 ∨ ¬(s.op.dst.toNat ≤ i ∧ i < s.op.dst.toNat + s.op.pixels) →
      memRead t.pix i = memRead s.pix i

/-- R128: after a successful ENCODE alpha and every bit other than the three channel LSBs are the source's. -/
def Obligations.EncodePreservesAlphaAndUpperBits : Prop :=
  ∀ s t : State, Inv s → Running s → exec .encode s = .next t → t.err = 0#4 → ∀ i < s.op.pixels,
    memRead t.pix (s.op.dst.toNat + i) &&& 0xFFFEFEFE#32 = memRead s.pix (s.op.src.toNat + i) &&& 0xFFFEFEFE#32 ∧
    (memRead t.pix (s.op.dst.toNat + i)).extractLsb' 24 8 = (memRead s.pix (s.op.src.toNat + i)).extractLsb' 24 8

/-- R130: after a successful ENCODE every pixel from index ceil(w/3) on is the source's; in the last pixel used, green
and blue are the source's if w mod 3 = 1, blue is if w mod 3 = 2, and the lanes below hold stream bits. -/
def Obligations.EncodeLeavesTheTailUnmodified : Prop :=
  ∀ s t : State, Inv s → Running s → exec .encode s = .next t → t.err = 0#4 →
    (∀ i, (s.op.slotsWritten + 2) / 3 ≤ i → i < s.op.pixels →
      memRead t.pix (s.op.dst.toNat + i) = memRead s.pix (s.op.src.toNat + i)) ∧
    (0 < s.op.slotsWritten → ∀ i, i = (s.op.slotsWritten - 1) / 3 →
      getLsb (chan (memRead t.pix (s.op.dst.toNat + i)) .red) = streamBit s.payload (3 * i) ∧
      (s.op.slotsWritten % 3 = 1 →
        chan (memRead t.pix (s.op.dst.toNat + i)) .green = chan (memRead s.pix (s.op.src.toNat + i)) .green) ∧
      (s.op.slotsWritten % 3 ≠ 1 →
        getLsb (chan (memRead t.pix (s.op.dst.toNat + i)) .green) = streamBit s.payload (3 * i + 1)) ∧
      (s.op.slotsWritten % 3 ≠ 0 →
        chan (memRead t.pix (s.op.dst.toNat + i)) .blue = chan (memRead s.pix (s.op.src.toNat + i)) .blue) ∧
      (s.op.slotsWritten % 3 = 0 →
        getLsb (chan (memRead t.pix (s.op.dst.toNat + i)) .blue) = streamBit s.payload (3 * i + 2)))

/-- R131, R132: an ENCODE whose checks pass on an image with L < N still completes with ERR = 0, writes exactly
`S[0..L)` and reports RESULT = L; with L = N every slot holds a stream bit and RESULT = N. -/
def Obligations.EncodeTruncatesSilentlyAndFillsExactly : Prop :=
  ∀ s : State, Inv s → Running s → EncodeChecksPass s →
    ∃ t, exec .encode s = .next t ∧ t.err = 0#4 ∧
      (s.op.slots < s.op.streamLen → t.result.toNat = s.op.slots ∧ t.result.toNat < 8 * s.op.len.toNat + 8) ∧
      (s.op.slots = s.op.streamLen → t.result.toNat = s.op.streamLen) ∧
      (s.op.slots ≤ s.op.streamLen → ∀ k < s.op.slots,
        slotBit t.pix s.op.dst.toNat k = (expand s.payload).getD k false)

/-- R133: ENCODE's ERR, RESULT and destination words depend only on the latched operands, the source words and the
payload bytes (and on the sizes of the two spaces, which the hardware fixes). -/
def Obligations.EncodeDependsOnlyOnItsInputs : Prop :=
  ∀ s s' t t' : State, Inv s → Inv s' → Running s → Running s' → s'.op = s.op → SameSizes s s' →
    (∀ i < s.op.pixels, memRead s'.pix (s.op.src.toNat + i) = memRead s.pix (s.op.src.toNat + i)) →
    (∀ i < s.op.payloadLen, memRead s'.bytes (s.op.pay.toNat + i) = memRead s.bytes (s.op.pay.toNat + i)) →
    exec .encode s = .next t → exec .encode s' = .next t' →
    t'.err = t.err ∧ t'.result = t.result ∧
      (t.err = 0#4 → ∀ i < s.op.pixels,
        memRead t'.pix (s.op.dst.toNat + i) = memRead t.pix (s.op.dst.toNat + i))

/-! ### DECODE -/

/-- R160: let `k` be the least index with `7 <= k < 8*G` at which 8 zero bits end. If it exists, DECODE succeeds with
RESULT = k div 8 and the bytes of groups 0 to (k div 8) - 1 at OUT (or reports ADDRESS_RANGE if they do not fit); if it
does not exist, DECODE ends with NO_STOP_MARKER and writes nothing. `Inv` gives the canonical form. -/
def Obligations.DecodeReturnsTheGroupsBeforeTheFirstZeroRun : Prop :=
  ∀ s : State, Inv s → Running s → s.fitsPix s.op.src.toNat s.op.pixels = true →
    (∀ k, FirstStop (slotBit s.pix s.op.src.toNat) (8 * (s.op.slots / 8)) k →
      (s.fitsByte s.op.out.toNat (k / 8) = true →
        ∃ t, exec .decode s = .next t ∧ Completed t ∧ t.err = 0#4 ∧ t.result.toNat = k / 8 ∧
          HoldsGroups t.bytes s.op.out.toNat (slotBit s.pix s.op.src.toNat) (k / 8)) ∧
      (s.fitsByte s.op.out.toNat (k / 8) = false →
        ∃ t, exec .decode s = .next t ∧ Completed t ∧ t.err = 4#4 ∧ t.result = 0#64 ∧ t.bytes = s.bytes)) ∧
    ((∀ k, ¬FirstStop (slotBit s.pix s.op.src.toNat) (8 * (s.op.slots / 8)) k) →
      ∃ t, exec .decode s = .next t ∧ Completed t ∧ t.err = 2#4 ∧ t.result = 0#64 ∧ t.bytes = s.bytes)

/-- DECODE's frame: the host's registers, the sizes, the schedule, the host's data and all of pixel space stay; byte
space stays outside the RESULT bytes from OUT up, and everywhere if DECODE reports an error (R69, R159). -/
def Obligations.DecodeLeavesEverythingElseAlone : Prop :=
  ∀ s : State, Inv s → Running s → ∃ t, exec .decode s = .next t ∧ Completed t ∧ SameHostRegisters s t ∧
    SameSizes s t ∧ t.script = s.script ∧ SameHostReads s t ∧ t.others = s.others ∧ t.pix = s.pix ∧
    ∀ a, t.err ≠ 0#4 ∨ ¬(s.op.out.toNat ≤ a ∧ a < s.op.out.toNat + t.result.toNat) →
      memRead t.bytes a = memRead s.bytes a

/-- R166: when the stop falls in group 0, DECODE is a success with RESULT = 0 and no byte written. -/
def Obligations.StopInTheFirstGroupIsAnEmptySuccess : Prop :=
  ∀ (s : State) (k : Nat), Inv s → Running s → s.fitsPix s.op.src.toNat s.op.pixels = true →
    FirstStop (slotBit s.pix s.op.src.toNat) (8 * (s.op.slots / 8)) k → k ≤ 7 →
    ∃ t, exec .decode s = .next t ∧ Completed t ∧ t.err = 0#4 ∧ t.result = 0#64 ∧ SameMemories s t

/-- R167: DECODE's ERR, RESULT and output bytes depend only on the latched operands and the source words (and on the
sizes of the two spaces, which the hardware fixes). -/
def Obligations.DecodeDependsOnlyOnItsInputs : Prop :=
  ∀ s s' t t' : State, Inv s → Inv s' → Running s → Running s' → s'.op = s.op → SameSizes s s' →
    (∀ i < s.op.pixels, memRead s'.pix (s.op.src.toNat + i) = memRead s.pix (s.op.src.toNat + i)) →
    exec .decode s = .next t → exec .decode s' = .next t' →
    t'.err = t.err ∧ t'.result = t.result ∧
      (t.err = 0#4 → ∀ i < t.result.toNat,
        memRead t'.bytes (s.op.out.toNat + i) = memRead t.bytes (s.op.out.toNat + i))

/-! ### ENCODE then DECODE -/

/-- R161: a DECODE of the image that a successful ENCODE wrote, with the same WIDTH and HEIGHT, L >= N, and data bits
that hold no run of 8 zero bits, returns exactly the payload; and that condition on the data bits is: no byte is 0x00
and `clz8(P[i]) + ctz8(P[i+1]) < 8` for every pair of neighbours. The output region holds n bytes. -/
def Obligations.EncodeThenDecodeReturnsThePayload : Prop :=
  (∀ s t d : State, Inv s → Running s → exec .encode s = .next t → t.err = 0#4 →
    Inv d → DecodesImageOf s t d → d.fitsByte d.op.out.toNat s.op.payloadLen = true →
    s.op.streamLen ≤ s.op.slots → NoZeroRun s.payload →
    ∃ u, exec .decode d = .next u ∧ Completed u ∧ u.err = 0#4 ∧ u.result.toNat = s.op.payloadLen ∧
      readRange u.bytes d.op.out.toNat s.op.payloadLen = s.payload) ∧
  ∀ P : List Byte, NoZeroRun P ↔
    (∀ b ∈ P, b ≠ 0x00#8) ∧ ∀ i, i + 1 < P.length → clz8 (P.getD i 0#8) + ctz8 (P.getD (i + 1) 0#8) < 8

/-- R162: in the same setting, if the data bits hold a run of 8 zero bits whose first end is `k < 8n`, DECODE returns
the first `k div 8` bytes of the payload, fewer than n. -/
def Obligations.ZeroRunInThePayloadTruncatesTheDecode : Prop :=
  ∀ (s t d : State) (k : Nat), Inv s → Running s → exec .encode s = .next t → t.err = 0#4 →
    Inv d → DecodesImageOf s t d → s.op.streamLen ≤ s.op.slots →
    FirstStop (streamBit s.payload) (8 * s.op.payloadLen) k → d.fitsByte d.op.out.toNat (k / 8) = true →
    ∃ u, exec .decode d = .next u ∧ Completed u ∧ u.err = 0#4 ∧ u.result.toNat = k / 8 ∧
      k / 8 < s.op.payloadLen ∧ readRange u.bytes d.op.out.toNat (k / 8) = s.payload.take (k / 8)

/-- R163: a DECODE of the image of any successful ENCODE ends in one of three ways: the payload itself, only when L >= N
and the data bits hold no run of 8 zeros; a proper initial part of it; or NO_STOP_MARKER, only when L < N. Which of them,
and how long the part is, depends only on the payload and L. The output region holds n bytes. -/
def Obligations.DecodeOfAnEncodedImageIsNeverGarbage : Prop :=
  (∀ s t d u : State, Inv s → Running s → exec .encode s = .next t → t.err = 0#4 →
    Inv d → DecodesImageOf s t d → d.fitsByte d.op.out.toNat s.op.payloadLen = true → exec .decode d = .next u →
    (u.err = 0#4 ∧ u.result.toNat = s.op.payloadLen ∧ s.op.streamLen ≤ s.op.slots ∧ NoZeroRun s.payload ∧
      readRange u.bytes d.op.out.toNat s.op.payloadLen = s.payload) ∨
    (u.err = 0#4 ∧ u.result.toNat < s.op.payloadLen ∧
      readRange u.bytes d.op.out.toNat u.result.toNat = s.payload.take u.result.toNat) ∨
    (u.err = 2#4 ∧ u.result = 0#64 ∧ s.op.slots < s.op.streamLen)) ∧
  ∀ s t d u s' t' d' u' : State,
    Inv s → Running s → exec .encode s = .next t → t.err = 0#4 → Inv d → DecodesImageOf s t d →
    d.fitsByte d.op.out.toNat s.op.payloadLen = true → exec .decode d = .next u →
    Inv s' → Running s' → exec .encode s' = .next t' → t'.err = 0#4 → Inv d' → DecodesImageOf s' t' d' →
    d'.fitsByte d'.op.out.toNat s'.op.payloadLen = true → exec .decode d' = .next u' →
    s'.payload = s.payload → s'.op.slots = s.op.slots → u'.err = u.err ∧ u'.result = u.result

/-- R164: one bit beyond capacity, N = L + 1, the sentinel group is not scanned, so a DECODE of the image ends with
NO_STOP_MARKER unless the data bits hold a run of 8 zeros; at exact fill, L = N, group n is the last group scanned. -/
def Obligations.OneBitBeyondCapacityLosesTheSentinel : Prop :=
  (∀ s t d : State, Inv s → Running s → exec .encode s = .next t → t.err = 0#4 →
    Inv d → DecodesImageOf s t d → s.op.streamLen = s.op.slots + 1 → NoZeroRun s.payload →
    ∃ u, exec .decode d = .next u ∧ Completed u ∧ u.err = 2#4 ∧ u.result = 0#64 ∧ SameMemories d u) ∧
  ∀ o : Operands, (o.slots = o.streamLen → o.groups = o.payloadLen + 1) ∧
    (o.streamLen = o.slots + 1 → o.groups = o.payloadLen)

/-! ### CAPACITY and the reserved code -/

/-- R190: CAPACITY completes with ERR = 0 and RESULT = 3 * W * H, exact and below 2^34; it accesses no memory and
changes none of the host's registers. -/
def Obligations.CapacityReturnsTheSlotCount : Prop :=
  ∀ s : State, ∃ t, exec .capacity s = .next t ∧ Completed t ∧ t.err = 0#4 ∧
    t.result.toNat = 3 * s.op.w.toNat * s.op.h.toNat ∧ t.result.toNat < 2 ^ 34 ∧ t.pix = s.pix ∧ t.bytes = s.bytes ∧
    SameHostRegisters s t ∧ SameSizes s t ∧ t.script = s.script ∧ SameHostReads s t ∧ t.others = s.others

/-- R191: for an ENCODE whose checks pass, the whole stream is written exactly when 8*PAY_LEN + 8 is at most what
CAPACITY returns for the same WIDTH and HEIGHT. -/
def Obligations.CapacityTellsWhetherAPayloadFits : Prop :=
  ∀ s t c c' : State, Inv s → Running s → EncodeChecksPass s → exec .encode s = .next t →
    c.op.w = s.op.w → c.op.h = s.op.h → exec .capacity c = .next c' →
    (t.result.toNat = 8 * s.op.len.toNat + 8 ↔ 8 * s.op.len.toNat + 8 ≤ c'.result.toNat)

/-- The completion of the reserved command: ILLEGAL_OP (code 3), RESULT = 0, and nothing else changes (R96, R203, R220). -/
def Obligations.ReservedCommandCompletesWithIllegalOp : Prop :=
  ∀ s : State, ∃ t, exec .reservedOp3 s = .next t ∧ Completed t ∧ t.err = 3#4 ∧ t.result = 0#64 ∧ t.pix = s.pix ∧
    t.bytes = s.bytes ∧ SameHostRegisters s t ∧ SameSizes s t ∧ t.script = s.script ∧ SameHostReads s t ∧ t.others = s.others

/-- R96: a START with OP = 3 is accepted like any other and completes with ILLEGAL_OP, RESULT = 0 and no memory access,
whatever bits 31:4 are; those bits read 0; and every 32-bit value is one of the four commands or no command. -/
def Obligations.StartOfTheReservedCodeIsAcceptedAndReported : Prop :=
  (∀ (s : State) (w : Word) (rest : List Move), s.script = .regWrite 32 0x00 w :: .complete :: rest →
    s.busy = false → w.extractLsb' 0 3 = 0b111#3 →
    ∃ t u, step s = .next t ∧ t.busy = true ∧ step t = .next u ∧ u.err = 3#4 ∧ u.result = 0#64 ∧ u.pix = s.pix ∧
      u.bytes = s.bytes ∧ Completed u) ∧
  (∀ (s : State) (k : Nat), 4 ≤ k → s.ctrlWord.getLsbD k = false) ∧
  ∀ w : Word, decode w = .error .notACommand ∨
    ∃ i, decode w = .ok i ∧ ∀ j, decode w = .ok j → j = i

/-! ### Errors and completion -/

/-- R221: a command reports the first code whose condition holds, in the order of the table. -/
def Obligations.ErrorsFollowTheOrderOfTheChecks : Prop :=
  (∀ s : State, ∃ t, exec .reservedOp3 s = .next t ∧ t.err = 3#4) ∧
  (∀ s : State, ∃ t, exec .capacity s = .next t ∧ t.err = 0#4) ∧
  (∀ s : State, ∃ t, exec .encode s = .next t ∧ t.err =
    if s.op.len = 0#32 then 1#4
    else if s.fitsPix s.op.src.toNat s.op.pixels = false ∨ s.fitsPix s.op.dst.toNat s.op.pixels = false ∨
      s.fitsByte s.op.pay.toNat s.op.payloadLen = false then 4#4
    else if overlapPix s.op.src.toNat s.op.dst.toNat s.op.pixels = true then 5#4
    else 0#4) ∧
  ∀ s : State, Running s → ∃ t, exec .decode s = .next t ∧
    (s.fitsPix s.op.src.toNat s.op.pixels = false → t.err = 4#4) ∧
    (s.fitsPix s.op.src.toNat s.op.pixels = true →
      ((∀ k, ¬FirstStop (slotBit s.pix s.op.src.toNat) (8 * s.op.groups) k) → t.err = 2#4) ∧
      ∀ k, FirstStop (slotBit s.pix s.op.src.toNat) (8 * s.op.groups) k →
        t.err = if s.fitsByte s.op.out.toNat (k / 8) = false then 4#4 else 0#4)

/-- R222: a command that ends with ERR != 0 has written neither memory, and RESULT = 0, in a clash too. `Inv` gives the
canonical form. -/
def Obligations.ErroringCommandsWriteNothing : Prop :=
  (∀ (i : Instr) (s t : State), exec i s = .next t → t.err ≠ 0#4 →
    t.pix = s.pix ∧ t.bytes = s.bytes ∧ t.result = 0#64) ∧
  ∀ s t : State, Inv s → s.busy = true → completeCommand (instrOfOp s.op.op) s = .next t → t.err ≠ 0#4 →
    SameMemories s t ∧ t.result = 0#64

/-- The completion step of a running command always answers: BUSY falls, DONE rises, ERR is a code of R220, and the host's
registers, the sizes, the schedule, the host's data and the other instances stay (R203, R225), in a clash too (R233). -/
def Obligations.CompletionEndsEveryCommand : Prop :=
  (∀ (i : Instr) (s : State), ∃ t, exec i s = .next t ∧ Completed t ∧ t.err.toNat ≤ 5 ∧ SameHostRegisters s t ∧
    SameSizes s t ∧ t.script = s.script ∧ SameHostReads s t ∧ t.others = s.others) ∧
  ∀ (i : Instr) (s : State), ∃ t, completeCommand i s = .next t ∧ Completed t ∧ t.err.toNat ≤ 5 ∧
    SameHostRegisters s t ∧ SameSizes s t ∧ t.script = s.script ∧ SameHostReads s t ∧
    t.others.map Instance.own = s.others.map Instance.own
end

