-- ==== Sys2Proof/Laws/Channels.lean ====
section
/-! SUPPORT. What the channel helpers and the mux do to each bit (spec/42_channel_helpers.md R182, spec/40_encoder.md
R126). -/

namespace Sys2Proof.Machine

theorem setLsb_getLsbD (v : Byte) (b : Bool) (k : Nat) :
    (setLsb v b).getLsbD k = if k = 0 then b else v.getLsbD k := by
  unfold setLsb
  rcases Nat.lt_or_ge k 8 with hk | hk
  · cases b <;> interval_cases k <;> simp
  · have : k ≠ 0 := by omega
    cases b <;> simp [BitVec.getLsbD_of_ge _ _ hk, this]

theorem getLsb_eq (v : Byte) : getLsb v = v.getLsbD 0 := by
  unfold getLsb
  revert v
  decide

theorem chan_getLsbD (v : Word) (l : Lane) (k : Nat) :
    (chan v l).getLsbD k = (decide (k < 8) && v.getLsbD (lanePos l + k)) := by
  simp [chan, BitVec.getLsbD_extractLsb']

theorem getLsb_chan (v : Word) (l : Lane) : getLsb (chan v l) = v.getLsbD (lanePos l) := by
  rw [getLsb_eq, chan_getLsbD]
  simp

theorem setChan_getLsbD (v : Word) (l : Lane) (c : Byte) (k : Nat) :
    (setChan v l c).getLsbD k =
      if lanePos l ≤ k ∧ k < lanePos l + 8 then c.getLsbD (k - lanePos l) else v.getLsbD k := by
  rcases Nat.lt_or_ge k 32 with hk | hk
  · unfold setChan lanePos
    cases l <;> interval_cases k <;> simp
  · have : ¬(lanePos l ≤ k ∧ k < lanePos l + 8) := by cases l <;> simp [lanePos] <;> omega
    rw [if_neg this]
    simp [BitVec.getLsbD_of_ge _ _ hk]

/-- Embedding replaces the lane's LSB and keeps the other 31 bits. -/
theorem embed_getLsbD (v : Word) (l : Lane) (b : Bool) (k : Nat) :
    (embed v l b).getLsbD k = if k = lanePos l then b else v.getLsbD k := by
  rw [embed, setChan_getLsbD, setLsb_getLsbD, chan_getLsbD]
  by_cases hk : k = lanePos l
  · subst hk; simp
  · rw [if_neg hk]
    split
    · next h =>
      have h1 : k - lanePos l ≠ 0 := by omega
      have h2 : k - lanePos l < 8 := by omega
      have h3 : lanePos l + (k - lanePos l) = k := by omega
      simp [h1, h2, h3]
    · rfl

/-- The lane of slot `3 * i + l` is the `l`th, and its pixel is `i`. -/
theorem slotPixel_add (i l : Nat) (h : l < 3) : slotPixel (3 * i + l) = i := by
  unfold slotPixel
  omega

theorem slotLane_red (i : Nat) : slotLane (3 * i) = .red := by simp [slotLane]

theorem slotLane_green (i : Nat) : slotLane (3 * i + 1) = .green := by
  have h : (3 * i + 1) % 3 = 1 := by omega
  simp [slotLane, h]

theorem slotLane_blue (i : Nat) : slotLane (3 * i + 2) = .blue := by
  have h : (3 * i + 2) % 3 = 2 := by omega
  simp [slotLane, h]

theorem laneBits_length (v : Word) : (laneBits v).length = 3 := rfl

end Sys2Proof.Machine
end

