-- ==== Sys2Proof/Laws/Memory.lean ====
section
/-! SUPPORT. What the memory operations do, location by location, and that each keeps the canonical form. -/

namespace Sys2Proof.Machine

variable {w : Nat}

@[simp] theorem memRead_nil (a : Nat) : memRead ([] : Memory w) a = unlistedValue w := rfl

theorem memRead_cons (k : Nat) (x : BitVec w) (m : Memory w) (a : Nat) :
    memRead ((k, x) :: m) a = if k = a then x else memRead m a := rfl

/-- A location below every listed one reads as an unlisted location. -/
theorem memRead_of_lt (m : Memory w) (a : Nat) (h : ∀ p ∈ m, a < p.1) : memRead m a = unlistedValue w := by
  induction m with
  | nil => rfl
  | cons p m ih =>
    obtain ⟨k, x⟩ := p
    have hk : a < k := h (k, x) (by simp)
    rw [memRead_cons, if_neg (by omega)]
    exact ih fun q hq => h q (List.mem_cons_of_mem _ hq)

theorem Memory.wf.tail {k : Nat} {x : BitVec w} {m : Memory w} (h : Memory.wf ((k, x) :: m)) : Memory.wf m :=
  ⟨h.1.tail, fun p hp => h.2 p (List.mem_cons_of_mem _ hp)⟩

theorem Memory.wf.lt {k : Nat} {x : BitVec w} {m : Memory w} (h : Memory.wf ((k, x) :: m)) : ∀ p ∈ m, k < p.1 :=
  (List.pairwise_cons.mp h.1).1

theorem memRead_memCons (a : Nat) (v : BitVec w) (m : Memory w) (h : ∀ p ∈ m, a < p.1) (b : Nat) :
    memRead (memCons a v m) b = if b = a then v else memRead m b := by
  unfold memCons
  split
  · split
    · next hv hb => rw [hb, hv]; exact memRead_of_lt m a h
    · rfl
  · rw [memRead_cons]
    simp only [eq_comm]

/-- Reading after a write: the value written there, and what was there before elsewhere. -/
theorem memRead_memWrite (m : Memory w) (h : Memory.wf m) (a : Nat) (v : BitVec w) (b : Nat) :
    memRead (memWrite m a v) b = if b = a then v else memRead m b := by
  induction m with
  | nil => exact memRead_memCons a v [] (by simp) b
  | cons p m ih =>
    obtain ⟨k, x⟩ := p
    have hlt := h.lt
    unfold memWrite
    split
    · next hak =>
      refine memRead_memCons a v _ ?_ b
      intro q hq
      rcases List.mem_cons.mp hq with rfl | hq
      · exact hak
      · exact hak.trans (hlt q hq)
    · split
      · next _ hak =>
        subst hak
        rw [memRead_memCons a v m hlt, memRead_cons]
        by_cases hb : b = a
        · simp [hb]
        · simp [hb, Ne.symm hb]
      · next hlt' hne =>
        rw [memRead_cons, memRead_cons, ih h.tail]
        by_cases hb : b = a
        · have hk : k ≠ b := by omega
          rw [if_neg hk, if_neg hk]
        · simp [hb]

theorem mem_memCons {a : Nat} {v : BitVec w} {m : Memory w} {p : Nat × BitVec w} (h : p ∈ memCons a v m) :
    (p = (a, v) ∧ v ≠ unlistedValue w) ∨ p ∈ m := by
  unfold memCons at h
  split at h
  · exact .inr h
  · next hv => exact (List.mem_cons.mp h).imp (fun e => ⟨e, hv⟩) id

/-- An entry of a written memory is the write or an entry of before. -/
theorem mem_memWrite {m : Memory w} {a : Nat} {v : BitVec w} {p : Nat × BitVec w} (h : p ∈ memWrite m a v) :
    (p = (a, v) ∧ v ≠ unlistedValue w) ∨ p ∈ m := by
  induction m with
  | nil => exact mem_memCons h
  | cons q m ih =>
    obtain ⟨k, x⟩ := q
    unfold memWrite at h
    split at h
    · exact mem_memCons h
    · split at h
      · exact (mem_memCons h).imp_right (List.mem_cons_of_mem _)
      · rcases List.mem_cons.mp h with rfl | h
        · exact .inr (by simp)
        · exact (ih h).imp_right (List.mem_cons_of_mem _)

theorem memCons_wf (a : Nat) (v : BitVec w) (m : Memory w) (hm : Memory.wf m) (h : ∀ p ∈ m, a < p.1) :
    Memory.wf (memCons a v m) := by
  unfold memCons
  split
  · exact hm
  · next hv =>
    refine ⟨List.pairwise_cons.mpr ⟨h, hm.1⟩, fun p hp => ?_⟩
    rcases List.mem_cons.mp hp with rfl | hp
    · exact hv
    · exact hm.2 p hp

/-- A write keeps the canonical form. -/
theorem memWrite_wf (m : Memory w) (h : Memory.wf m) (a : Nat) (v : BitVec w) : Memory.wf (memWrite m a v) := by
  induction m with
  | nil => exact memCons_wf a v [] h (by simp)
  | cons p m ih =>
    obtain ⟨k, x⟩ := p
    unfold memWrite
    split
    · next hak =>
      refine memCons_wf a v _ h fun q hq => ?_
      rcases List.mem_cons.mp hq with rfl | hq
      · exact hak
      · exact hak.trans (h.lt q hq)
    · split
      · next _ hak => exact memCons_wf a v m h.tail (hak ▸ h.lt)
      · next hlt hne =>
        refine ⟨List.pairwise_cons.mpr ⟨fun q hq => ?_, (ih h.tail).1⟩, fun q hq => ?_⟩
        · rcases mem_memWrite hq with ⟨rfl, _⟩ | hq
          · show k < a
            omega
          · exact h.lt q hq
        · rcases List.mem_cons.mp hq with rfl | hq
          · exact h.2 _ (by simp)
          · exact (ih h.tail).2 q hq

/-- A write below the size of the space keeps the memory inside it. -/
theorem memWrite_within {size : Nat} (m : Memory w) (h : Memory.within size m) (a : Nat) (v : BitVec w)
    (ha : a < size) : Memory.within size (memWrite m a v) := by
  intro p hp
  rcases mem_memWrite hp with ⟨rfl, _⟩ | hp
  · exact ha
  · exact h p hp

@[simp] theorem readRange_length (m : Memory w) (base n : Nat) : (readRange m base n).length = n := by
  induction n generalizing base with
  | zero => rfl
  | succ n ih => simp [readRange, ih]

theorem readRange_getElem (m : Memory w) (base n i : Nat) (h : i < (readRange m base n).length) :
    (readRange m base n)[i] = memRead m (base + i) := by
  induction n generalizing base i with
  | zero => simp at h
  | succ n ih =>
    cases i with
    | zero => simp [readRange]
    | succ i =>
      simp only [readRange, List.getElem_cons_succ]
      rw [ih (base + 1) i (by simpa [readRange] using h)]
      congr 1; omega

theorem readRange_getD (m : Memory w) (base n i : Nat) (h : i < n) (d : BitVec w) :
    (readRange m base n).getD i d = memRead m (base + i) := by
  rw [List.getD_eq_getElem _ _ (by simpa using h), readRange_getElem]

/-- Reading the same values gives the same list. -/
theorem readRange_congr (m m' : Memory w) (a b n : Nat) (h : ∀ i < n, memRead m' (b + i) = memRead m (a + i)) :
    readRange m' b n = readRange m a n := by
  refine List.ext_getElem (by simp) fun i h₁ h₂ => ?_
  rw [readRange_getElem, readRange_getElem]
  exact h i (by simpa using h₁)

/-- Writing a list of values keeps the canonical form. -/
theorem writeRange_wf (m : Memory w) (h : Memory.wf m) (base : Nat) (vs : List (BitVec w)) :
    Memory.wf (writeRange m base vs) := by
  induction vs generalizing m base with
  | nil => exact h
  | cons v vs ih => exact ih _ (memWrite_wf m h base v) _

theorem writeRange_within {size : Nat} (m : Memory w) (h : Memory.within size m) (base : Nat) (vs : List (BitVec w))
    (hfit : vs = [] ∨ base + vs.length ≤ size) : Memory.within size (writeRange m base vs) := by
  induction vs generalizing m base with
  | nil => exact h
  | cons v vs ih =>
    have hb : base + (vs.length + 1) ≤ size := by simpa using hfit
    exact ih _ (memWrite_within m h base v (by omega)) _ (.inr (by omega))

/-- Every location after writing a list of values: the value of its own inside, what was there before outside. -/
theorem memRead_writeRange (m : Memory w) (h : Memory.wf m) (base : Nat) (vs : List (BitVec w)) (a : Nat) :
    memRead (writeRange m base vs) a =
      if base ≤ a ∧ a < base + vs.length then vs.getD (a - base) 0 else memRead m a := by
  induction vs generalizing m base with
  | nil => simp [writeRange]
  | cons v vs ih =>
    rw [writeRange, ih _ (memWrite_wf m h base v), memRead_memWrite m h]
    simp only [List.length_cons]
    by_cases hab : a = base
    · subst hab
      simp
    · by_cases hin : base ≤ a ∧ a < base + (vs.length + 1)
      · rw [if_pos (by omega), if_pos hin]
        have : a - base = (a - (base + 1)) + 1 := by omega
        rw [this]; simp
      · rw [if_neg (by omega), if_neg hin, if_neg hab]

theorem memRead_writeRange_inside (m : Memory w) (h : Memory.wf m) (base : Nat) (vs : List (BitVec w)) (i : Nat)
    (hi : i < vs.length) : memRead (writeRange m base vs) (base + i) = vs.getD i 0 := by
  rw [memRead_writeRange m h, if_pos (by omega)]
  congr 1; omega

theorem memRead_writeRange_outside (m : Memory w) (h : Memory.wf m) (base : Nat) (vs : List (BitVec w)) (a : Nat)
    (ha : ¬(base ≤ a ∧ a < base + vs.length)) : memRead (writeRange m base vs) a = memRead m a := by
  rw [memRead_writeRange m h, if_neg ha]

/-- Writing the picked locations of a range keeps the canonical form. -/
theorem overlayRange_wf (p : Nat → Bool) (v : Nat → BitVec w) (m : Memory w) (h : Memory.wf m) (base n : Nat) :
    Memory.wf (overlayRange p v m base n) := by
  induction n generalizing m base with
  | zero => exact h
  | succ n ih =>
    rw [overlayRange]
    refine ih _ ?_ _
    split
    · exact memWrite_wf m h base _
    · exact h

theorem overlayRange_within {size : Nat} (p : Nat → Bool) (v : Nat → BitVec w) (m : Memory w)
    (h : Memory.within size m) (hp : ∀ a, p a = true → a < size) (base n : Nat) :
    Memory.within size (overlayRange p v m base n) := by
  induction n generalizing m base with
  | zero => exact h
  | succ n ih =>
    rw [overlayRange]
    refine ih _ ?_ _
    split
    · next hb => exact memWrite_within m h base _ (hp base hb)
    · exact h

/-- Every location after writing the picked locations of a range: the new value if it was picked, what was there before
elsewhere. -/
theorem memRead_overlayRange (p : Nat → Bool) (v : Nat → BitVec w) (m : Memory w) (h : Memory.wf m) (base n a : Nat) :
    memRead (overlayRange p v m base n) a =
      if base ≤ a ∧ a < base + n ∧ p a = true then v a else memRead m a := by
  induction n generalizing m base with
  | zero => rw [overlayRange, if_neg (by omega)]
  | succ n ih =>
    have hm : Memory.wf (if p base then memWrite m base (v base) else m) := by
      split
      · exact memWrite_wf m h base _
      · exact h
    rw [overlayRange, ih _ hm]
    by_cases hab : a = base
    · subst hab
      rw [if_neg (by omega)]
      by_cases hp : p a = true
      · rw [if_pos hp, if_pos ⟨Nat.le_refl a, by omega, hp⟩, memRead_memWrite m h, if_pos rfl]
      · rw [if_neg hp, if_neg (by simp [hp])]
    · have hne : memRead (if p base then memWrite m base (v base) else m) a = memRead m a := by
        split
        · rw [memRead_memWrite m h, if_neg hab]
        · rfl
      rw [hne]
      refine if_congr ⟨fun hc => ⟨by omega, by omega, hc.2.2⟩, fun hc => ⟨by omega, by omega, hc.2.2⟩⟩ rfl rfl

/-- Draws keep the canonical form. -/
theorem drawRange_wf (free : Nat → BitVec w) (size : Nat) (p : Nat → Bool) (m : Memory w) (h : Memory.wf m)
    (base d n : Nat) : Memory.wf (drawRange free size p m base d n) := overlayRange_wf _ _ m h base n

theorem drawRange_within (free : Nat → BitVec w) (size : Nat) (p : Nat → Bool) (m : Memory w)
    (h : Memory.within size m) (base d n : Nat) : Memory.within size (drawRange free size p m base d n) :=
  overlayRange_within _ _ m h (fun a ha => by simpa using (Bool.and_eq_true_iff.mp ha).1) base n

/-- Every location after a range of draws: the draw of its own if it lies in the range and the space and was picked, what
was there before elsewhere. -/
theorem memRead_drawRange (free : Nat → BitVec w) (size : Nat) (p : Nat → Bool) (m : Memory w) (h : Memory.wf m)
    (base d n a : Nat) :
    memRead (drawRange free size p m base d n) a =
      if base ≤ a ∧ a < base + n ∧ a < size ∧ p a = true then free (d + (a - base)) else memRead m a := by
  rw [drawRange, memRead_overlayRange _ _ m h]
  simp only [Bool.and_eq_true, decide_eq_true_eq]

end Sys2Proof.Machine
end

