-- ==== Sys2Proof/Laws/Decoder.lean ====
section
/-! SUPPORT. The decode bit stream slot by slot (spec/41_decoder.md R150, R151) and what the scan of the sentinel_detector
and the bitstream_decoder leaves (R152 to R158, R160). -/

namespace Sys2Proof.Machine

/-! ### The decode bit stream -/

theorem flatMap_laneBits_length (ws : List Word) : (ws.flatMap laneBits).length = 3 * ws.length := by
  induction ws with
  | nil => rfl
  | cons v ws ih => rw [List.flatMap_cons, List.length_append, ih, laneBits_length, List.length_cons]; omega

theorem flatMap_laneBits_getD (ws : List Word) (k : Nat) (hk : k < 3 * ws.length) :
    (ws.flatMap laneBits).getD k false = (ws.getD (slotPixel k) 0).getLsbD (lanePos (slotLane k)) := by
  induction ws generalizing k with
  | nil => simp at hk
  | cons v ws ih =>
    rw [List.flatMap_cons]
    rcases Nat.lt_or_ge k 3 with h3 | h3
    · rw [List.getD_append _ _ _ _ (by simpa [laneBits_length] using h3)]
      interval_cases k <;> simp [laneBits, slotPixel, slotLane, getLsb_chan]
    · rw [List.getD_append_right _ _ _ _ (by simpa [laneBits_length] using h3), laneBits_length,
        ih (k - 3) (by simp only [List.length_cons] at hk; omega)]
      have h1 : slotPixel k = slotPixel (k - 3) + 1 := by unfold slotPixel; omega
      have h2 : slotLane k = slotLane (k - 3) := by
        have h : k % 3 = (k - 3) % 3 := by omega
        simp [slotLane, h]
      rw [h1, h2, List.getD_cons_succ]

/-- The decode bit stream has exactly L bits (R151). -/
theorem decodeBitStream_length (s : State) : s.decodeBitStream.length = s.op.slots := by
  rw [State.decodeBitStream, flatMap_laneBits_length, State.sourceWords, readRange_length, Operands.slots]

/-- Each bit of the decode bit stream is the bit in its slot of the source image (R150). -/
theorem decodeBitStream_getD (s : State) (k : Nat) (hk : k < s.op.slots) :
    s.decodeBitStream.getD k false = slotBit s.pix s.op.src.toNat k := by
  have hp : slotPixel k < s.op.pixels := by unfold slotPixel; unfold Operands.slots at hk; omega
  rw [State.decodeBitStream, flatMap_laneBits_getD _ _ (by simpa [State.sourceWords, Operands.slots] using hk),
    State.sourceWords, readRange_getD _ _ _ _ hp]
  rfl

theorem scannedBits_length (s : State) : s.scannedBits.length = 8 * s.op.groups := by
  rw [State.scannedBits, List.length_take, decodeBitStream_length]
  unfold Operands.groups
  omega

theorem scannedBits_getD (s : State) (k : Nat) (hk : k < 8 * s.op.groups) :
    s.scannedBits.getD k false = slotBit s.pix s.op.src.toNat k := by
  have hL : k < s.op.slots := by unfold Operands.groups at hk; omega
  rw [← decodeBitStream_getD s k hL, State.scannedBits, List.getD_eq_getElem?_getD, List.getD_eq_getElem?_getD,
    List.getElem?_take, if_pos hk]

/-! ### The scan -/

/-- The scan of `bits` has taken the bits below `k` and found no stop. -/
structure ScanState (bits : Nat → Bool) (k : Nat) (x : Internal) : Prop where
  bitPos : x.bitPos = k % 8
  count : x.count = k / 8
  length : x.completed.length = k / 8
  acc : ∀ j < 8, x.acc.getLsbD j = (decide (j < k % 8) && bits (8 * (k / 8) + j))
  completed : ∀ g < k / 8, ∀ j < 8, (x.completed.getD g 0).getLsbD j = bits (8 * g + j)
  zeroRun_lt : x.zeroRun < 8
  zeroRun_le : x.zeroRun ≤ k
  zeros : ∀ j < x.zeroRun, bits (k - 1 - j) = false
  one : x.zeroRun < k → bits (k - 1 - x.zeroRun) = true
  noStop : ∀ k' < k, ¬ZeroRunEndsAt bits k'

theorem ScanState.initial (bits : Nat → Bool) : ScanState bits 0 Internal.initial where
  bitPos := rfl
  count := rfl
  length := rfl
  acc := by simp [Internal.initial]
  completed := by simp
  zeroRun_lt := by simp [Internal.initial]
  zeroRun_le := by simp [Internal.initial]
  zeros := by simp [Internal.initial]
  one := by simp [Internal.initial]
  noStop := by simp

theorem accumulate_getLsbD (acc : Byte) (j : Nat) (b : Bool) (k : Nat) (hj : j < 8) (hk : k < 8) :
    (accumulate acc j b).getLsbD k = (acc.getLsbD k || (decide (k = j) && b)) := by
  unfold accumulate
  cases b
  · simp
  · interval_cases j <;> interval_cases k <;> simp

/-- The detector signals `stop` on bit `k` exactly when a run of 8 zero bits ends there. -/
theorem ScanState.stop_iff {bits : Nat → Bool} {k : Nat} {x : Internal} (h : ScanState bits k x) :
    detect x.zeroRun (bits k) = 8 ↔ ZeroRunEndsAt bits k := by
  have hlt := h.zeroRun_lt
  have hle := h.zeroRun_le
  unfold detect ZeroRunEndsAt
  constructor
  · intro hz
    split at hz
    · omega
    · next hb =>
      have h7 : x.zeroRun = 7 := by omega
      refine ⟨by omega, fun j hj => ?_⟩
      cases j with
      | zero => simpa using hb
      | succ j =>
        have := h.zeros j (by omega)
        rwa [show k - (j + 1) = k - 1 - j by omega]
  · rintro ⟨h7, hz⟩
    have hb : bits k = false := by simpa using hz 0 (by omega)
    rw [hb]
    simp only [Bool.false_eq_true, if_false]
    by_contra hne
    have h1 := h.one (by omega)
    have h2 := hz (x.zeroRun + 1) (by omega)
    rw [show k - (x.zeroRun + 1) = k - 1 - x.zeroRun by omega] at h2
    simp [h1] at h2

/-- The zero-run counter after a bit that does not stop the scan. -/
theorem ScanState.detect_next {bits : Nat → Bool} {k : Nat} {x : Internal} (h : ScanState bits k x)
    (hz : detect x.zeroRun (bits k) ≠ 8) :
    detect x.zeroRun (bits k) < 8 ∧ detect x.zeroRun (bits k) ≤ k + 1 ∧
      (∀ j < detect x.zeroRun (bits k), bits (k + 1 - 1 - j) = false) ∧
      (detect x.zeroRun (bits k) < k + 1 → bits (k + 1 - 1 - detect x.zeroRun (bits k)) = true) := by
  have hlt := h.zeroRun_lt
  have hle := h.zeroRun_le
  unfold detect at hz ⊢
  split
  · next hb => exact ⟨by omega, by omega, by simp, fun _ => by simpa using hb⟩
  · next hb =>
    rw [if_neg hb] at hz
    refine ⟨by omega, by omega, fun j hj => ?_, fun hk => ?_⟩
    · cases j with
      | zero => simpa using hb
      | succ j =>
        have := h.zeros j (by omega)
        rwa [show k + 1 - 1 - (j + 1) = k - 1 - j by omega]
    · have := h.one (by omega)
      rwa [show k + 1 - 1 - (x.zeroRun + 1) = k - 1 - x.zeroRun by omega]

/-- A bit that does not stop the scan. -/
theorem ScanState.next {bits : Nat → Bool} {k : Nat} {x : Internal} (h : ScanState bits k x)
    (hz : detect x.zeroRun (bits k) ≠ 8) : ScanState bits (k + 1) (scanBit x (bits k)) := by
  obtain ⟨z1, z2, z3, z4⟩ := h.detect_next hz
  have hno : ∀ k' < k + 1, ¬ZeroRunEndsAt bits k' := by
    intro k' hk'
    rcases Nat.lt_succ_iff_lt_or_eq.mp hk' with hlt | rfl
    · exact h.noStop k' hlt
    · exact fun he => hz (h.stop_iff.mpr he)
  have hpos := h.bitPos
  have hcnt := h.count
  have hlen := h.length
  have hacc : ∀ j < 8, (accumulate x.acc x.bitPos (bits k)).getLsbD j =
      (decide (j < k % 8 + 1) && bits (8 * (k / 8) + j)) := by
    intro j hj
    rw [accumulate_getLsbD _ _ _ _ (by omega) hj, h.acc j hj, hpos]
    rcases Nat.lt_trichotomy j (k % 8) with hlt | heq | hgt
    · have h1 : j ≠ k % 8 := by omega
      have h2 : j < k % 8 + 1 := by omega
      simp [hlt, h1, h2]
    · subst heq
      rw [show 8 * (k / 8) + k % 8 = k by omega]
      simp
    · have h1 : ¬ j < k % 8 := by omega
      have h2 : ¬ j < k % 8 + 1 := by omega
      have h3 : j ≠ k % 8 := by omega
      simp [h1, h2, h3]
  unfold scanBit
  simp only [if_neg hz]
  split
  · next h7 =>
    have hk7 : k % 8 = 7 := by omega
    have hd : (k + 1) / 8 = k / 8 + 1 := by omega
    have hm : (k + 1) % 8 = 0 := by omega
    refine ⟨by simp [hm], by simp only [hcnt, hd], by simp [hlen, hd], ?_, ?_, z1, z2, z3, z4, hno⟩
    · intro j hj
      simp [hm]
    · intro g hg j hj
      rcases Nat.lt_or_ge g (k / 8) with hlt | hge
      · rw [List.getD_append _ _ _ _ (by omega)]
        exact h.completed g hlt j hj
      · have hg' : g = k / 8 := by omega
        subst hg'
        rw [List.getD_append_right _ _ _ _ (by omega), hlen]
        have := hacc j hj
        have hj' : j < k % 8 + 1 := by omega
        simpa [hj'] using this
  · next h7 =>
    have hd : (k + 1) / 8 = k / 8 := by omega
    have hm : (k + 1) % 8 = k % 8 + 1 := by omega
    refine ⟨by simp only [hpos, hm], by simp only [hcnt, hd], by simp only [hlen, hd], ?_, ?_, z1, z2, z3, z4, hno⟩
    · intro j hj
      rw [hd, hm]
      exact hacc j hj
    · rw [hd]
      exact h.completed

/-- What the scan leaves when it has stopped on bit `k`. -/
structure StoppedAt (bits : Nat → Bool) (k : Nat) (y : Internal) : Prop where
  zeroRun : y.zeroRun = 8
  count : y.count = k / 8
  length : y.completed.length = k / 8
  completed : ∀ g < k / 8, ∀ j < 8, (y.completed.getD g 0).getLsbD j = bits (8 * g + j)

theorem ScanState.stop {bits : Nat → Bool} {k : Nat} {x : Internal} (h : ScanState bits k x)
    (hz : detect x.zeroRun (bits k) = 8) : StoppedAt bits k (scanBit x (bits k)) := by
  unfold scanBit
  simp only [hz, if_true]
  exact ⟨rfl, h.count, h.length, h.completed⟩

theorem scanBit_zeroRun (x : Internal) (b : Bool) : (scanBit x b).zeroRun = detect x.zeroRun b := by
  unfold scanBit
  simp only
  split_ifs <;> rfl

/-- The scan of the bits from `k` on: it stops at the first stop, or takes them all. -/
theorem scan_spec (bits : Nat → Bool) (rest : List Bool) (k : Nat) (x : Internal)
    (hr : ∀ i < rest.length, rest.getD i false = bits (k + i)) (h : ScanState bits k x) :
    (∃ k', FirstStop bits (k + rest.length) k' ∧ StoppedAt bits k' (scan rest x)) ∨
      ScanState bits (k + rest.length) (scan rest x) := by
  induction rest generalizing k x with
  | nil => exact .inr h
  | cons b rest ih =>
    have hb : b = bits k := by simpa using hr 0 (by simp)
    subst hb
    rw [scan, scanBit_zeroRun]
    by_cases hz : detect x.zeroRun (bits k) = 8
    · rw [if_pos hz]
      exact .inl ⟨k, ⟨by simp, h.stop_iff.mp hz, h.noStop⟩, h.stop hz⟩
    · rw [if_neg hz]
      have hih := ih (k + 1) (scanBit x (bits k))
        (fun i hi => by
          have := hr (i + 1) (by simpa using hi)
          rw [List.getD_cons_succ] at this
          rwa [show k + 1 + i = k + (i + 1) by omega])
        (h.next hz)
      rw [List.length_cons, show k + (rest.length + 1) = k + 1 + rest.length by omega]
      exact hih

/-- R160 for the scan of a running DECODE: it stops at the first run of 8 zero bits below `8 * G`, or finds none. -/
theorem decodeScan_spec (s : State) (hi : s.internal = Internal.initial) :
    (∃ k, FirstStop (slotBit s.pix s.op.src.toNat) (8 * s.op.groups) k ∧
        StoppedAt (slotBit s.pix s.op.src.toNat) k s.decodeScan) ∨
      ScanState (slotBit s.pix s.op.src.toNat) (8 * s.op.groups) s.decodeScan := by
  have h := scan_spec (slotBit s.pix s.op.src.toNat) s.scannedBits 0 s.internal
    (fun i h => by
      rw [scannedBits_length] at h
      rw [scannedBits_getD s i h, Nat.zero_add])
    (hi ▸ ScanState.initial _)
  rw [scannedBits_length, Nat.zero_add] at h
  exact h

theorem FirstStop.unique {bits : Nat → Bool} {n k k' : Nat} (h : FirstStop bits n k) (h' : FirstStop bits n k') :
    k = k' := by
  rcases Nat.lt_trichotomy k k' with hlt | heq | hgt
  · exact absurd h.2.1 (h'.2.2 k hlt)
  · exact heq
  · exact absurd h'.2.1 (h.2.2 k' hgt)

/-- The scan of a running DECODE has stopped exactly when there is a first stop. -/
theorem decodeScan_zeroRun_eq_iff (s : State) (hi : s.internal = Internal.initial) :
    s.decodeScan.zeroRun = 8 ↔ ∃ k, FirstStop (slotBit s.pix s.op.src.toNat) (8 * s.op.groups) k := by
  rcases decodeScan_spec s hi with ⟨k, hk, hs⟩ | h
  · exact ⟨fun _ => ⟨k, hk⟩, fun _ => hs.zeroRun⟩
  · refine ⟨fun he => absurd he (by have := h.zeroRun_lt; omega), ?_⟩
    rintro ⟨k, hk⟩
    exact absurd hk.2.1 (h.noStop k hk.1)

theorem decodeScan_stopped (s : State) (hi : s.internal = Internal.initial) (k : Nat)
    (hk : FirstStop (slotBit s.pix s.op.src.toNat) (8 * s.op.groups) k) :
    StoppedAt (slotBit s.pix s.op.src.toNat) k s.decodeScan := by
  rcases decodeScan_spec s hi with ⟨k', hk', hs⟩ | h
  · exact hk.unique hk' ▸ hs
  · exact absurd hk.2.1 (h.noStop k hk.1)

/-- The count is the number of completed bytes and at most G. -/
theorem decodeScan_count (s : State) (hi : s.internal = Internal.initial) :
    s.decodeScan.completed.length = s.decodeScan.count ∧ s.decodeScan.count ≤ s.op.groups := by
  rcases decodeScan_spec s hi with ⟨k, hk, hs⟩ | h
  · refine ⟨hs.length.trans hs.count.symm, ?_⟩
    have := hk.1
    rw [hs.count]
    omega
  · refine ⟨h.length.trans h.count.symm, ?_⟩
    rw [h.count]
    omega

end Sys2Proof.Machine
end

