-- ==== Sys2Proof/Laws/Encoder.lean ====
section
/-! SUPPORT. The bit expander in closed form (spec/40_encoder.md R121, R123) and what ENCODE's traversal puts in each
bit of each destination word (R127, R129). -/

namespace Sys2Proof.Machine

theorem bitsLsb_length (b : Byte) : (bitsLsb b).length = 8 := rfl

theorem bitsLsb_getD (b : Byte) (j : Nat) : (bitsLsb b).getD j false = b.getLsbD j := by
  rcases Nat.lt_or_ge j 8 with hj | hj
  · interval_cases j <;> rfl
  · rw [BitVec.getLsbD_of_ge _ _ hj, List.getD_eq_default]
    simpa [bitsLsb_length] using hj

@[simp] theorem expand_length (P : List Byte) : (expand P).length = 8 * P.length + 8 := by
  have h : (P.flatMap bitsLsb).length = 8 * P.length := by
    induction P with
    | nil => rfl
    | cons b P ih => rw [List.flatMap_cons, List.length_append, ih, bitsLsb_length, List.length_cons]; omega
  rw [expand, List.length_append, h, List.length_replicate]

/-- The expanded stream, bit by bit; the sentinel and everything past it is 0. -/
theorem expand_getD (P : List Byte) (k : Nat) : (expand P).getD k false = streamBit P k := by
  unfold expand streamBit
  induction P generalizing k with
  | nil =>
    simp only [List.flatMap_nil, List.nil_append, List.getD_nil, BitVec.getLsbD_zero]
    rw [List.getD_eq_getElem?_getD, List.getElem?_replicate]
    split <;> rfl
  | cons b P ih =>
    rw [List.flatMap_cons, List.append_assoc]
    rcases Nat.lt_or_ge k 8 with hk | hk
    · rw [List.getD_append _ _ _ _ (by simpa [bitsLsb_length] using hk), bitsLsb_getD]
      have h1 : k / 8 = 0 := by omega
      have h2 : k % 8 = k := by omega
      simp [h1, h2]
    · rw [List.getD_append_right _ _ _ _ (by simpa [bitsLsb_length] using hk), bitsLsb_length, ih]
      have h1 : k / 8 = (k - 8) / 8 + 1 := by omega
      have h2 : k % 8 = (k - 8) % 8 := by omega
      rw [h1, h2, List.getD_cons_succ]

/-- Past the payload the stream is 0: the sentinel. -/
theorem streamBit_of_ge (P : List Byte) (k : Nat) (h : 8 * P.length ≤ k) : streamBit P k = false := by
  have h1 : P.length ≤ k / 8 := by omega
  rw [streamBit, List.getD_eq_default _ _ h1]
  simp

theorem streamBit_byte (P : List Byte) (g j : Nat) (hj : j < 8) :
    streamBit P (8 * g + j) = (P.getD g 0#8).getLsbD j := by
  have h1 : (8 * g + j) / 8 = g := by omega
  have h2 : (8 * g + j) % 8 = j := by omega
  rw [streamBit, h1, h2]

section Traversal

variable (S : List Bool) (w : Nat)

/-- The cursor after a pixel whose first slot is `q`. -/
theorem embedPixel_cursor (v : Word) (q : Nat) : (embedPixel S w v (min w q)).2 = min w (q + 3) := by
  simp only [embedPixel, embedSlot]
  rcases Nat.lt_or_ge q w with h | h
  · have h0 : min w q = q := by omega
    simp only [h0, h, if_true]
    rcases Nat.lt_or_ge (q + 1) w with h1 | h1
    · simp only [h1, if_true]
      split <;> simp <;> omega
    · have h1' : ¬ q + 1 < w := by omega
      simp only [h1', if_false]
      omega
  · have h0 : min w q = w := by omega
    simp only [h0, Nat.lt_irrefl, if_false]
    omega

/-- Every bit of a pixel whose first slot is `q`: the stream bit at each lane's LSB whose slot is below `w`, the source
bit elsewhere. -/
theorem embedPixel_getLsbD (v : Word) (q k : Nat) :
    (embedPixel S w v (min w q)).1.getLsbD k =
      if k = 16 ∧ q < w then S.getD q false
      else if k = 8 ∧ q + 1 < w then S.getD (q + 1) false
      else if k = 0 ∧ q + 2 < w then S.getD (q + 2) false
      else v.getLsbD k := by
  simp only [embedPixel, embedSlot]
  rcases Nat.lt_or_ge q w with h | h
  · have h0 : min w q = q := by omega
    simp only [h0, h, if_true, and_true]
    rcases Nat.lt_or_ge (q + 1) w with h1 | h1
    · simp only [h1, if_true, and_true]
      rcases Nat.lt_or_ge (q + 2) w with h2 | h2
      · have h2' : q + 1 + 1 < w := by omega
        simp only [h2, if_true, and_true, embed_getLsbD, lanePos]
        split_ifs <;> simp_all
      · have h2' : ¬ q + 1 + 1 < w := by omega
        simp only [h2', if_false, and_false, embed_getLsbD, lanePos]
        split_ifs <;> simp_all
    · have h1' : ¬ q + 1 < w := by omega
      have h2' : ¬ q + 2 < w := by omega
      simp only [h1', h2', if_false, and_false, embed_getLsbD, lanePos]
      by_cases hk : k = 16 <;> simp [hk]
  · have h0 : min w q = w := by omega
    have h1 : ¬ q < w := by omega
    have h2 : ¬ q + 1 < w := by omega
    have h3 : ¬ q + 2 < w := by omega
    simp [h0, h1, h2, h3]

@[simp] theorem encodeWords_length (source : List Word) (c : Nat) :
    (encodeWords S w source c).length = source.length := by
  induction source generalizing c with
  | nil => rfl
  | cons v rest ih => simp [encodeWords, ih]

/-- Every destination word, from a cursor that stands at the first slot of pixel `p` or at the end of the stream. -/
theorem encodeWords_getD (source : List Word) (p i : Nat) (hi : i < source.length) :
    (encodeWords S w source (min w (3 * p))).getD i 0 =
      (embedPixel S w (source.getD i 0) (min w (3 * (p + i)))).1 := by
  induction source generalizing p i with
  | nil => simp at hi
  | cons v rest ih =>
    rw [encodeWords, embedPixel_cursor]
    cases i with
    | zero => simp
    | succ i =>
      rw [List.getD_cons_succ, List.getD_cons_succ]
      have h := ih (p + 1) i (by simpa using hi)
      rw [show 3 * (p + 1) = 3 * p + 3 by omega] at h
      rw [h, show p + 1 + i = p + (i + 1) by omega]

end Traversal

/-! ### ENCODE's destination words on a running command -/

theorem encodedWords_length (s : State) : s.encodedWords.length = s.op.pixels := by
  simp [State.encodedWords, State.sourceWords]

theorem payload_length (s : State) : s.payload.length = s.op.payloadLen := by simp [State.payload]

theorem payload_getD (s : State) (i : Nat) (h : i < s.op.payloadLen) :
    s.payload.getD i 0#8 = memRead s.bytes (s.op.pay.toNat + i) := readRange_getD _ _ _ _ h _

/-- Each destination word of a running ENCODE. -/
theorem encodedWords_getD (s : State) (hc : s.internal.cursor = 0) (i : Nat) (hi : i < s.op.pixels) :
    s.encodedWords.getD i 0 =
      (embedPixel (expand s.payload) s.op.slotsWritten (memRead s.pix (s.op.src.toNat + i))
        (min s.op.slotsWritten (3 * i))).1 := by
  have h := encodeWords_getD (expand s.payload) s.op.slotsWritten s.sourceWords 0 i
    (by simpa [State.sourceWords] using hi)
  simp only [Nat.mul_zero, Nat.min_zero, Nat.zero_add] at h
  rw [State.encodedWords, hc, h, State.sourceWords, readRange_getD _ _ _ _ hi]

/-- Each bit of each destination word of a running ENCODE (R127). -/
theorem encodedWords_getLsbD (s : State) (hc : s.internal.cursor = 0) (i : Nat) (hi : i < s.op.pixels) (k : Nat) :
    (s.encodedWords.getD i 0).getLsbD k =
      if k = 16 ∧ 3 * i < s.op.slotsWritten then streamBit s.payload (3 * i)
      else if k = 8 ∧ 3 * i + 1 < s.op.slotsWritten then streamBit s.payload (3 * i + 1)
      else if k = 0 ∧ 3 * i + 2 < s.op.slotsWritten then streamBit s.payload (3 * i + 2)
      else (memRead s.pix (s.op.src.toNat + i)).getLsbD k := by
  rw [encodedWords_getD s hc i hi, embedPixel_getLsbD]
  simp only [expand_getD]

end Sys2Proof.Machine
end

