-- ==== Sys2Proof/Laws/State.lean ====
section
/-! SUPPORT. One lemma per field of State per named update: what the update leaves in the field. -/

namespace Sys2Proof.Machine

/-! ### `State.withScript` -/

@[simp] theorem withScript_ctrlOp (s : State) (l : List Move) : (s.withScript l).ctrlOp = s.ctrlOp := rfl
@[simp] theorem withScript_irqEn (s : State) (l : List Move) : (s.withScript l).irqEn = s.irqEn := rfl
@[simp] theorem withScript_busy (s : State) (l : List Move) : (s.withScript l).busy = s.busy := rfl
@[simp] theorem withScript_done (s : State) (l : List Move) : (s.withScript l).done = s.done := rfl
@[simp] theorem withScript_err (s : State) (l : List Move) : (s.withScript l).err = s.err := rfl
@[simp] theorem withScript_dim (s : State) (l : List Move) : (s.withScript l).dim = s.dim := rfl
@[simp] theorem withScript_srcBase (s : State) (l : List Move) : (s.withScript l).srcBase = s.srcBase := rfl
@[simp] theorem withScript_dstBase (s : State) (l : List Move) : (s.withScript l).dstBase = s.dstBase := rfl
@[simp] theorem withScript_payBase (s : State) (l : List Move) : (s.withScript l).payBase = s.payBase := rfl
@[simp] theorem withScript_payLen (s : State) (l : List Move) : (s.withScript l).payLen = s.payLen := rfl
@[simp] theorem withScript_outBase (s : State) (l : List Move) : (s.withScript l).outBase = s.outBase := rfl
@[simp] theorem withScript_result (s : State) (l : List Move) : (s.withScript l).result = s.result := rfl
@[simp] theorem withScript_op (s : State) (l : List Move) : (s.withScript l).op = s.op := rfl
@[simp] theorem withScript_internal (s : State) (l : List Move) : (s.withScript l).internal = s.internal := rfl
@[simp] theorem withScript_pix (s : State) (l : List Move) : (s.withScript l).pix = s.pix := rfl
@[simp] theorem withScript_bytes (s : State) (l : List Move) : (s.withScript l).bytes = s.bytes := rfl
@[simp] theorem withScript_pixAw (s : State) (l : List Move) : (s.withScript l).pixAw = s.pixAw := rfl
@[simp] theorem withScript_byteAw (s : State) (l : List Move) : (s.withScript l).byteAw = s.byteAw := rfl
@[simp] theorem withScript_script (s : State) (l : List Move) : (s.withScript l).script = l := rfl
@[simp] theorem withScript_hostData (s : State) (l : List Move) : (s.withScript l).hostData = s.hostData := rfl
@[simp] theorem withScript_hostPrior (s : State) (l : List Move) : (s.withScript l).hostPrior = s.hostPrior := rfl
@[simp] theorem withScript_firstDraw (s : State) (l : List Move) : (s.withScript l).firstDraw = s.firstDraw := rfl
@[simp] theorem withScript_ended (s : State) (l : List Move) : (s.withScript l).ended = s.ended := rfl
@[simp] theorem withScript_others (s : State) (l : List Move) : (s.withScript l).others = s.others := rfl
@[simp] theorem withScript_draws (s : State) (l : List Move) : (s.withScript l).draws = s.draws := rfl

/-! ### `State.withHostData` -/

@[simp] theorem withHostData_ctrlOp (s : State) (v : Word) : (s.withHostData v).ctrlOp = s.ctrlOp := rfl
@[simp] theorem withHostData_irqEn (s : State) (v : Word) : (s.withHostData v).irqEn = s.irqEn := rfl
@[simp] theorem withHostData_busy (s : State) (v : Word) : (s.withHostData v).busy = s.busy := rfl
@[simp] theorem withHostData_done (s : State) (v : Word) : (s.withHostData v).done = s.done := rfl
@[simp] theorem withHostData_err (s : State) (v : Word) : (s.withHostData v).err = s.err := rfl
@[simp] theorem withHostData_dim (s : State) (v : Word) : (s.withHostData v).dim = s.dim := rfl
@[simp] theorem withHostData_srcBase (s : State) (v : Word) : (s.withHostData v).srcBase = s.srcBase := rfl
@[simp] theorem withHostData_dstBase (s : State) (v : Word) : (s.withHostData v).dstBase = s.dstBase := rfl
@[simp] theorem withHostData_payBase (s : State) (v : Word) : (s.withHostData v).payBase = s.payBase := rfl
@[simp] theorem withHostData_payLen (s : State) (v : Word) : (s.withHostData v).payLen = s.payLen := rfl
@[simp] theorem withHostData_outBase (s : State) (v : Word) : (s.withHostData v).outBase = s.outBase := rfl
@[simp] theorem withHostData_result (s : State) (v : Word) : (s.withHostData v).result = s.result := rfl
@[simp] theorem withHostData_op (s : State) (v : Word) : (s.withHostData v).op = s.op := rfl
@[simp] theorem withHostData_internal (s : State) (v : Word) : (s.withHostData v).internal = s.internal := rfl
@[simp] theorem withHostData_pix (s : State) (v : Word) : (s.withHostData v).pix = s.pix := rfl
@[simp] theorem withHostData_bytes (s : State) (v : Word) : (s.withHostData v).bytes = s.bytes := rfl
@[simp] theorem withHostData_pixAw (s : State) (v : Word) : (s.withHostData v).pixAw = s.pixAw := rfl
@[simp] theorem withHostData_byteAw (s : State) (v : Word) : (s.withHostData v).byteAw = s.byteAw := rfl
@[simp] theorem withHostData_script (s : State) (v : Word) : (s.withHostData v).script = s.script := rfl
@[simp] theorem withHostData_hostData (s : State) (v : Word) : (s.withHostData v).hostData = v := rfl
@[simp] theorem withHostData_hostPrior (s : State) (v : Word) : (s.withHostData v).hostPrior = s.hostData := rfl
@[simp] theorem withHostData_firstDraw (s : State) (v : Word) : (s.withHostData v).firstDraw = s.firstDraw := rfl
@[simp] theorem withHostData_ended (s : State) (v : Word) : (s.withHostData v).ended = s.ended := rfl
@[simp] theorem withHostData_others (s : State) (v : Word) : (s.withHostData v).others = s.others := rfl
@[simp] theorem withHostData_draws (s : State) (v : Word) : (s.withHostData v).draws = s.draws := rfl

/-! ### `State.withPix` -/

@[simp] theorem withPix_ctrlOp (s : State) (m : Memory 32) : (s.withPix m).ctrlOp = s.ctrlOp := rfl
@[simp] theorem withPix_irqEn (s : State) (m : Memory 32) : (s.withPix m).irqEn = s.irqEn := rfl
@[simp] theorem withPix_busy (s : State) (m : Memory 32) : (s.withPix m).busy = s.busy := rfl
@[simp] theorem withPix_done (s : State) (m : Memory 32) : (s.withPix m).done = s.done := rfl
@[simp] theorem withPix_err (s : State) (m : Memory 32) : (s.withPix m).err = s.err := rfl
@[simp] theorem withPix_dim (s : State) (m : Memory 32) : (s.withPix m).dim = s.dim := rfl
@[simp] theorem withPix_srcBase (s : State) (m : Memory 32) : (s.withPix m).srcBase = s.srcBase := rfl
@[simp] theorem withPix_dstBase (s : State) (m : Memory 32) : (s.withPix m).dstBase = s.dstBase := rfl
@[simp] theorem withPix_payBase (s : State) (m : Memory 32) : (s.withPix m).payBase = s.payBase := rfl
@[simp] theorem withPix_payLen (s : State) (m : Memory 32) : (s.withPix m).payLen = s.payLen := rfl
@[simp] theorem withPix_outBase (s : State) (m : Memory 32) : (s.withPix m).outBase = s.outBase := rfl
@[simp] theorem withPix_result (s : State) (m : Memory 32) : (s.withPix m).result = s.result := rfl
@[simp] theorem withPix_op (s : State) (m : Memory 32) : (s.withPix m).op = s.op := rfl
@[simp] theorem withPix_internal (s : State) (m : Memory 32) : (s.withPix m).internal = s.internal := rfl
@[simp] theorem withPix_pix (s : State) (m : Memory 32) : (s.withPix m).pix = m := rfl
@[simp] theorem withPix_bytes (s : State) (m : Memory 32) : (s.withPix m).bytes = s.bytes := rfl
@[simp] theorem withPix_pixAw (s : State) (m : Memory 32) : (s.withPix m).pixAw = s.pixAw := rfl
@[simp] theorem withPix_byteAw (s : State) (m : Memory 32) : (s.withPix m).byteAw = s.byteAw := rfl
@[simp] theorem withPix_script (s : State) (m : Memory 32) : (s.withPix m).script = s.script := rfl
@[simp] theorem withPix_hostData (s : State) (m : Memory 32) : (s.withPix m).hostData = s.hostData := rfl
@[simp] theorem withPix_hostPrior (s : State) (m : Memory 32) : (s.withPix m).hostPrior = s.hostPrior := rfl
@[simp] theorem withPix_firstDraw (s : State) (m : Memory 32) : (s.withPix m).firstDraw = s.firstDraw := rfl
@[simp] theorem withPix_ended (s : State) (m : Memory 32) : (s.withPix m).ended = s.ended := rfl
@[simp] theorem withPix_others (s : State) (m : Memory 32) : (s.withPix m).others = s.others := rfl
@[simp] theorem withPix_draws (s : State) (m : Memory 32) : (s.withPix m).draws = s.draws := rfl

/-! ### `State.withBytes` -/

@[simp] theorem withBytes_ctrlOp (s : State) (m : Memory 8) : (s.withBytes m).ctrlOp = s.ctrlOp := rfl
@[simp] theorem withBytes_irqEn (s : State) (m : Memory 8) : (s.withBytes m).irqEn = s.irqEn := rfl
@[simp] theorem withBytes_busy (s : State) (m : Memory 8) : (s.withBytes m).busy = s.busy := rfl
@[simp] theorem withBytes_done (s : State) (m : Memory 8) : (s.withBytes m).done = s.done := rfl
@[simp] theorem withBytes_err (s : State) (m : Memory 8) : (s.withBytes m).err = s.err := rfl
@[simp] theorem withBytes_dim (s : State) (m : Memory 8) : (s.withBytes m).dim = s.dim := rfl
@[simp] theorem withBytes_srcBase (s : State) (m : Memory 8) : (s.withBytes m).srcBase = s.srcBase := rfl
@[simp] theorem withBytes_dstBase (s : State) (m : Memory 8) : (s.withBytes m).dstBase = s.dstBase := rfl
@[simp] theorem withBytes_payBase (s : State) (m : Memory 8) : (s.withBytes m).payBase = s.payBase := rfl
@[simp] theorem withBytes_payLen (s : State) (m : Memory 8) : (s.withBytes m).payLen = s.payLen := rfl
@[simp] theorem withBytes_outBase (s : State) (m : Memory 8) : (s.withBytes m).outBase = s.outBase := rfl
@[simp] theorem withBytes_result (s : State) (m : Memory 8) : (s.withBytes m).result = s.result := rfl
@[simp] theorem withBytes_op (s : State) (m : Memory 8) : (s.withBytes m).op = s.op := rfl
@[simp] theorem withBytes_internal (s : State) (m : Memory 8) : (s.withBytes m).internal = s.internal := rfl
@[simp] theorem withBytes_pix (s : State) (m : Memory 8) : (s.withBytes m).pix = s.pix := rfl
@[simp] theorem withBytes_bytes (s : State) (m : Memory 8) : (s.withBytes m).bytes = m := rfl
@[simp] theorem withBytes_pixAw (s : State) (m : Memory 8) : (s.withBytes m).pixAw = s.pixAw := rfl
@[simp] theorem withBytes_byteAw (s : State) (m : Memory 8) : (s.withBytes m).byteAw = s.byteAw := rfl
@[simp] theorem withBytes_script (s : State) (m : Memory 8) : (s.withBytes m).script = s.script := rfl
@[simp] theorem withBytes_hostData (s : State) (m : Memory 8) : (s.withBytes m).hostData = s.hostData := rfl
@[simp] theorem withBytes_hostPrior (s : State) (m : Memory 8) : (s.withBytes m).hostPrior = s.hostPrior := rfl
@[simp] theorem withBytes_firstDraw (s : State) (m : Memory 8) : (s.withBytes m).firstDraw = s.firstDraw := rfl
@[simp] theorem withBytes_ended (s : State) (m : Memory 8) : (s.withBytes m).ended = s.ended := rfl
@[simp] theorem withBytes_others (s : State) (m : Memory 8) : (s.withBytes m).others = s.others := rfl
@[simp] theorem withBytes_draws (s : State) (m : Memory 8) : (s.withBytes m).draws = s.draws := rfl

/-! ### `State.drawn` -/

@[simp] theorem drawn_ctrlOp (s : State) (n : Nat) : (s.drawn n).ctrlOp = s.ctrlOp := rfl
@[simp] theorem drawn_irqEn (s : State) (n : Nat) : (s.drawn n).irqEn = s.irqEn := rfl
@[simp] theorem drawn_busy (s : State) (n : Nat) : (s.drawn n).busy = s.busy := rfl
@[simp] theorem drawn_done (s : State) (n : Nat) : (s.drawn n).done = s.done := rfl
@[simp] theorem drawn_err (s : State) (n : Nat) : (s.drawn n).err = s.err := rfl
@[simp] theorem drawn_dim (s : State) (n : Nat) : (s.drawn n).dim = s.dim := rfl
@[simp] theorem drawn_srcBase (s : State) (n : Nat) : (s.drawn n).srcBase = s.srcBase := rfl
@[simp] theorem drawn_dstBase (s : State) (n : Nat) : (s.drawn n).dstBase = s.dstBase := rfl
@[simp] theorem drawn_payBase (s : State) (n : Nat) : (s.drawn n).payBase = s.payBase := rfl
@[simp] theorem drawn_payLen (s : State) (n : Nat) : (s.drawn n).payLen = s.payLen := rfl
@[simp] theorem drawn_outBase (s : State) (n : Nat) : (s.drawn n).outBase = s.outBase := rfl
@[simp] theorem drawn_result (s : State) (n : Nat) : (s.drawn n).result = s.result := rfl
@[simp] theorem drawn_op (s : State) (n : Nat) : (s.drawn n).op = s.op := rfl
@[simp] theorem drawn_internal (s : State) (n : Nat) : (s.drawn n).internal = s.internal := rfl
@[simp] theorem drawn_pix (s : State) (n : Nat) : (s.drawn n).pix = s.pix := rfl
@[simp] theorem drawn_bytes (s : State) (n : Nat) : (s.drawn n).bytes = s.bytes := rfl
@[simp] theorem drawn_pixAw (s : State) (n : Nat) : (s.drawn n).pixAw = s.pixAw := rfl
@[simp] theorem drawn_byteAw (s : State) (n : Nat) : (s.drawn n).byteAw = s.byteAw := rfl
@[simp] theorem drawn_script (s : State) (n : Nat) : (s.drawn n).script = s.script := rfl
@[simp] theorem drawn_hostData (s : State) (n : Nat) : (s.drawn n).hostData = s.hostData := rfl
@[simp] theorem drawn_hostPrior (s : State) (n : Nat) : (s.drawn n).hostPrior = s.hostPrior := rfl
@[simp] theorem drawn_firstDraw (s : State) (n : Nat) : (s.drawn n).firstDraw = s.firstDraw := rfl
@[simp] theorem drawn_ended (s : State) (n : Nat) : (s.drawn n).ended = s.ended := rfl
@[simp] theorem drawn_others (s : State) (n : Nat) : (s.drawn n).others = s.others := rfl
@[simp] theorem drawn_draws (s : State) (n : Nat) : (s.drawn n).draws = s.draws + n := rfl

/-! ### `State.setCtrl` -/

@[simp] theorem setCtrl_ctrlOp (s : State) (v : Word) : (s.setCtrl v).ctrlOp = (parseCtrl v).op := rfl
@[simp] theorem setCtrl_irqEn (s : State) (v : Word) : (s.setCtrl v).irqEn = (parseCtrl v).irqEn := rfl
@[simp] theorem setCtrl_busy (s : State) (v : Word) : (s.setCtrl v).busy = s.busy := rfl
@[simp] theorem setCtrl_done (s : State) (v : Word) : (s.setCtrl v).done = s.done := rfl
@[simp] theorem setCtrl_err (s : State) (v : Word) : (s.setCtrl v).err = s.err := rfl
@[simp] theorem setCtrl_dim (s : State) (v : Word) : (s.setCtrl v).dim = s.dim := rfl
@[simp] theorem setCtrl_srcBase (s : State) (v : Word) : (s.setCtrl v).srcBase = s.srcBase := rfl
@[simp] theorem setCtrl_dstBase (s : State) (v : Word) : (s.setCtrl v).dstBase = s.dstBase := rfl
@[simp] theorem setCtrl_payBase (s : State) (v : Word) : (s.setCtrl v).payBase = s.payBase := rfl
@[simp] theorem setCtrl_payLen (s : State) (v : Word) : (s.setCtrl v).payLen = s.payLen := rfl
@[simp] theorem setCtrl_outBase (s : State) (v : Word) : (s.setCtrl v).outBase = s.outBase := rfl
@[simp] theorem setCtrl_result (s : State) (v : Word) : (s.setCtrl v).result = s.result := rfl
@[simp] theorem setCtrl_op (s : State) (v : Word) : (s.setCtrl v).op = s.op := rfl
@[simp] theorem setCtrl_internal (s : State) (v : Word) : (s.setCtrl v).internal = s.internal := rfl
@[simp] theorem setCtrl_pix (s : State) (v : Word) : (s.setCtrl v).pix = s.pix := rfl
@[simp] theorem setCtrl_bytes (s : State) (v : Word) : (s.setCtrl v).bytes = s.bytes := rfl
@[simp] theorem setCtrl_pixAw (s : State) (v : Word) : (s.setCtrl v).pixAw = s.pixAw := rfl
@[simp] theorem setCtrl_byteAw (s : State) (v : Word) : (s.setCtrl v).byteAw = s.byteAw := rfl
@[simp] theorem setCtrl_script (s : State) (v : Word) : (s.setCtrl v).script = s.script := rfl
@[simp] theorem setCtrl_hostData (s : State) (v : Word) : (s.setCtrl v).hostData = s.hostData := rfl
@[simp] theorem setCtrl_hostPrior (s : State) (v : Word) : (s.setCtrl v).hostPrior = s.hostPrior := rfl
@[simp] theorem setCtrl_firstDraw (s : State) (v : Word) : (s.setCtrl v).firstDraw = s.firstDraw := rfl
@[simp] theorem setCtrl_ended (s : State) (v : Word) : (s.setCtrl v).ended = s.ended := rfl
@[simp] theorem setCtrl_others (s : State) (v : Word) : (s.setCtrl v).others = s.others := rfl
@[simp] theorem setCtrl_draws (s : State) (v : Word) : (s.setCtrl v).draws = s.draws := rfl

/-! ### `State.start` -/

@[simp] theorem start_ctrlOp (s : State) (i : Instr) : (s.start i).ctrlOp = s.ctrlOp := rfl
@[simp] theorem start_irqEn (s : State) (i : Instr) : (s.start i).irqEn = s.irqEn := rfl
@[simp] theorem start_busy (s : State) (i : Instr) : (s.start i).busy = true := rfl
@[simp] theorem start_done (s : State) (i : Instr) : (s.start i).done = false := rfl
@[simp] theorem start_err (s : State) (i : Instr) : (s.start i).err = 0#4 := rfl
@[simp] theorem start_dim (s : State) (i : Instr) : (s.start i).dim = s.dim := rfl
@[simp] theorem start_srcBase (s : State) (i : Instr) : (s.start i).srcBase = s.srcBase := rfl
@[simp] theorem start_dstBase (s : State) (i : Instr) : (s.start i).dstBase = s.dstBase := rfl
@[simp] theorem start_payBase (s : State) (i : Instr) : (s.start i).payBase = s.payBase := rfl
@[simp] theorem start_payLen (s : State) (i : Instr) : (s.start i).payLen = s.payLen := rfl
@[simp] theorem start_outBase (s : State) (i : Instr) : (s.start i).outBase = s.outBase := rfl
@[simp] theorem start_result (s : State) (i : Instr) : (s.start i).result = 0#64 := rfl
@[simp] theorem start_op (s : State) (i : Instr) : (s.start i).op = s.latched i.opCode := rfl
@[simp] theorem start_internal (s : State) (i : Instr) : (s.start i).internal = Internal.initial := rfl
@[simp] theorem start_pix (s : State) (i : Instr) : (s.start i).pix = s.pix := rfl
@[simp] theorem start_bytes (s : State) (i : Instr) : (s.start i).bytes = s.bytes := rfl
@[simp] theorem start_pixAw (s : State) (i : Instr) : (s.start i).pixAw = s.pixAw := rfl
@[simp] theorem start_byteAw (s : State) (i : Instr) : (s.start i).byteAw = s.byteAw := rfl
@[simp] theorem start_script (s : State) (i : Instr) : (s.start i).script = s.script := rfl
@[simp] theorem start_hostData (s : State) (i : Instr) : (s.start i).hostData = s.hostData := rfl
@[simp] theorem start_hostPrior (s : State) (i : Instr) : (s.start i).hostPrior = s.hostPrior := rfl
@[simp] theorem start_firstDraw (s : State) (i : Instr) : (s.start i).firstDraw = s.draws := rfl
@[simp] theorem start_ended (s : State) (i : Instr) : (s.start i).ended = [] := rfl
@[simp] theorem start_others (s : State) (i : Instr) : (s.start i).others = s.others := rfl
@[simp] theorem start_draws (s : State) (i : Instr) :
    (s.start i).draws = s.draws + (s.latched i.opCode).readLen := rfl

/-! ### `State.releaseLatches` -/

@[simp] theorem releaseLatches_ctrlOp (s : State) : (s.releaseLatches).ctrlOp = s.ctrlOp := rfl
@[simp] theorem releaseLatches_irqEn (s : State) : (s.releaseLatches).irqEn = s.irqEn := rfl
@[simp] theorem releaseLatches_busy (s : State) : (s.releaseLatches).busy = s.busy := rfl
@[simp] theorem releaseLatches_done (s : State) : (s.releaseLatches).done = s.done := rfl
@[simp] theorem releaseLatches_err (s : State) : (s.releaseLatches).err = s.err := rfl
@[simp] theorem releaseLatches_dim (s : State) : (s.releaseLatches).dim = s.dim := rfl
@[simp] theorem releaseLatches_srcBase (s : State) : (s.releaseLatches).srcBase = s.srcBase := rfl
@[simp] theorem releaseLatches_dstBase (s : State) : (s.releaseLatches).dstBase = s.dstBase := rfl
@[simp] theorem releaseLatches_payBase (s : State) : (s.releaseLatches).payBase = s.payBase := rfl
@[simp] theorem releaseLatches_payLen (s : State) : (s.releaseLatches).payLen = s.payLen := rfl
@[simp] theorem releaseLatches_outBase (s : State) : (s.releaseLatches).outBase = s.outBase := rfl
@[simp] theorem releaseLatches_result (s : State) : (s.releaseLatches).result = s.result := rfl
@[simp] theorem releaseLatches_op (s : State) : (s.releaseLatches).op = drawnOperands s.draws := rfl
@[simp] theorem releaseLatches_internal (s : State) : (s.releaseLatches).internal = drawnInternal s.draws := rfl
@[simp] theorem releaseLatches_pix (s : State) : (s.releaseLatches).pix = s.pix := rfl
@[simp] theorem releaseLatches_bytes (s : State) : (s.releaseLatches).bytes = s.bytes := rfl
@[simp] theorem releaseLatches_pixAw (s : State) : (s.releaseLatches).pixAw = s.pixAw := rfl
@[simp] theorem releaseLatches_byteAw (s : State) : (s.releaseLatches).byteAw = s.byteAw := rfl
@[simp] theorem releaseLatches_script (s : State) : (s.releaseLatches).script = s.script := rfl
@[simp] theorem releaseLatches_hostData (s : State) : (s.releaseLatches).hostData = s.hostData := rfl
@[simp] theorem releaseLatches_hostPrior (s : State) : (s.releaseLatches).hostPrior = s.hostPrior := rfl
@[simp] theorem releaseLatches_firstDraw (s : State) : (s.releaseLatches).firstDraw = 0 := rfl
@[simp] theorem releaseLatches_ended (s : State) : (s.releaseLatches).ended = [] := rfl
@[simp] theorem releaseLatches_others (s : State) : (s.releaseLatches).others = s.others := rfl
@[simp] theorem releaseLatches_draws (s : State) : (s.releaseLatches).draws = s.draws + 8 := rfl

/-! ### `State.finish` -/

@[simp] theorem finish_ctrlOp (s : State) (e : ErrorCode) (n : Nat) : (s.finish e n).ctrlOp = s.ctrlOp := rfl
@[simp] theorem finish_irqEn (s : State) (e : ErrorCode) (n : Nat) : (s.finish e n).irqEn = s.irqEn := rfl
@[simp] theorem finish_busy (s : State) (e : ErrorCode) (n : Nat) : (s.finish e n).busy = false := rfl
@[simp] theorem finish_done (s : State) (e : ErrorCode) (n : Nat) : (s.finish e n).done = true := rfl
@[simp] theorem finish_err (s : State) (e : ErrorCode) (n : Nat) : (s.finish e n).err = errorCode e := rfl
@[simp] theorem finish_dim (s : State) (e : ErrorCode) (n : Nat) : (s.finish e n).dim = s.dim := rfl
@[simp] theorem finish_srcBase (s : State) (e : ErrorCode) (n : Nat) : (s.finish e n).srcBase = s.srcBase := rfl
@[simp] theorem finish_dstBase (s : State) (e : ErrorCode) (n : Nat) : (s.finish e n).dstBase = s.dstBase := rfl
@[simp] theorem finish_payBase (s : State) (e : ErrorCode) (n : Nat) : (s.finish e n).payBase = s.payBase := rfl
@[simp] theorem finish_payLen (s : State) (e : ErrorCode) (n : Nat) : (s.finish e n).payLen = s.payLen := rfl
@[simp] theorem finish_outBase (s : State) (e : ErrorCode) (n : Nat) : (s.finish e n).outBase = s.outBase := rfl
@[simp] theorem finish_result (s : State) (e : ErrorCode) (n : Nat) : (s.finish e n).result = BitVec.ofNat 64 n := rfl
@[simp] theorem finish_op (s : State) (e : ErrorCode) (n : Nat) : (s.finish e n).op = drawnOperands s.draws := rfl
@[simp] theorem finish_internal (s : State) (e : ErrorCode) (n : Nat) : (s.finish e n).internal = drawnInternal s.draws := rfl
@[simp] theorem finish_pix (s : State) (e : ErrorCode) (n : Nat) : (s.finish e n).pix = s.pix := rfl
@[simp] theorem finish_bytes (s : State) (e : ErrorCode) (n : Nat) : (s.finish e n).bytes = s.bytes := rfl
@[simp] theorem finish_pixAw (s : State) (e : ErrorCode) (n : Nat) : (s.finish e n).pixAw = s.pixAw := rfl
@[simp] theorem finish_byteAw (s : State) (e : ErrorCode) (n : Nat) : (s.finish e n).byteAw = s.byteAw := rfl
@[simp] theorem finish_script (s : State) (e : ErrorCode) (n : Nat) : (s.finish e n).script = s.script := rfl
@[simp] theorem finish_hostData (s : State) (e : ErrorCode) (n : Nat) : (s.finish e n).hostData = s.hostData := rfl
@[simp] theorem finish_hostPrior (s : State) (e : ErrorCode) (n : Nat) : (s.finish e n).hostPrior = s.hostPrior := rfl
@[simp] theorem finish_firstDraw (s : State) (e : ErrorCode) (n : Nat) : (s.finish e n).firstDraw = 0 := rfl
@[simp] theorem finish_ended (s : State) (e : ErrorCode) (n : Nat) : (s.finish e n).ended = [] := rfl
@[simp] theorem finish_others (s : State) (e : ErrorCode) (n : Nat) : (s.finish e n).others = s.others := rfl
@[simp] theorem finish_draws (s : State) (e : ErrorCode) (n : Nat) : (s.finish e n).draws = s.draws + 8 := rfl

/-! ### `State.raise` -/

@[simp] theorem raise_ctrlOp (s : State) (e : ErrorCode) : (s.raise e).ctrlOp = s.ctrlOp := rfl
@[simp] theorem raise_irqEn (s : State) (e : ErrorCode) : (s.raise e).irqEn = s.irqEn := rfl
@[simp] theorem raise_busy (s : State) (e : ErrorCode) : (s.raise e).busy = false := rfl
@[simp] theorem raise_done (s : State) (e : ErrorCode) : (s.raise e).done = true := rfl
@[simp] theorem raise_err (s : State) (e : ErrorCode) : (s.raise e).err = errorCode e := rfl
@[simp] theorem raise_dim (s : State) (e : ErrorCode) : (s.raise e).dim = s.dim := rfl
@[simp] theorem raise_srcBase (s : State) (e : ErrorCode) : (s.raise e).srcBase = s.srcBase := rfl
@[simp] theorem raise_dstBase (s : State) (e : ErrorCode) : (s.raise e).dstBase = s.dstBase := rfl
@[simp] theorem raise_payBase (s : State) (e : ErrorCode) : (s.raise e).payBase = s.payBase := rfl
@[simp] theorem raise_payLen (s : State) (e : ErrorCode) : (s.raise e).payLen = s.payLen := rfl
@[simp] theorem raise_outBase (s : State) (e : ErrorCode) : (s.raise e).outBase = s.outBase := rfl
@[simp] theorem raise_result (s : State) (e : ErrorCode) : (s.raise e).result = 0#64 := rfl
@[simp] theorem raise_op (s : State) (e : ErrorCode) : (s.raise e).op = drawnOperands s.draws := rfl
@[simp] theorem raise_internal (s : State) (e : ErrorCode) : (s.raise e).internal = drawnInternal s.draws := rfl
@[simp] theorem raise_pix (s : State) (e : ErrorCode) : (s.raise e).pix = s.pix := rfl
@[simp] theorem raise_bytes (s : State) (e : ErrorCode) : (s.raise e).bytes = s.bytes := rfl
@[simp] theorem raise_pixAw (s : State) (e : ErrorCode) : (s.raise e).pixAw = s.pixAw := rfl
@[simp] theorem raise_byteAw (s : State) (e : ErrorCode) : (s.raise e).byteAw = s.byteAw := rfl
@[simp] theorem raise_script (s : State) (e : ErrorCode) : (s.raise e).script = s.script := rfl
@[simp] theorem raise_hostData (s : State) (e : ErrorCode) : (s.raise e).hostData = s.hostData := rfl
@[simp] theorem raise_hostPrior (s : State) (e : ErrorCode) : (s.raise e).hostPrior = s.hostPrior := rfl
@[simp] theorem raise_firstDraw (s : State) (e : ErrorCode) : (s.raise e).firstDraw = 0 := rfl
@[simp] theorem raise_ended (s : State) (e : ErrorCode) : (s.raise e).ended = [] := rfl
@[simp] theorem raise_others (s : State) (e : ErrorCode) : (s.raise e).others = s.others := rfl
@[simp] theorem raise_draws (s : State) (e : ErrorCode) : (s.raise e).draws = s.draws + 8 := rfl

/-! ### `State.clearDone` -/

@[simp] theorem clearDone_ctrlOp (s : State) : (s.clearDone).ctrlOp = s.ctrlOp := rfl
@[simp] theorem clearDone_irqEn (s : State) : (s.clearDone).irqEn = s.irqEn := rfl
@[simp] theorem clearDone_busy (s : State) : (s.clearDone).busy = s.busy := rfl
@[simp] theorem clearDone_done (s : State) : (s.clearDone).done = false := rfl
@[simp] theorem clearDone_err (s : State) : (s.clearDone).err = s.err := rfl
@[simp] theorem clearDone_dim (s : State) : (s.clearDone).dim = s.dim := rfl
@[simp] theorem clearDone_srcBase (s : State) : (s.clearDone).srcBase = s.srcBase := rfl
@[simp] theorem clearDone_dstBase (s : State) : (s.clearDone).dstBase = s.dstBase := rfl
@[simp] theorem clearDone_payBase (s : State) : (s.clearDone).payBase = s.payBase := rfl
@[simp] theorem clearDone_payLen (s : State) : (s.clearDone).payLen = s.payLen := rfl
@[simp] theorem clearDone_outBase (s : State) : (s.clearDone).outBase = s.outBase := rfl
@[simp] theorem clearDone_result (s : State) : (s.clearDone).result = s.result := rfl
@[simp] theorem clearDone_op (s : State) : (s.clearDone).op = s.op := rfl
@[simp] theorem clearDone_internal (s : State) : (s.clearDone).internal = s.internal := rfl
@[simp] theorem clearDone_pix (s : State) : (s.clearDone).pix = s.pix := rfl
@[simp] theorem clearDone_bytes (s : State) : (s.clearDone).bytes = s.bytes := rfl
@[simp] theorem clearDone_pixAw (s : State) : (s.clearDone).pixAw = s.pixAw := rfl
@[simp] theorem clearDone_byteAw (s : State) : (s.clearDone).byteAw = s.byteAw := rfl
@[simp] theorem clearDone_script (s : State) : (s.clearDone).script = s.script := rfl
@[simp] theorem clearDone_hostData (s : State) : (s.clearDone).hostData = s.hostData := rfl
@[simp] theorem clearDone_hostPrior (s : State) : (s.clearDone).hostPrior = s.hostPrior := rfl
@[simp] theorem clearDone_firstDraw (s : State) : (s.clearDone).firstDraw = s.firstDraw := rfl
@[simp] theorem clearDone_ended (s : State) : (s.clearDone).ended = s.ended := rfl
@[simp] theorem clearDone_others (s : State) : (s.clearDone).others = s.others := rfl
@[simp] theorem clearDone_draws (s : State) : (s.clearDone).draws = s.draws := rfl

/-! ### `State.writeEncoded` -/

@[simp] theorem writeEncoded_ctrlOp (s : State) : (s.writeEncoded).ctrlOp = s.ctrlOp := rfl
@[simp] theorem writeEncoded_irqEn (s : State) : (s.writeEncoded).irqEn = s.irqEn := rfl
@[simp] theorem writeEncoded_busy (s : State) : (s.writeEncoded).busy = s.busy := rfl
@[simp] theorem writeEncoded_done (s : State) : (s.writeEncoded).done = s.done := rfl
@[simp] theorem writeEncoded_err (s : State) : (s.writeEncoded).err = s.err := rfl
@[simp] theorem writeEncoded_dim (s : State) : (s.writeEncoded).dim = s.dim := rfl
@[simp] theorem writeEncoded_srcBase (s : State) : (s.writeEncoded).srcBase = s.srcBase := rfl
@[simp] theorem writeEncoded_dstBase (s : State) : (s.writeEncoded).dstBase = s.dstBase := rfl
@[simp] theorem writeEncoded_payBase (s : State) : (s.writeEncoded).payBase = s.payBase := rfl
@[simp] theorem writeEncoded_payLen (s : State) : (s.writeEncoded).payLen = s.payLen := rfl
@[simp] theorem writeEncoded_outBase (s : State) : (s.writeEncoded).outBase = s.outBase := rfl
@[simp] theorem writeEncoded_result (s : State) : (s.writeEncoded).result = s.result := rfl
@[simp] theorem writeEncoded_op (s : State) : (s.writeEncoded).op = s.op := rfl
@[simp] theorem writeEncoded_internal (s : State) : (s.writeEncoded).internal = s.internal := rfl
@[simp] theorem writeEncoded_pix (s : State) : (s.writeEncoded).pix = writeRange s.pix s.op.dst.toNat s.encodedWords := rfl
@[simp] theorem writeEncoded_bytes (s : State) : (s.writeEncoded).bytes = s.bytes := rfl
@[simp] theorem writeEncoded_pixAw (s : State) : (s.writeEncoded).pixAw = s.pixAw := rfl
@[simp] theorem writeEncoded_byteAw (s : State) : (s.writeEncoded).byteAw = s.byteAw := rfl
@[simp] theorem writeEncoded_script (s : State) : (s.writeEncoded).script = s.script := rfl
@[simp] theorem writeEncoded_hostData (s : State) : (s.writeEncoded).hostData = s.hostData := rfl
@[simp] theorem writeEncoded_hostPrior (s : State) : (s.writeEncoded).hostPrior = s.hostPrior := rfl
@[simp] theorem writeEncoded_firstDraw (s : State) : (s.writeEncoded).firstDraw = s.firstDraw := rfl
@[simp] theorem writeEncoded_ended (s : State) : (s.writeEncoded).ended = s.ended := rfl
@[simp] theorem writeEncoded_others (s : State) : (s.writeEncoded).others = s.others := rfl
@[simp] theorem writeEncoded_draws (s : State) : (s.writeEncoded).draws = s.draws := rfl

/-! ### `State.writeDecoded` -/

@[simp] theorem writeDecoded_ctrlOp (s : State) : (s.writeDecoded).ctrlOp = s.ctrlOp := rfl
@[simp] theorem writeDecoded_irqEn (s : State) : (s.writeDecoded).irqEn = s.irqEn := rfl
@[simp] theorem writeDecoded_busy (s : State) : (s.writeDecoded).busy = s.busy := rfl
@[simp] theorem writeDecoded_done (s : State) : (s.writeDecoded).done = s.done := rfl
@[simp] theorem writeDecoded_err (s : State) : (s.writeDecoded).err = s.err := rfl
@[simp] theorem writeDecoded_dim (s : State) : (s.writeDecoded).dim = s.dim := rfl
@[simp] theorem writeDecoded_srcBase (s : State) : (s.writeDecoded).srcBase = s.srcBase := rfl
@[simp] theorem writeDecoded_dstBase (s : State) : (s.writeDecoded).dstBase = s.dstBase := rfl
@[simp] theorem writeDecoded_payBase (s : State) : (s.writeDecoded).payBase = s.payBase := rfl
@[simp] theorem writeDecoded_payLen (s : State) : (s.writeDecoded).payLen = s.payLen := rfl
@[simp] theorem writeDecoded_outBase (s : State) : (s.writeDecoded).outBase = s.outBase := rfl
@[simp] theorem writeDecoded_result (s : State) : (s.writeDecoded).result = s.result := rfl
@[simp] theorem writeDecoded_op (s : State) : (s.writeDecoded).op = s.op := rfl
@[simp] theorem writeDecoded_internal (s : State) : (s.writeDecoded).internal = s.internal := rfl
@[simp] theorem writeDecoded_pix (s : State) : (s.writeDecoded).pix = s.pix := rfl
@[simp] theorem writeDecoded_bytes (s : State) : (s.writeDecoded).bytes = writeRange s.bytes s.op.out.toNat s.decodeScan.completed := rfl
@[simp] theorem writeDecoded_pixAw (s : State) : (s.writeDecoded).pixAw = s.pixAw := rfl
@[simp] theorem writeDecoded_byteAw (s : State) : (s.writeDecoded).byteAw = s.byteAw := rfl
@[simp] theorem writeDecoded_script (s : State) : (s.writeDecoded).script = s.script := rfl
@[simp] theorem writeDecoded_hostData (s : State) : (s.writeDecoded).hostData = s.hostData := rfl
@[simp] theorem writeDecoded_hostPrior (s : State) : (s.writeDecoded).hostPrior = s.hostPrior := rfl
@[simp] theorem writeDecoded_firstDraw (s : State) : (s.writeDecoded).firstDraw = s.firstDraw := rfl
@[simp] theorem writeDecoded_ended (s : State) : (s.writeDecoded).ended = s.ended := rfl
@[simp] theorem writeDecoded_others (s : State) : (s.writeDecoded).others = s.others := rfl
@[simp] theorem writeDecoded_draws (s : State) : (s.writeDecoded).draws = s.draws := rfl

/-! ### `State.resetRegisters` -/

@[simp] theorem resetRegisters_ctrlOp (s : State) : (s.resetRegisters).ctrlOp = 0#2 := rfl
@[simp] theorem resetRegisters_irqEn (s : State) : (s.resetRegisters).irqEn = false := rfl
@[simp] theorem resetRegisters_busy (s : State) : (s.resetRegisters).busy = false := rfl
@[simp] theorem resetRegisters_done (s : State) : (s.resetRegisters).done = false := rfl
@[simp] theorem resetRegisters_err (s : State) : (s.resetRegisters).err = 0#4 := rfl
@[simp] theorem resetRegisters_dim (s : State) : (s.resetRegisters).dim = 0#32 := rfl
@[simp] theorem resetRegisters_srcBase (s : State) : (s.resetRegisters).srcBase = 0#32 := rfl
@[simp] theorem resetRegisters_dstBase (s : State) : (s.resetRegisters).dstBase = 0#32 := rfl
@[simp] theorem resetRegisters_payBase (s : State) : (s.resetRegisters).payBase = 0#32 := rfl
@[simp] theorem resetRegisters_payLen (s : State) : (s.resetRegisters).payLen = 0#32 := rfl
@[simp] theorem resetRegisters_outBase (s : State) : (s.resetRegisters).outBase = 0#32 := rfl
@[simp] theorem resetRegisters_result (s : State) : (s.resetRegisters).result = 0#64 := rfl
@[simp] theorem resetRegisters_op (s : State) : (s.resetRegisters).op = s.op := rfl
@[simp] theorem resetRegisters_internal (s : State) : (s.resetRegisters).internal = s.internal := rfl
@[simp] theorem resetRegisters_pix (s : State) : (s.resetRegisters).pix = s.pix := rfl
@[simp] theorem resetRegisters_bytes (s : State) : (s.resetRegisters).bytes = s.bytes := rfl
@[simp] theorem resetRegisters_pixAw (s : State) : (s.resetRegisters).pixAw = s.pixAw := rfl
@[simp] theorem resetRegisters_byteAw (s : State) : (s.resetRegisters).byteAw = s.byteAw := rfl
@[simp] theorem resetRegisters_script (s : State) : (s.resetRegisters).script = s.script := rfl
@[simp] theorem resetRegisters_hostData (s : State) : (s.resetRegisters).hostData = s.hostData := rfl
@[simp] theorem resetRegisters_hostPrior (s : State) : (s.resetRegisters).hostPrior = s.hostPrior := rfl
@[simp] theorem resetRegisters_firstDraw (s : State) : (s.resetRegisters).firstDraw = s.firstDraw := rfl
@[simp] theorem resetRegisters_ended (s : State) : (s.resetRegisters).ended = s.ended := rfl
@[simp] theorem resetRegisters_others (s : State) : (s.resetRegisters).others = s.others := rfl
@[simp] theorem resetRegisters_draws (s : State) : (s.resetRegisters).draws = s.draws := rfl

@[simp] theorem withScript_latched (s : State) (l : List Move) (c : BitVec 2) : (s.withScript l).latched c = s.latched c := rfl

@[simp] theorem setCtrl_latched (s : State) (v : Word) (c : BitVec 2) : (s.setCtrl v).latched c = s.latched c := rfl

/-! ### `State.abandon`: the fields a reset during a command leaves as they were -/

@[simp] theorem abandon_ctrlOp (s : State) : s.abandon.ctrlOp = s.ctrlOp := rfl
@[simp] theorem abandon_irqEn (s : State) : s.abandon.irqEn = s.irqEn := rfl
@[simp] theorem abandon_busy (s : State) : s.abandon.busy = s.busy := rfl
@[simp] theorem abandon_done (s : State) : s.abandon.done = s.done := rfl
@[simp] theorem abandon_err (s : State) : s.abandon.err = s.err := rfl
@[simp] theorem abandon_dim (s : State) : s.abandon.dim = s.dim := rfl
@[simp] theorem abandon_srcBase (s : State) : s.abandon.srcBase = s.srcBase := rfl
@[simp] theorem abandon_dstBase (s : State) : s.abandon.dstBase = s.dstBase := rfl
@[simp] theorem abandon_payBase (s : State) : s.abandon.payBase = s.payBase := rfl
@[simp] theorem abandon_payLen (s : State) : s.abandon.payLen = s.payLen := rfl
@[simp] theorem abandon_outBase (s : State) : s.abandon.outBase = s.outBase := rfl
@[simp] theorem abandon_result (s : State) : s.abandon.result = s.result := rfl
@[simp] theorem abandon_op (s : State) : s.abandon.op = s.op := rfl
@[simp] theorem abandon_internal (s : State) : s.abandon.internal = s.internal := rfl
@[simp] theorem abandon_pixAw (s : State) : s.abandon.pixAw = s.pixAw := rfl
@[simp] theorem abandon_byteAw (s : State) : s.abandon.byteAw = s.byteAw := rfl
@[simp] theorem abandon_script (s : State) : s.abandon.script = s.script := rfl
@[simp] theorem abandon_hostData (s : State) : s.abandon.hostData = s.hostData := rfl
@[simp] theorem abandon_hostPrior (s : State) : s.abandon.hostPrior = s.hostPrior := rfl
@[simp] theorem abandon_firstDraw (s : State) : s.abandon.firstDraw = s.firstDraw := rfl
@[simp] theorem abandon_ended (s : State) : s.abandon.ended = s.ended := rfl
@[simp] theorem abandon_others (s : State) : s.abandon.others = s.others := rfl

/-! ### `State.writeOperand`: it writes operand registers only -/

@[simp] theorem writeOperand_ctrlOp (s : State) (r : Reg) (v : Word) : (s.writeOperand r v).ctrlOp = s.ctrlOp := by
  cases r <;> rfl
@[simp] theorem writeOperand_irqEn (s : State) (r : Reg) (v : Word) : (s.writeOperand r v).irqEn = s.irqEn := by
  cases r <;> rfl
@[simp] theorem writeOperand_busy (s : State) (r : Reg) (v : Word) : (s.writeOperand r v).busy = s.busy := by
  cases r <;> rfl
@[simp] theorem writeOperand_done (s : State) (r : Reg) (v : Word) : (s.writeOperand r v).done = s.done := by
  cases r <;> rfl
@[simp] theorem writeOperand_err (s : State) (r : Reg) (v : Word) : (s.writeOperand r v).err = s.err := by
  cases r <;> rfl
@[simp] theorem writeOperand_result (s : State) (r : Reg) (v : Word) : (s.writeOperand r v).result = s.result := by
  cases r <;> rfl
@[simp] theorem writeOperand_op (s : State) (r : Reg) (v : Word) : (s.writeOperand r v).op = s.op := by
  cases r <;> rfl
@[simp] theorem writeOperand_internal (s : State) (r : Reg) (v : Word) : (s.writeOperand r v).internal = s.internal := by
  cases r <;> rfl
@[simp] theorem writeOperand_pix (s : State) (r : Reg) (v : Word) : (s.writeOperand r v).pix = s.pix := by
  cases r <;> rfl
@[simp] theorem writeOperand_bytes (s : State) (r : Reg) (v : Word) : (s.writeOperand r v).bytes = s.bytes := by
  cases r <;> rfl
@[simp] theorem writeOperand_pixAw (s : State) (r : Reg) (v : Word) : (s.writeOperand r v).pixAw = s.pixAw := by
  cases r <;> rfl
@[simp] theorem writeOperand_byteAw (s : State) (r : Reg) (v : Word) : (s.writeOperand r v).byteAw = s.byteAw := by
  cases r <;> rfl
@[simp] theorem writeOperand_script (s : State) (r : Reg) (v : Word) : (s.writeOperand r v).script = s.script := by
  cases r <;> rfl
@[simp] theorem writeOperand_hostData (s : State) (r : Reg) (v : Word) : (s.writeOperand r v).hostData = s.hostData := by
  cases r <;> rfl
@[simp] theorem writeOperand_hostPrior (s : State) (r : Reg) (v : Word) : (s.writeOperand r v).hostPrior = s.hostPrior := by
  cases r <;> rfl
@[simp] theorem writeOperand_firstDraw (s : State) (r : Reg) (v : Word) : (s.writeOperand r v).firstDraw = s.firstDraw := by
  cases r <;> rfl
@[simp] theorem writeOperand_ended (s : State) (r : Reg) (v : Word) : (s.writeOperand r v).ended = s.ended := by
  cases r <;> rfl
@[simp] theorem writeOperand_others (s : State) (r : Reg) (v : Word) : (s.writeOperand r v).others = s.others := by
  cases r <;> rfl
@[simp] theorem writeOperand_draws (s : State) (r : Reg) (v : Word) : (s.writeOperand r v).draws = s.draws := by
  cases r <;> rfl

/-! ### `State.writeStatus`: it writes DONE only -/

@[simp] theorem writeStatus_ctrlOp (s : State) (v : Word) : (s.writeStatus v).ctrlOp = s.ctrlOp := by
  unfold State.writeStatus; split <;> rfl
@[simp] theorem writeStatus_irqEn (s : State) (v : Word) : (s.writeStatus v).irqEn = s.irqEn := by
  unfold State.writeStatus; split <;> rfl
@[simp] theorem writeStatus_busy (s : State) (v : Word) : (s.writeStatus v).busy = s.busy := by
  unfold State.writeStatus; split <;> rfl
@[simp] theorem writeStatus_err (s : State) (v : Word) : (s.writeStatus v).err = s.err := by
  unfold State.writeStatus; split <;> rfl
@[simp] theorem writeStatus_dim (s : State) (v : Word) : (s.writeStatus v).dim = s.dim := by
  unfold State.writeStatus; split <;> rfl
@[simp] theorem writeStatus_srcBase (s : State) (v : Word) : (s.writeStatus v).srcBase = s.srcBase := by
  unfold State.writeStatus; split <;> rfl
@[simp] theorem writeStatus_dstBase (s : State) (v : Word) : (s.writeStatus v).dstBase = s.dstBase := by
  unfold State.writeStatus; split <;> rfl
@[simp] theorem writeStatus_payBase (s : State) (v : Word) : (s.writeStatus v).payBase = s.payBase := by
  unfold State.writeStatus; split <;> rfl
@[simp] theorem writeStatus_payLen (s : State) (v : Word) : (s.writeStatus v).payLen = s.payLen := by
  unfold State.writeStatus; split <;> rfl
@[simp] theorem writeStatus_outBase (s : State) (v : Word) : (s.writeStatus v).outBase = s.outBase := by
  unfold State.writeStatus; split <;> rfl
@[simp] theorem writeStatus_result (s : State) (v : Word) : (s.writeStatus v).result = s.result := by
  unfold State.writeStatus; split <;> rfl
@[simp] theorem writeStatus_op (s : State) (v : Word) : (s.writeStatus v).op = s.op := by
  unfold State.writeStatus; split <;> rfl
@[simp] theorem writeStatus_internal (s : State) (v : Word) : (s.writeStatus v).internal = s.internal := by
  unfold State.writeStatus; split <;> rfl
@[simp] theorem writeStatus_pix (s : State) (v : Word) : (s.writeStatus v).pix = s.pix := by
  unfold State.writeStatus; split <;> rfl
@[simp] theorem writeStatus_bytes (s : State) (v : Word) : (s.writeStatus v).bytes = s.bytes := by
  unfold State.writeStatus; split <;> rfl
@[simp] theorem writeStatus_pixAw (s : State) (v : Word) : (s.writeStatus v).pixAw = s.pixAw := by
  unfold State.writeStatus; split <;> rfl
@[simp] theorem writeStatus_byteAw (s : State) (v : Word) : (s.writeStatus v).byteAw = s.byteAw := by
  unfold State.writeStatus; split <;> rfl
@[simp] theorem writeStatus_script (s : State) (v : Word) : (s.writeStatus v).script = s.script := by
  unfold State.writeStatus; split <;> rfl
@[simp] theorem writeStatus_hostData (s : State) (v : Word) : (s.writeStatus v).hostData = s.hostData := by
  unfold State.writeStatus; split <;> rfl
@[simp] theorem writeStatus_hostPrior (s : State) (v : Word) : (s.writeStatus v).hostPrior = s.hostPrior := by
  unfold State.writeStatus; split <;> rfl
@[simp] theorem writeStatus_firstDraw (s : State) (v : Word) : (s.writeStatus v).firstDraw = s.firstDraw := by
  unfold State.writeStatus; split <;> rfl
@[simp] theorem writeStatus_ended (s : State) (v : Word) : (s.writeStatus v).ended = s.ended := by
  unfold State.writeStatus; split <;> rfl
@[simp] theorem writeStatus_others (s : State) (v : Word) : (s.writeStatus v).others = s.others := by
  unfold State.writeStatus; split <;> rfl
@[simp] theorem writeStatus_draws (s : State) (v : Word) : (s.writeStatus v).draws = s.draws := by
  unfold State.writeStatus; split <;> rfl

end Sys2Proof.Machine
end

