-- ==== Sys2Proof/Laws/Exec.lean ====
section
/-! SUPPORT. When each command's checks pass (spec/60_exceptions.md R221), and everything a command's completion can do
(spec/44_control.md R203). -/

namespace Sys2Proof.Machine

theorem fits_iff (size base len : Nat) : fits size base len = true ↔ len = 0 ∨ base + len ≤ size := by
  simp [fits]

theorem overlapPix_iff (a b t : Nat) : overlapPix a b t = true ↔ 0 < t ∧ a < b + t ∧ b < a + t := by
  simp [overlapPix, and_assoc]

theorem inRegion_iff (base len a : Nat) : inRegion base len a = true ↔ base ≤ a ∧ a < base + len := by
  simp [inRegion]

theorem encodeError_eq_none_iff (s : State) :
    s.encodeError = .none ↔ s.op.payloadLen ≠ 0 ∧ s.fitsPix s.op.src.toNat s.op.pixels = true ∧
      s.fitsPix s.op.dst.toNat s.op.pixels = true ∧ s.fitsByte s.op.pay.toNat s.op.payloadLen = true ∧
      overlapPix s.op.src.toNat s.op.dst.toNat s.op.pixels = false := by
  unfold State.encodeError
  split_ifs with h1 h2 h3
  · simp [h1]
  · simp only [false_iff]
    rintro ⟨_, hs, hd, hp, _⟩
    simp [hs, hd, hp] at h2
  · simp [h3]
  · simp_all

theorem decodeError_eq_none_iff (s : State) :
    s.decodeError = .none ↔ s.fitsPix s.op.src.toNat s.op.pixels = true ∧ s.decodeScan.zeroRun = 8 ∧
      s.fitsByte s.op.out.toNat s.decodeScan.count = true := by
  unfold State.decodeError
  split_ifs <;> simp_all

theorem execEncode_of_none (s : State) (h : s.encodeError = .none) :
    exec .encode s = .next (s.writeEncoded.finish .none s.op.slotsWritten) := by
  simp [exec, execEncode, h]

theorem execEncode_of_error (s : State) (h : s.encodeError ≠ .none) :
    exec .encode s = .next (s.raise s.encodeError) := by
  simp [exec, execEncode, h]

theorem execDecode_of_none (s : State) (h : s.decodeError = .none) :
    exec .decode s = .next (s.writeDecoded.finish .none s.decodeScan.count) := by
  simp [exec, execDecode, h]

theorem execDecode_of_error (s : State) (h : s.decodeError ≠ .none) :
    exec .decode s = .next (s.raise s.decodeError) := by
  simp [exec, execDecode, h]

theorem errorCode_eq_zero_iff (e : ErrorCode) : errorCode e = 0#4 ↔ e = .none := by cases e <;> decide

theorem errorCode_legal (e : ErrorCode) : (errorCode e).toNat ≤ 5 := by cases e <;> decide

/-- Everything a completion can do: write its region and report success, or report an error and write nothing. -/
inductive ExecCase (s : State) : Instr → State → Prop where
  | encoded (h : s.encodeError = .none) : ExecCase s .encode (s.writeEncoded.finish .none s.op.slotsWritten)
  | decoded (h : s.decodeError = .none) : ExecCase s .decode (s.writeDecoded.finish .none s.decodeScan.count)
  | counted : ExecCase s .capacity (s.finish .none s.op.slots)
  | encodeFailed (h : s.encodeError ≠ .none) : ExecCase s .encode (s.raise s.encodeError)
  | decodeFailed (h : s.decodeError ≠ .none) : ExecCase s .decode (s.raise s.decodeError)
  | illegal : ExecCase s .reservedOp3 (s.raise .illegalOp)

/-- Every command completes, in one of those ways. -/
theorem exec_answers (i : Instr) (s : State) : ∃ t, exec i s = .next t ∧ ExecCase s i t := by
  cases i with
  | encode =>
    by_cases h : s.encodeError = .none
    · exact ⟨_, execEncode_of_none s h, .encoded h⟩
    · exact ⟨_, execEncode_of_error s h, .encodeFailed h⟩
  | decode =>
    by_cases h : s.decodeError = .none
    · exact ⟨_, execDecode_of_none s h, .decoded h⟩
    · exact ⟨_, execDecode_of_error s h, .decodeFailed h⟩
  | capacity => exact ⟨_, rfl, .counted⟩
  | reservedOp3 => exact ⟨_, rfl, .illegal⟩

theorem exec_cases {i : Instr} {s t : State} (h : exec i s = .next t) : ExecCase s i t := by
  obtain ⟨t', ht, hc⟩ := exec_answers i s
  rw [h] at ht
  cases ht
  exact hc

/-- What every completion leaves, whichever the command: the core is idle with DONE set and nothing on record, the host's
registers, the sizes, the schedule, the host's data and the other instances are as before, and no draw is taken back. -/
theorem ExecCase.frame {i : Instr} {s t : State} (h : ExecCase s i t) :
    Completed t ∧ SameHostRegisters s t ∧ SameSizes s t ∧ t.script = s.script ∧ SameHostReads s t ∧
      t.others = s.others ∧ t.ended = [] ∧ s.draws ≤ t.draws := by
  cases h <;> simp [Completed, SameHostRegisters, SameSizes, SameHostReads]

/-- Every completion reports a code of R220. -/
theorem ExecCase.err_legal {i : Instr} {s t : State} (h : ExecCase s i t) : t.err.toNat ≤ 5 := by
  cases h <;> exact errorCode_legal _

end Sys2Proof.Machine
end

