-- ==== Sys2Proof/Laws/Instances.lean ====
section
/-! SUPPORT. Several instances (spec/60_exceptions.md R233): the running commands, the change of the addressed instance,
clashes, and everything a completion can do with clashes on record. -/

namespace Sys2Proof.Machine

/-! ### Running commands -/

theorem mem_runningOps {l : List Instance} {o : Operands} :
    o ∈ runningOps l ↔ ∃ x ∈ l, x.busy = true ∧ x.op = o := by
  simp [runningOps, and_assoc]

theorem runningOps_eq_nil {l : List Instance} (h : ∀ x ∈ l, x.busy = false) : runningOps l = [] := by
  unfold runningOps
  rw [List.filter_eq_nil_iff.mpr (fun x hx => by simp [h x hx]), List.map_nil]

@[simp] theorem withScript_running (s : State) (l : List Move) : (s.withScript l).running = s.running := rfl

theorem mem_running_of_busy {s : State} (h : s.busy = true) : s.op ∈ s.running :=
  mem_runningOps.mpr ⟨s.selected, List.mem_cons_self .., h, rfl⟩

theorem running_eq_nil_iff (s : State) : s.running = [] ↔ s.busy = false ∧ ∀ x ∈ s.others, x.busy = false := by
  constructor
  · intro h
    have key : ∀ x ∈ s.instances, x.busy = false := by
      intro x hx
      cases hb : x.busy with
      | false => rfl
      | true =>
        have := mem_runningOps.mpr ⟨x, hx, hb, rfl⟩
        rw [State.running] at h
        simp [h] at this
    exact ⟨key s.selected (List.mem_cons_self ..), fun x hx => key x (List.mem_cons_of_mem _ hx)⟩
  · rintro ⟨h, ho⟩
    refine runningOps_eq_nil fun x hx => ?_
    rcases List.mem_cons.mp hx with rfl | hx
    · exact h
    · exact ho x hx

theorem runningOps_eq_nil_iff {l : List Instance} : runningOps l = [] ↔ ∀ x ∈ l, x.busy = false := by
  refine ⟨fun h x hx => ?_, runningOps_eq_nil⟩
  cases hb : x.busy with
  | false => rfl
  | true =>
    have := mem_runningOps.mpr ⟨x, hx, hb, rfl⟩
    simp [h] at this

/-! ### What an instance keeps on record of a command that ends beside its own -/

@[simp] theorem meet_own (x : Instance) (o : Operands) (f : Footprint) : (x.meet o f).own = x.own := by
  unfold Instance.meet
  split <;> rfl

@[simp] theorem meet_busy (x : Instance) (o : Operands) (f : Footprint) : (x.meet o f).busy = x.busy := by
  unfold Instance.meet
  split <;> rfl

@[simp] theorem meet_op (x : Instance) (o : Operands) (f : Footprint) : (x.meet o f).op = x.op := by
  unfold Instance.meet
  split <;> rfl

@[simp] theorem meet_firstDraw (x : Instance) (o : Operands) (f : Footprint) :
    (x.meet o f).firstDraw = x.firstDraw := by
  unfold Instance.meet
  split <;> rfl

theorem meet_ended (x : Instance) (o : Operands) (f : Footprint) :
    (x.meet o f).ended = if x.busy = true ∧ x.op.clashes o = true then f :: x.ended else x.ended := by
  unfold Instance.meet
  by_cases h : x.busy = true ∧ x.op.clashes o = true
  · rw [if_pos (by simpa using h), if_pos h]
  · rw [if_neg (by simpa using h), if_neg h]

/-- An instance that is idle, or whose command cannot clash with the one that ends, stays as it is. -/
theorem meet_of_not {x : Instance} {o : Operands} (h : x.busy = true → x.op.clashes o = false) (f : Footprint) :
    x.meet o f = x := by
  unfold Instance.meet
  refine if_neg fun hc => ?_
  rw [Bool.and_eq_true] at hc
  simp [h hc.1] at hc

@[simp] theorem recordEnding_selected (s : State) (o : Operands) (f : Footprint) :
    (s.recordEnding o f).selected = s.selected := rfl
@[simp] theorem recordEnding_busy (s : State) (o : Operands) (f : Footprint) : (s.recordEnding o f).busy = s.busy := rfl
@[simp] theorem recordEnding_done (s : State) (o : Operands) (f : Footprint) : (s.recordEnding o f).done = s.done := rfl
@[simp] theorem recordEnding_err (s : State) (o : Operands) (f : Footprint) : (s.recordEnding o f).err = s.err := rfl
@[simp] theorem recordEnding_result (s : State) (o : Operands) (f : Footprint) :
    (s.recordEnding o f).result = s.result := rfl
@[simp] theorem recordEnding_op (s : State) (o : Operands) (f : Footprint) : (s.recordEnding o f).op = s.op := rfl
@[simp] theorem recordEnding_pix (s : State) (o : Operands) (f : Footprint) : (s.recordEnding o f).pix = s.pix := rfl
@[simp] theorem recordEnding_bytes (s : State) (o : Operands) (f : Footprint) :
    (s.recordEnding o f).bytes = s.bytes := rfl
@[simp] theorem recordEnding_pixAw (s : State) (o : Operands) (f : Footprint) :
    (s.recordEnding o f).pixAw = s.pixAw := rfl
@[simp] theorem recordEnding_byteAw (s : State) (o : Operands) (f : Footprint) :
    (s.recordEnding o f).byteAw = s.byteAw := rfl
@[simp] theorem recordEnding_script (s : State) (o : Operands) (f : Footprint) :
    (s.recordEnding o f).script = s.script := rfl
@[simp] theorem recordEnding_draws (s : State) (o : Operands) (f : Footprint) :
    (s.recordEnding o f).draws = s.draws := rfl
@[simp] theorem recordEnding_others (s : State) (o : Operands) (f : Footprint) :
    (s.recordEnding o f).others = s.others.map fun x => x.meet o f := rfl

theorem recordEnding_own (s : State) (o : Operands) (f : Footprint) :
    (s.recordEnding o f).others.map Instance.own = s.others.map Instance.own := by
  simp

/-- With no other instance that runs a command that can clash with the one that ends, all stays as it is. -/
theorem recordEnding_of_not {s : State} {o : Operands} (h : ∀ q ∈ runningOps s.others, q.clashes o = false)
    (f : Footprint) : s.recordEnding o f = s := by
  have : s.others.map (fun x => x.meet o f) = s.others := by
    refine (List.map_congr_left fun x hx => ?_).trans s.others.map_id
    exact meet_of_not (fun hb => h x.op (mem_runningOps.mpr ⟨x, hx, hb, rfl⟩)) f
  rw [State.recordEnding, this]

/-! ### The change of the addressed instance -/

@[simp] theorem withInstances_selected (s : State) (x : Instance) (l : List Instance) :
    (s.withInstances x l).selected = x := rfl
@[simp] theorem withInstances_others (s : State) (x : Instance) (l : List Instance) :
    (s.withInstances x l).others = l := rfl
@[simp] theorem withInstances_busy (s : State) (x : Instance) (l : List Instance) :
    (s.withInstances x l).busy = x.busy := rfl
@[simp] theorem withInstances_pix (s : State) (x : Instance) (l : List Instance) :
    (s.withInstances x l).pix = s.pix := rfl
@[simp] theorem withInstances_bytes (s : State) (x : Instance) (l : List Instance) :
    (s.withInstances x l).bytes = s.bytes := rfl
@[simp] theorem withInstances_pixAw (s : State) (x : Instance) (l : List Instance) :
    (s.withInstances x l).pixAw = s.pixAw := rfl
@[simp] theorem withInstances_byteAw (s : State) (x : Instance) (l : List Instance) :
    (s.withInstances x l).byteAw = s.byteAw := rfl
@[simp] theorem withInstances_script (s : State) (x : Instance) (l : List Instance) :
    (s.withInstances x l).script = s.script := rfl
@[simp] theorem withInstances_hostData (s : State) (x : Instance) (l : List Instance) :
    (s.withInstances x l).hostData = s.hostData := rfl
@[simp] theorem withInstances_hostPrior (s : State) (x : Instance) (l : List Instance) :
    (s.withInstances x l).hostPrior = s.hostPrior := rfl
@[simp] theorem withInstances_draws (s : State) (x : Instance) (l : List Instance) :
    (s.withInstances x l).draws = s.draws := rfl

theorem selectInstance_of_some {s : State} {k : Nat} {x : Instance} (h : s.others[k]? = some x) :
    selectInstance k s = .next (s.withInstances x (s.others.set k s.selected)) := by
  simp only [selectInstance, h]

theorem selectInstance_of_none {s : State} {k : Nat} (h : s.others[k]? = none) :
    selectInstance k s = .refused (.noSuchInstance k) := by
  simp only [selectInstance, h]

/-- Changing an entry of a list for another value: the list with the old entry in front is the changed list with the new
one in front, but for the order. -/
theorem cons_set_perm {α : Type} (l : List α) (k : Nat) (a x : α) (h : l[k]? = some x) :
    (x :: l.set k a).Perm (a :: l) := by
  induction l generalizing k with
  | nil => simp at h
  | cons b l ih =>
    cases k with
    | zero =>
      obtain rfl : b = x := by simpa using h
      exact List.Perm.swap ..
    | succ k =>
      have hk := ih k (by simpa using h)
      exact (List.Perm.swap ..).trans ((hk.cons b).trans (List.Perm.swap ..))

/-! ### The other running instances -/

theorem mem_peers {s p : State} :
    p ∈ s.peers ↔ ∃ k x, s.others[k]? = some x ∧ x.busy = true ∧
      p = s.withInstances x (s.others.set k s.selected) := by
  simp only [State.peers, List.mem_filterMap, List.mem_zipIdx_iff_getElem?]
  constructor
  · rintro ⟨⟨x, k⟩, hk, hp⟩
    split at hp
    · next hb => exact ⟨k, x, hk, hb, by simpa using hp.symm⟩
    · cases hp
  · rintro ⟨k, x, hk, hb, rfl⟩
    exact ⟨(x, k), hk, by simp [hb]⟩

theorem peers_eq_nil {s : State} (h : runningOps s.others = []) : s.peers = [] := by
  refine List.eq_nil_iff_forall_not_mem.mpr fun p hp => ?_
  obtain ⟨k, x, hk, hb, -⟩ := mem_peers.mp hp
  have := runningOps_eq_nil_iff.mp h x (List.mem_of_getElem? hk)
  simp [hb] at this

/-! ### What commands touch -/

theorem Region.holds_iff (r : Region) (a : Nat) : r.holds a = true ↔ r.base ≤ a ∧ a < r.base + r.len :=
  inRegion_iff _ _ _

@[simp] theorem Region.empty_holds (a : Nat) : Region.empty.holds a = false := by
  simp [Region.holds, Region.empty, inRegion]

theorem pixReads_holds (s : State) (i : Nat) :
    s.pixReads.holds i = true ↔
      (instrOfOp s.op.op = .encode ∧ s.encodeError = .none ∨
        instrOfOp s.op.op = .decode ∧ s.fitsPix s.op.src.toNat s.op.pixels = true) ∧
      s.op.src.toNat ≤ i ∧ i < s.op.src.toNat + s.op.pixels := by
  unfold State.pixReads
  cases h : instrOfOp s.op.op <;> simp only [reduceCtorEq, false_and, or_self, true_and, or_false, false_or]
  · split <;> simp_all [Region.holds_iff]
  · split <;> simp_all [Region.holds_iff]
  · simp
  · simp

theorem pixWrites_holds (s : State) (i : Nat) :
    s.pixWrites.holds i = true ↔
      instrOfOp s.op.op = .encode ∧ s.encodeError = .none ∧
        s.op.dst.toNat ≤ i ∧ i < s.op.dst.toNat + s.op.pixels := by
  unfold State.pixWrites
  cases h : instrOfOp s.op.op <;> simp only [reduceCtorEq, false_and, true_and]
  · split <;> simp_all [Region.holds_iff]
  all_goals simp

theorem byteReads_holds (s : State) (a : Nat) :
    s.byteReads.holds a = true ↔
      instrOfOp s.op.op = .encode ∧ s.encodeError = .none ∧
        s.op.pay.toNat ≤ a ∧ a < s.op.pay.toNat + s.op.payloadLen := by
  unfold State.byteReads
  cases h : instrOfOp s.op.op <;> simp only [reduceCtorEq, false_and, true_and]
  · split <;> simp_all [Region.holds_iff]
  all_goals simp

theorem byteWrites_holds (s : State) (a : Nat) :
    s.byteWrites.holds a = true ↔
      instrOfOp s.op.op = .decode ∧ s.seenPix.decodeError = .none ∧
        s.op.out.toNat ≤ a ∧ a < s.op.out.toNat + s.seenPix.decodeScan.count := by
  unfold State.byteWrites
  cases h : instrOfOp s.op.op <;> simp only [reduceCtorEq, false_and, true_and]
  on_goal 2 => split <;> simp_all [Region.holds_iff]
  all_goals simp

/-- A command reads and writes only in the regions its operands name. -/
theorem pixReads_inSource {s : State} {i : Nat} (h : s.pixReads.holds i = true) : s.op.inSource i = true := by
  rcases (pixReads_holds s i).mp h with ⟨⟨hi, -⟩ | ⟨hi, -⟩, h⟩ <;>
    simpa [Operands.inSource, Operands.sourceLen, hi, inRegion] using h

theorem pixWrites_inDestination {s : State} {i : Nat} (h : s.pixWrites.holds i = true) :
    s.op.inDestination i = true := by
  obtain ⟨hi, -, h⟩ := (pixWrites_holds s i).mp h
  simpa [Operands.inDestination, Operands.destinationLen, hi, inRegion] using h

theorem byteReads_inPayload {s : State} {a : Nat} (h : s.byteReads.holds a = true) : s.op.inPayload a = true := by
  obtain ⟨hi, -, h⟩ := (byteReads_holds s a).mp h
  simpa [Operands.inPayload, Operands.payloadRegionLen, hi, inRegion] using h

theorem byteWrites_inOutput {s : State} (hs : s.internal = Internal.initial) {a : Nat}
    (h : s.byteWrites.holds a = true) : s.op.inOutput a = true := by
  obtain ⟨hi, -, h⟩ := (byteWrites_holds s a).mp h
  have hg : s.seenPix.decodeScan.count ≤ s.op.groups := (decodeScan_count s.seenPix hs).2
  simp only [Operands.inOutput, Operands.outputLen, hi, inRegion_iff]
  omega

/-- What the other commands write of pixel space, command by command. -/
theorem foreignPix_iff (s : State) (i : Nat) :
    s.foreignPix i = true ↔ ∃ f ∈ s.met, f.pixWritten.holds i = true := by
  simp only [State.foreignPix, State.met, Bool.or_eq_true, List.any_eq_true, List.mem_append, List.mem_map, or_and_right,
    exists_or]
  refine or_congr Iff.rfl ⟨?_, ?_⟩
  · rintro ⟨p, hp, h⟩
    exact ⟨_, ⟨p, hp, rfl⟩, h⟩
  · rintro ⟨_, ⟨p, hp, rfl⟩, h⟩
    exact ⟨p, hp, h⟩

theorem met_eq_nil {s : State} (he : s.ended = []) (h : runningOps s.others = []) : s.met = [] := by
  simp [State.met, he, peers_eq_nil h]

theorem peers_eq_nil_iff (s : State) : s.peers = [] ↔ runningOps s.others = [] := by
  refine ⟨fun h => runningOps_eq_nil fun x hx => ?_, peers_eq_nil⟩
  obtain ⟨k, hk⟩ := List.mem_iff_getElem?.mp hx
  cases hb : x.busy with
  | false => rfl
  | true =>
    have := mem_peers.mpr ⟨k, x, hk, hb, rfl⟩
    simp [h] at this

/-! ### Clashes -/

theorem regionsMeet_iff (a n b m : Nat) :
    regionsMeet a n b m = true ↔ ∃ i, inRegion a n i = true ∧ inRegion b m i = true := by
  simp only [regionsMeet, Bool.and_eq_true, decide_eq_true_eq, inRegion_iff]
  constructor
  · rintro ⟨⟨⟨hn, hm⟩, h1⟩, h2⟩
    exact ⟨max a b, by omega, by omega⟩
  · rintro ⟨i, h1, h2⟩
    omega

theorem Region.meets_iff (r q : Region) : r.meets q = true ↔ ∃ i, r.holds i = true ∧ q.holds i = true :=
  regionsMeet_iff _ _ _ _

/-- A command writes into what another touches exactly when they share a location that it writes (R233). -/
theorem Footprint.writesInto_iff (f g : Footprint) :
    f.writesInto g = true ↔
      (∃ i, f.pixWritten.holds i = true ∧ (g.pixRead.holds i = true ∨ g.pixWritten.holds i = true)) ∨
        ∃ a, f.byteWritten.holds a = true ∧ (g.byteRead.holds a = true ∨ g.byteWritten.holds a = true) := by
  simp only [Footprint.writesInto, Bool.or_eq_true, Region.meets_iff, and_or_left, exists_or, or_assoc]

theorem Footprint.clashes_comm (f g : Footprint) : f.clashes g = g.clashes f := by
  simp only [Footprint.clashes, Bool.or_comm]

/-- A command writes into another's regions exactly when they share a location that it could write (R233). -/
theorem writesInto_iff (o r : Operands) :
    o.writesInto r = true ↔
      (∃ i, o.inDestination i = true ∧ (r.inSource i = true ∨ r.inDestination i = true)) ∨
        ∃ a, o.inOutput a = true ∧ (r.inPayload a = true ∨ r.inOutput a = true) := by
  simp only [Operands.writesInto, Bool.or_eq_true, regionsMeet_iff, Operands.inDestination, Operands.inSource,
    Operands.inOutput, Operands.inPayload, and_or_left, exists_or, or_assoc]

theorem clashes_comm (o r : Operands) : o.clashes r = r.clashes o := by
  simp only [Operands.clashes, Bool.or_comm]

/-- What clashes in what it touches clashes in the regions that its operands name. -/
theorem opsClash_of_footprints {s p : State} (hs : s.internal = Internal.initial) (hp : p.internal = Internal.initial)
    (h : s.footprint.clashes p.footprint = true) : s.op.clashes p.op = true := by
  have key : ∀ {s p : State}, s.internal = Internal.initial → p.internal = Internal.initial →
      s.footprint.writesInto p.footprint = true → s.op.writesInto p.op = true := by
    intro s p hs hp h
    rw [Sys2Proof.Machine.writesInto_iff]
    rcases (Footprint.writesInto_iff _ _).mp h with ⟨i, hw, ht⟩ | ⟨a, hw, ht⟩
    · exact .inl ⟨i, pixWrites_inDestination hw, ht.imp pixReads_inSource pixWrites_inDestination⟩
    · exact .inr ⟨a, byteWrites_inOutput hs hw, ht.imp byteReads_inPayload (byteWrites_inOutput hp)⟩
  simp only [Footprint.clashes, Operands.clashes, Bool.or_eq_true] at h ⊢
  exact h.imp (key hs hp) (key hp hs)

/-! ### Commands in a clash -/

@[simp] theorem seen_op (s : State) : s.seen.op = s.op := rfl
@[simp] theorem seen_busy (s : State) : s.seen.busy = s.busy := rfl
@[simp] theorem seen_internal (s : State) : s.seen.internal = s.internal := rfl
@[simp] theorem seen_pixAw (s : State) : s.seen.pixAw = s.pixAw := rfl
@[simp] theorem seen_byteAw (s : State) : s.seen.byteAw = s.byteAw := rfl
@[simp] theorem seen_draws (s : State) : s.seen.draws = s.draws := rfl
@[simp] theorem seenPix_op (s : State) : s.seenPix.op = s.op := rfl
@[simp] theorem seenPix_internal (s : State) : s.seenPix.internal = s.internal := rfl

@[simp] theorem settle_busy (s t : State) : (s.settle t).busy = t.busy := rfl
@[simp] theorem settle_done (s t : State) : (s.settle t).done = t.done := rfl
@[simp] theorem settle_err (s t : State) : (s.settle t).err = t.err := rfl
@[simp] theorem settle_result (s t : State) : (s.settle t).result = t.result := rfl
@[simp] theorem settle_others (s t : State) : (s.settle t).others = t.others := rfl
@[simp] theorem settle_ended (s t : State) : (s.settle t).ended = t.ended := rfl
@[simp] theorem settle_draws (s t : State) :
    (s.settle t).draws = t.draws + s.op.destinationLen + s.op.outputLen := rfl

/-- ENCODE's checks look at the operands and the sizes only. -/
@[simp] theorem seen_encodeError (s : State) : s.seen.encodeError = s.encodeError := rfl

/-- The scan reads pixel space only. -/
@[simp] theorem seen_decodeScan (s : State) : s.seen.decodeScan = s.seenPix.decodeScan := rfl

@[simp] theorem seen_decodeError (s : State) : s.seen.decodeError = s.seenPix.decodeError := rfl

/-- What the running command reads in pixel space: draws in its source where another command writes. -/
theorem seen_pix (s : State) (h : Memory.wf s.pix) (i : Nat) :
    memRead s.seen.pix i =
      if s.op.inSource i = true ∧ i < 2 ^ s.pixAw ∧ ∃ f ∈ s.met, f.pixWritten.holds i = true
      then Config.freeWord (s.firstDraw + (i - s.op.src.toNat)) else memRead s.pix i := by
  show memRead (drawRange _ _ _ s.pix _ _ _) i = _
  rw [memRead_drawRange _ _ _ _ h]
  refine if_congr ?_ rfl rfl
  rw [foreignPix_iff, Operands.inSource, inRegion_iff, and_assoc]

/-- What the running command reads in byte space. -/
theorem seen_bytes (s : State) (h : Memory.wf s.bytes) (a : Nat) :
    memRead s.seen.bytes a =
      if s.op.inPayload a = true ∧ a < 2 ^ s.byteAw ∧ ∃ f ∈ s.met, f.byteWritten.holds a = true
      then Config.freeByte (s.firstDraw + (a - s.op.pay.toNat)) else memRead s.bytes a := by
  show memRead (drawRange _ _ _ s.bytes _ _ _) a = _
  rw [memRead_drawRange _ _ _ _ h]
  refine if_congr ?_ rfl rfl
  rw [Operands.inPayload, inRegion_iff, and_assoc, List.any_eq_true]

theorem seen_pix_wf {s : State} (h : Memory.wf s.pix) : Memory.wf s.seen.pix := drawRange_wf _ _ _ _ h _ _ _

theorem seen_bytes_wf {s : State} (h : Memory.wf s.bytes) : Memory.wf s.seen.bytes := drawRange_wf _ _ _ _ h _ _ _

theorem seen_pix_within {s : State} (h : Memory.within (2 ^ s.pixAw) s.pix) :
    Memory.within (2 ^ s.pixAw) s.seen.pix := drawRange_within _ _ _ _ h _ _ _

theorem seen_bytes_within {s : State} (h : Memory.within (2 ^ s.byteAw) s.bytes) :
    Memory.within (2 ^ s.byteAw) s.seen.bytes := drawRange_within _ _ _ _ h _ _ _

theorem settle_pix_wf {s t : State} (h : Memory.wf t.pix) : Memory.wf (s.settle t).pix :=
  drawRange_wf _ _ _ _ (overlayRange_wf _ _ _ h _ _) _ _ _

theorem settle_bytes_wf {s t : State} (h : Memory.wf t.bytes) : Memory.wf (s.settle t).bytes :=
  drawRange_wf _ _ _ _ (overlayRange_wf _ _ _ h _ _) _ _ _

theorem settle_pix_within {s t : State} (h : Memory.within (2 ^ s.pixAw) t.pix) :
    Memory.within (2 ^ s.pixAw) (s.settle t).pix :=
  drawRange_within _ _ _ _ (overlayRange_within _ _ _ h (fun _ ha => by simpa using (Bool.and_eq_true_iff.mp ha).1)
    _ _) _ _ _

theorem settle_bytes_within {s t : State} (h : Memory.within (2 ^ s.byteAw) t.bytes) :
    Memory.within (2 ^ s.byteAw) (s.settle t).bytes :=
  drawRange_within _ _ _ _ (overlayRange_within _ _ _ h (fun _ ha => by simpa using (Bool.and_eq_true_iff.mp ha).1)
    _ _) _ _ _

/-- What settling leaves in pixel space: draws in the written locations of the clash, what was there before in the read
ones, and what the command left elsewhere. -/
theorem settle_pix (s t : State) (h : Memory.wf t.pix) (i : Nat) :
    memRead (s.settle t).pix i =
      if s.footprint.pixWritten.holds i = true ∧ i < 2 ^ s.pixAw ∧
        ∃ f ∈ s.met, f.pixRead.holds i = true ∨ f.pixWritten.holds i = true
      then Config.freeWord (t.draws + (i - s.op.dst.toNat))
      else if s.op.inSource i = true ∧ i < 2 ^ s.pixAw ∧ ∃ f ∈ s.met, f.pixWritten.holds i = true
      then memRead s.pix i else memRead t.pix i := by
  rw [State.settle, memRead_drawRange _ _ _ _ (overlayRange_wf _ _ _ h _ _), memRead_overlayRange _ _ _ h]
  refine if_congr ?_ rfl (if_congr ?_ rfl rfl)
  · simp only [Bool.and_eq_true, List.any_eq_true, Bool.or_eq_true]
    refine ⟨fun ⟨_, _, h3, h4, h5⟩ => ⟨h4, h3, h5⟩, fun ⟨h4, h3, h5⟩ => ?_⟩
    have hd := (inRegion_iff _ _ _).mp (pixWrites_inDestination h4)
    exact ⟨hd.1, hd.2, h3, h4, h5⟩
  · rw [Bool.and_eq_true, foreignPix_iff, Operands.inSource, inRegion_iff, decide_eq_true_eq, and_assoc]

/-- What settling leaves in byte space. -/
theorem settle_bytes (s t : State) (hs : s.internal = Internal.initial) (h : Memory.wf t.bytes) (a : Nat) :
    memRead (s.settle t).bytes a =
      if s.footprint.byteWritten.holds a = true ∧ a < 2 ^ s.byteAw ∧
        ∃ f ∈ s.met, f.byteRead.holds a = true ∨ f.byteWritten.holds a = true
      then Config.freeByte (t.draws + (a - s.op.out.toNat))
      else if s.op.inPayload a = true ∧ a < 2 ^ s.byteAw ∧ ∃ f ∈ s.met, f.byteWritten.holds a = true
      then memRead s.bytes a else memRead t.bytes a := by
  rw [State.settle, memRead_drawRange _ _ _ _ (overlayRange_wf _ _ _ h _ _), memRead_overlayRange _ _ _ h]
  refine if_congr ?_ rfl (if_congr ?_ rfl rfl)
  · simp only [Bool.and_eq_true, List.any_eq_true, Bool.or_eq_true]
    refine ⟨fun ⟨_, _, h3, h4, h5⟩ => ⟨h4, h3, h5⟩, fun ⟨h4, h3, h5⟩ => ?_⟩
    have hd := (inRegion_iff _ _ _).mp (byteWrites_inOutput hs h4)
    exact ⟨hd.1, hd.2, h3, h4, h5⟩
  · rw [Bool.and_eq_true, List.any_eq_true, Operands.inPayload, inRegion_iff, decide_eq_true_eq, and_assoc]

/-- Everything a completion can do: exec with no clash, and exec on what the command sees, settled, with one; the other
instances keep on record that it has ended. -/
inductive CompleteCase (s : State) (i : Instr) : State → Prop where
  | alone (u : State) (hr : s.rivals = []) (h : ExecCase s i u) :
      CompleteCase s i (u.recordEnding s.op s.footprint)
  | clashing (u : State) (hr : s.rivals ≠ []) (h : ExecCase s.seen i u) :
      CompleteCase s i ((s.settle u).recordEnding s.op s.footprint)

theorem completeCommand_alone {s u : State} (h : s.rivals = []) {i : Instr} (hu : exec i s = .next u) :
    completeCommand i s = .next (u.recordEnding s.op s.footprint) := by
  simp [completeCommand, h, hu, onNext]

theorem completeCommand_clashing {s u : State} (h : s.rivals ≠ []) {i : Instr} (hu : exec i s.seen = .next u) :
    completeCommand i s = .next ((s.settle u).recordEnding s.op s.footprint) := by
  have : s.rivals.isEmpty = false := by simpa using h
  simp [completeCommand, this, hu, onNext]

theorem completeCommand_answers (i : Instr) (s : State) : ∃ t, completeCommand i s = .next t ∧ CompleteCase s i t := by
  by_cases hr : s.rivals = []
  · obtain ⟨u, hu, hc⟩ := exec_answers i s
    exact ⟨_, completeCommand_alone hr hu, .alone u hr hc⟩
  · obtain ⟨u, hu, hc⟩ := exec_answers i s.seen
    exact ⟨_, completeCommand_clashing hr hu, .clashing u hr hc⟩

theorem completeCommand_cases {i : Instr} {s t : State} (h : completeCommand i s = .next t) : CompleteCase s i t := by
  obtain ⟨t', ht, hc⟩ := completeCommand_answers i s
  rw [h] at ht
  cases ht
  exact hc

/-- What every completion leaves, in a clash or not. -/
theorem CompleteCase.frame {i : Instr} {s t : State} (h : CompleteCase s i t) :
    Completed t ∧ SameHostRegisters s t ∧ SameSizes s t ∧ t.script = s.script ∧ SameHostReads s t ∧
      t.others = s.others.map (fun x => x.meet s.op s.footprint) ∧ t.ended = [] ∧ s.draws ≤ t.draws := by
  cases h with
  | alone u _ hc =>
    obtain ⟨h1, h2, h3, h4, h5, h6, h7, h8⟩ := hc.frame
    exact ⟨h1, h2, h3, h4, h5, by rw [recordEnding_others, h6], h7, h8⟩
  | clashing u _ hc =>
    obtain ⟨h1, h2, h3, h4, h5, h6, h7, h8⟩ := hc.frame
    refine ⟨h1, h2, h3, h4, h5, by rw [recordEnding_others, settle_others, h6]; rfl, h7, ?_⟩
    rw [recordEnding_draws, settle_draws]
    rw [seen_draws] at h8
    omega

theorem CompleteCase.err_legal {i : Instr} {s t : State} (h : CompleteCase s i t) : t.err.toNat ≤ 5 := by
  cases h with
  | alone _ _ hc => exact hc.err_legal
  | clashing u _ hc => exact hc.err_legal

/-! ### The invariant -/

theorem DrawsApart.symm {x y : Instance} (h : DrawsApart x y) : DrawsApart y x := fun hy hx => (h hx hy).symm

theorem Inv.addressed {s : State} (h : Inv s) : InstanceInv s.selected := h.instance_laws _ (List.mem_cons_self ..)

theorem Inv.done_of_busy {s : State} (h : Inv s) (hb : s.busy = true) : s.done = false := by
  have := h.addressed.busy_not_done
  simpa [State.selected, hb] using this

theorem Inv.err_of_busy {s : State} (h : Inv s) (hb : s.busy = true) : s.err = 0#4 := h.addressed.busy_err hb

theorem Inv.result_of_busy {s : State} (h : Inv s) (hb : s.busy = true) : s.result = 0#64 := h.addressed.busy_result hb

/-- A busy addressed core runs a command as its START left it. -/
theorem Inv.running {s : State} (h : Inv s) (hb : s.busy = true) : Running s := ⟨hb, h.addressed.busy_internal hb⟩

end Sys2Proof.Machine
end

