-- ==== Sys2Proof/Laws/Completion.lean ====
section
/-! SUPPORT. What a completion does to the two memories (spec/20_memory.md R69, R78; spec/60_exceptions.md R222). -/

namespace Sys2Proof.Machine

theorem Operands.slots_lt (o : Operands) : o.slots < 2 ^ 34 := by
  have hw := o.w.isLt
  have hh := o.h.isLt
  have : o.w.toNat * o.h.toNat ≤ 65535 * 65535 := Nat.mul_le_mul (by omega) (by omega)
  unfold Operands.slots Operands.pixels
  omega

/-- The memories keep their canonical form and stay inside their spaces, RESULT stays below 2^34, and an error leaves
RESULT = 0. -/
theorem ExecCase.memories {s t : State} {i : Instr} (h : ExecCase s i t) (hpw : Memory.wf s.pix)
    (hpi : Memory.within (2 ^ s.pixAw) s.pix) (hbw : Memory.wf s.bytes)
    (hbi : Memory.within (2 ^ s.byteAw) s.bytes) (hi : s.internal = Internal.initial) :
    Memory.wf t.pix ∧ Memory.within (2 ^ s.pixAw) t.pix ∧ Memory.wf t.bytes ∧
      Memory.within (2 ^ s.byteAw) t.bytes ∧ (t.err ≠ 0#4 → t.result = 0#64) ∧ t.result.toNat < 2 ^ 34 := by
  have hl := s.op.slots_lt
  cases h with
  | encoded h =>
    obtain ⟨_, _, hd, _, _⟩ := (encodeError_eq_none_iff s).mp h
    rw [State.fitsPix, fits_iff] at hd
    refine ⟨writeRange_wf _ hpw _ _, writeRange_within s.pix hpi s.op.dst.toNat s.encodedWords ?_, hbw, hbi,
      by simp [errorCode], ?_⟩
    · rw [← List.length_eq_zero_iff, encodedWords_length]
      exact hd
    · have : s.op.slotsWritten ≤ s.op.slots := Nat.min_le_right ..
      simp
      omega
  | decoded h =>
    obtain ⟨_, _, hf⟩ := (decodeError_eq_none_iff s).mp h
    obtain ⟨hc, hg⟩ := decodeScan_count s hi
    rw [State.fitsByte, fits_iff] at hf
    refine ⟨hpw, hpi, writeRange_wf _ hbw _ _, writeRange_within s.bytes hbi s.op.out.toNat _ ?_,
      by simp [errorCode], ?_⟩
    · rw [← List.length_eq_zero_iff, hc]
      exact hf
    · unfold Operands.groups at hg
      simp
      omega
  | counted =>
    refine ⟨hpw, hpi, hbw, hbi, by simp [errorCode], ?_⟩
    simp
    omega
  | encodeFailed h => exact ⟨hpw, hpi, hbw, hbi, fun _ => rfl, by simp⟩
  | decodeFailed h => exact ⟨hpw, hpi, hbw, hbi, fun _ => rfl, by simp⟩
  | illegal => exact ⟨hpw, hpi, hbw, hbi, fun _ => rfl, by simp⟩

/-- Pixel space changes only in the destination of a command that succeeds, byte space only in the RESULT bytes of its
output, and neither where the command reads. -/
theorem ExecCase.writes {s t : State} (h : ExecCase s (instrOfOp s.op.op) t) (hpw : Memory.wf s.pix)
    (hbw : Memory.wf s.bytes) (hi : s.internal = Internal.initial) :
    (∀ i, (t.err = 0#4 → s.op.inDestination i = false) → memRead t.pix i = memRead s.pix i) ∧
      (∀ a, (s.op.inOutput a = true → ¬a < s.op.out.toNat + t.result.toNat) →
        memRead t.bytes a = memRead s.bytes a) ∧
      (∀ i, s.op.inSource i = true → t.err = 0#4 → s.op.inDestination i = false) ∧
      ∀ a, s.op.inPayload a = true → s.op.inOutput a = false := by
  have hl := s.op.slots_lt
  generalize hii : instrOfOp s.op.op = i at h
  cases h with
  | encoded he =>
    obtain ⟨_, _, _, _, ho⟩ := (encodeError_eq_none_iff s).mp he
    refine ⟨fun i hn => memRead_writeRange_outside _ hpw _ _ _ ?_, fun _ _ => rfl, fun i hs _ => ?_, fun a _ => ?_⟩
    · rw [encodedWords_length, ← inRegion_iff]
      simpa [Operands.inDestination, Operands.destinationLen, hii] using hn rfl
    · have hn := mt (overlapPix_iff s.op.src.toNat s.op.dst.toNat s.op.pixels).mpr (by simp [ho])
      have hs := (inRegion_iff _ _ _).mp (by simpa [Operands.inSource, Operands.sourceLen, hii] using hs)
      refine Bool.eq_false_iff.mpr fun hd => ?_
      have hd := (inRegion_iff _ _ _).mp (by simpa [Operands.inDestination, Operands.destinationLen, hii] using hd)
      exact hn (by omega)
    · simp [Operands.inOutput, Operands.outputLen, hii, inRegion]
  | decoded he =>
    obtain ⟨hc, hg⟩ := decodeScan_count s hi
    refine ⟨fun _ _ => rfl, fun a hn => memRead_writeRange_outside _ hbw _ _ _ ?_, fun i _ _ => ?_, fun a ha => ?_⟩
    · rw [hc]
      rintro ⟨h1, h2⟩
      refine hn ?_ ?_
      · simp only [Operands.inOutput, Operands.outputLen, hii, inRegion_iff]
        omega
      · unfold Operands.groups at hg
        simp
        omega
    · simp [Operands.inDestination, Operands.destinationLen, hii, inRegion]
    · simp [Operands.inPayload, Operands.payloadRegionLen, hii, inRegion] at ha
      omega
  | encodeFailed he =>
    refine ⟨fun _ _ => rfl, fun _ _ => rfl, fun _ _ h => absurd ((errorCode_eq_zero_iff _).mp h) he, fun _ _ => ?_⟩
    simp [Operands.inOutput, Operands.outputLen, hii, inRegion]
  | decodeFailed he =>
    refine ⟨fun _ _ => rfl, fun _ _ => rfl, fun _ _ h => absurd ((errorCode_eq_zero_iff _).mp h) he, fun a ha => ?_⟩
    simp [Operands.inPayload, Operands.payloadRegionLen, hii, inRegion] at ha
    omega
  | counted =>
    refine ⟨fun _ _ => rfl, fun _ _ => rfl, fun _ _ _ => ?_, fun _ _ => ?_⟩
    · simp [Operands.inDestination, Operands.destinationLen, hii, inRegion]
    · simp [Operands.inOutput, Operands.outputLen, hii, inRegion]
  | illegal =>
    refine ⟨fun _ _ => rfl, fun _ _ => rfl, fun _ _ _ => ?_, fun _ _ => ?_⟩
    · simp [Operands.inDestination, Operands.destinationLen, hii, inRegion]
    · simp [Operands.inOutput, Operands.outputLen, hii, inRegion]

end Sys2Proof.Machine
end

