-- ==== Sys2Proof/Laws/Decode.lean ====
section
/-! SUPPORT. The command decoder in terms of the three bits it looks at (spec/30_encoding.md R95), and the fields of a
CTRL value. -/

namespace Sys2Proof

theorem and_seven (w : Word) : w &&& 0x00000007#32 = (w.extractLsb' 0 3).setWidth 32 := by
  ext k hk
  rcases Nat.lt_or_ge k 3 with h | h
  · interval_cases k <;> simp
  · interval_cases k <;> simp

/-- The row that a value of bits 2:0 selects. -/
theorem decode_of_low {w : Word} {c : BitVec 3} (h : w.extractLsb' 0 3 = c) :
    decode w = if c.getLsbD 0 then .ok (instrOfOp (c.extractLsb' 1 2)) else .error .notACommand := by
  have hs : ∀ r : CommandRow, r.mask = 0x00000007#32 → r.selects w = (c.setWidth 32 == r.pattern) := by
    intro r hr
    rw [CommandRow.selects, hr, and_seven, h]
  simp only [decode, commandTable, List.find?_cons, List.find?_nil, hs]
  clear hs h
  revert c
  decide

theorem low_getLsbD_zero (w : Word) : (w.extractLsb' 0 3).getLsbD 0 = w.getLsbD 0 := by
  simp

theorem low_extract_op (w : Word) : (w.extractLsb' 0 3).extractLsb' 1 2 = (parseCtrl w).op := by
  ext k hk
  have : k < 2 := hk
  interval_cases k <;> simp [parseCtrl]

/-- What the decoder reads: no command if START is 0, otherwise the command of the OP field. -/
theorem decode_eq (w : Word) :
    decode w = if w.getLsbD 0 then .ok (instrOfOp (parseCtrl w).op) else .error .notACommand := by
  rw [decode_of_low rfl, low_getLsbD_zero, low_extract_op]

theorem decode_eq_ok_iff (w : Word) (i : Instr) :
    decode w = .ok i ↔ w.getLsbD 0 = true ∧ instrOfOp (parseCtrl w).op = i := by
  rw [decode_eq]
  split <;> simp_all

theorem decode_eq_error_iff (w : Word) (e : DecodeError) :
    decode w = .error e ↔ w.getLsbD 0 = false ∧ e = .notACommand := by
  rw [decode_eq]
  cases w.getLsbD 0 <;> simp [eq_comm]

@[simp] theorem opCode_instrOfOp (op : BitVec 2) : (instrOfOp op).opCode = op := by
  revert op
  decide

theorem buildCtrl_getLsbD (f : CtrlFields) (k : Nat) :
    (buildCtrl f).getLsbD k =
      if k = 0 then f.start else if k < 3 then f.op.getLsbD (k - 1) else if k = 3 then f.irqEn
      else f.reserved.getLsbD (k - 4) := by
  unfold buildCtrl
  simp only [BitVec.getLsbD_append, BitVec.getLsbD_ofBool]
  rcases Nat.lt_or_ge k 4 with h | h
  · interval_cases k <;> simp
  · have h1 : ¬ k = 0 := by omega
    have h2 : ¬ k < 3 := by omega
    have h3 : ¬ k = 3 := by omega
    have h4 : ¬ k < 1 := by omega
    have h5 : ¬ k - 1 < 2 := by omega
    have h6 : ¬ k - 1 - 2 < 1 := by omega
    have h8 : ¬ k < 1 + (2 + 1) := by omega
    have h7 : k - 1 - 2 - 1 = k - 4 := by omega
    simp [h1, h2, h3, h8]

theorem parseCtrl_buildCtrl (f : CtrlFields) : parseCtrl (buildCtrl f) = f := by
  obtain ⟨r, q, op, st⟩ := f
  simp only [parseCtrl, CtrlFields.mk.injEq]
  refine ⟨?_, ?_, ?_, ?_⟩
  · ext k hk
    have h1 : ¬ 4 + k = 0 := by omega
    have h2 : ¬ 4 + k < 3 := by omega
    have h3 : ¬ 4 + k = 3 := by omega
    have h4 : 4 + k - 4 = k := by omega
    rw [BitVec.getElem_extractLsb', buildCtrl_getLsbD, if_neg h1, if_neg h2, if_neg h3, h4]
    exact BitVec.getLsbD_eq_getElem hk
  · exact buildCtrl_getLsbD _ 3
  · ext k hk
    have h1 : ¬ 1 + k = 0 := by omega
    have h2 : 1 + k < 3 := by omega
    have h4 : 1 + k - 1 = k := by omega
    rw [BitVec.getElem_extractLsb', buildCtrl_getLsbD, if_neg h1, if_pos h2, h4]
    exact BitVec.getLsbD_eq_getElem hk
  · exact buildCtrl_getLsbD _ 0

theorem regAt_offset (r : Reg) : regAt r.offset = some r := by cases r <;> rfl

theorem regAt_unmapped (offset : Nat) (h : 0x28 ≤ offset) : regAt offset = none := by
  unfold regAt
  rw [List.find?_eq_none]
  intro r _
  cases r <;> simp [Reg.offset] <;> omega

end Sys2Proof
end

