-- ==== Sys2Proof/Laws/Control.lean ====
section
/-! SUPPORT. Everything one step can do (spec/44_control.md R200), and what a CTRL write does (R202). -/

namespace Sys2Proof.Machine

/-- The step with a move pending is that move. -/
theorem step_of_script {s : State} {m : Move} {rest : List Move} (h : s.script = m :: rest) :
    step s = runMove m (s.withScript rest) := by
  simp only [step, runScheduled, h]

/-- With no move pending a running command completes. -/
theorem step_of_nil_busy {s : State} (h : s.script = []) (hb : s.busy = true) :
    step s = completeCommand (instrOfOp s.op.op) s := by
  simp only [step, runScheduled, h, runUnscheduled, coreComplete, hb, if_true]

/-- With no move pending and the addressed core idle, a running instance among the others is addressed. -/
theorem step_of_nil_idle {s : State} (h : s.script = []) (hb : s.busy = false) :
    step s = match s.others.findIdx? (·.busy) with
      | some k => selectInstance k s
      | none => .next s := by
  rw [show step s = runUnscheduled s by simp only [step, runScheduled, h]]
  exact if_neg (by simp [hb])

/-- A run goes on from the step's next state. -/
theorem run_succ_of_next {s t : State} (h : step s = .next t) (k : Nat) :
    Host.Core.run core (k + 1) s = Host.Core.run core k t := by
  have hs : core.step s = .next t := h
  simp only [Host.Core.run, hs]

/-- A run ends at a refused step. -/
theorem run_succ_of_refused {s : State} {r : Refusal} (h : step s = .refused r) (k : Nat) :
    Host.Core.run core (k + 1) s = .refused r := by
  have hs : core.step s = .refused r := h
  simp only [Host.Core.run, hs]

/-- A step that goes on is an idle platform keeping its state, an unscheduled completion or change of the addressed
instance, or the next pending move. -/
theorem step_cases {s t : State} (h : step s = .next t) :
    (s.script = [] ∧ s.busy = false ∧ t = s) ∨
      (s.script = [] ∧ s.busy = true ∧ CompleteCase s (instrOfOp s.op.op) t) ∨
      (s.script = [] ∧ s.busy = false ∧ ∃ k, selectInstance k s = .next t) ∨
      ∃ m rest, s.script = m :: rest ∧ runMove m (s.withScript rest) = .next t := by
  cases hs : s.script with
  | nil =>
    cases hb : s.busy with
    | false =>
      rw [step_of_nil_idle hs hb] at h
      split at h
      · next k _ => exact .inr (.inr (.inl ⟨rfl, rfl, k, h⟩))
      · cases h
        exact .inl ⟨rfl, rfl, rfl⟩
    | true =>
      rw [step_of_nil_busy hs hb] at h
      exact .inr (.inl ⟨rfl, rfl, completeCommand_cases h⟩)
  | cons m rest =>
    rw [step_of_script hs] at h
    exact .inr (.inr (.inr ⟨m, rest, rfl, h⟩))

theorem writeCtrl_of_command {s : State} {v : Word} {i : Instr} (h : decode v = .ok i) (hb : s.busy = false) :
    s.writeCtrl v = (s.setCtrl v).start i := by
  simp [State.writeCtrl, h, hb]

theorem writeCtrl_of_busy {s : State} {v : Word} (hb : s.busy = true) :
    s.writeCtrl v = s.setCtrl v := by
  unfold State.writeCtrl
  split <;> simp [hb]

theorem writeCtrl_of_noCommand {s : State} {v : Word} {e : DecodeError} (h : decode v = .error e) :
    s.writeCtrl v = s.setCtrl v := by
  simp [State.writeCtrl, h]

/-- Everything a CTRL write can do. -/
theorem writeCtrl_cases (s : State) (v : Word) :
    (∃ i, decode v = .ok i ∧ s.busy = false ∧
        s.writeCtrl v = (s.setCtrl v).start i) ∨
      ((v.getLsbD 0 = false ∨ s.busy = true) ∧
        s.writeCtrl v = s.setCtrl v) := by
  cases hd : decode v with
  | error e => exact .inr ⟨.inl ((decode_eq_error_iff v e).mp hd).1, writeCtrl_of_noCommand hd⟩
  | ok i =>
    cases hb : s.busy with
    | false => exact .inl ⟨i, rfl, rfl, writeCtrl_of_command hd hb⟩
    | true => exact .inr ⟨.inr rfl, writeCtrl_of_busy hb⟩

/-- A register write at a register's offset. -/
theorem runMove_regWrite (s : State) (r : Reg) (v : Word) :
    runMove (.regWrite 32 r.offset v) s = .next (s.writeReg r v) := by
  have hw : registerAccessWf 32 r.offset = true := by cases r <;> rfl
  simp [runMove, hostRegWrite, hw, State.writeOffset, regAt_offset]

/-- A register read at a register's offset. -/
theorem runMove_regRead (s : State) (r : Reg) :
    runMove (.regRead 32 r.offset) s = .next (s.withHostData (s.regValue r)) := by
  have hw : registerAccessWf 32 r.offset = true := by cases r <;> rfl
  simp [runMove, hostRegRead, hw, State.readOffset, regAt_offset]

/-- Everything a move that goes on can do. -/
inductive MoveCase (s : State) : Move → State → Prop where
  | regRead (bits offset : Nat) (h : registerAccessWf bits offset = true) :
      MoveCase s (.regRead bits offset) (s.withHostData (s.readOffset offset))
  | regWrite (bits offset : Nat) (v : Word) (h : registerAccessWf bits offset = true) :
      MoveCase s (.regWrite bits offset v) (s.writeOffset offset v)
  | pixDraw (i : Nat) (hi : i < 2 ^ s.pixAw) (hd : ∃ o ∈ s.running, o.inDestination i = true) :
      MoveCase s (.pixRead i) ((s.withHostData (Config.freeWord s.draws)).drawn 1)
  | pixRead (i : Nat) (hi : i < 2 ^ s.pixAw) (hd : ∀ o ∈ s.running, o.inDestination i = false) :
      MoveCase s (.pixRead i) (s.withHostData (memRead s.pix i))
  | pixWrite (i : Nat) (v : Word) (hi : i < 2 ^ s.pixAw)
      (hd : ∀ o ∈ s.running, o.inSource i = false ∧ o.inDestination i = false) :
      MoveCase s (.pixWrite i v) (s.withPix (memWrite s.pix i v))
  | byteDraw (a : Nat) (ha : a < 2 ^ s.byteAw) (hd : ∃ o ∈ s.running, o.inOutput a = true) :
      MoveCase s (.byteRead a)
        ((s.withHostData ((Config.freeByte s.draws).setWidth 32)).drawn 1)
  | byteRead (a : Nat) (ha : a < 2 ^ s.byteAw) (hd : ∀ o ∈ s.running, o.inOutput a = false) :
      MoveCase s (.byteRead a) (s.withHostData ((memRead s.bytes a).setWidth 32))
  | byteWrite (a : Nat) (v : Byte) (ha : a < 2 ^ s.byteAw)
      (hd : ∀ o ∈ s.running, o.inPayload a = false ∧ o.inOutput a = false) :
      MoveCase s (.byteWrite a v) (s.withBytes (memWrite s.bytes a v))
  | idle (hb : s.busy = true) : MoveCase s .idle s
  | complete (t : State) (hb : s.busy = true) (he : CompleteCase s (instrOfOp s.op.op) t) : MoveCase s .complete t
  | reset : MoveCase s .reset
      (if s.busy then s.abandon.recordEnding s.op s.abandonedFootprint else s).resetRegisters.releaseLatches
  | waitEnds (gaps : List Nat) (hd : s.done = true) : MoveCase s (.waitDone gaps) (s.withHostData s.statusWord)
  | waitGoesOn (gaps : List Nat) (hd : s.done = false) :
      MoveCase s (.waitDone gaps) ((s.withHostData s.statusWord).withScript (s.waitSchedule gaps))
  | select (k : Nat) (x : Instance) (hx : s.others[k]? = some x) :
      MoveCase s (.select k) (s.withInstances x (s.others.set k s.selected))

/-- A change of the addressed instance that goes on. -/
theorem selectInstance_cases {k : Nat} {s t : State} (h : selectInstance k s = .next t) : MoveCase s (.select k) t := by
  cases hx : s.others[k]? with
  | none => rw [selectInstance_of_none hx] at h; cases h
  | some x => rw [selectInstance_of_some hx] at h; cases h; exact .select k x hx

theorem runMove_cases {m : Move} {s t : State} (h : runMove m s = .next t) : MoveCase s m t := by
  cases m with
  | regRead bits offset =>
    simp only [runMove, hostRegRead] at h
    split at h
    · next hw => cases h; exact .regRead bits offset hw
    · cases h
  | regWrite bits offset v =>
    simp only [runMove, hostRegWrite] at h
    split at h
    · next hw => cases h; exact .regWrite bits offset v hw
    · cases h
  | pixRead i =>
    simp only [runMove, hostPixRead] at h
    split at h
    · cases h
    · next hi =>
      split at h
      · next hd => cases h; exact .pixDraw i (by omega) (List.any_eq_true.mp hd)
      · next hd => cases h; exact .pixRead i (by omega) (by simpa using hd)
  | pixWrite i v =>
    simp only [runMove, hostPixWrite] at h
    split at h
    · cases h
    · next hi =>
      split at h
      · cases h
      · next hd => cases h; exact .pixWrite i v (by omega) (by simpa using hd)
  | byteRead a =>
    simp only [runMove, hostByteRead] at h
    split at h
    · cases h
    · next hi =>
      split at h
      · next hd => cases h; exact .byteDraw a (by omega) (List.any_eq_true.mp hd)
      · next hd => cases h; exact .byteRead a (by omega) (by simpa using hd)
  | byteWrite a v =>
    simp only [runMove, hostByteWrite] at h
    split at h
    · cases h
    · next hi =>
      split at h
      · cases h
      · next hd => cases h; exact .byteWrite a v (by omega) (by simpa using hd)
  | idle =>
    simp only [runMove, coreIdle] at h
    split at h
    · next hb => cases h; exact .idle hb
    · cases h
  | complete =>
    simp only [runMove, coreComplete] at h
    split at h
    · next hb => exact .complete t hb (completeCommand_cases h)
    · cases h
  | reset =>
    simp only [runMove, platformReset] at h
    cases h
    exact .reset
  | waitDone gaps =>
    simp only [runMove, hostWaitDone] at h
    cases h
    cases hd : s.done with
    | true => exact .waitEnds gaps hd
    | false => exact .waitGoesOn gaps hd
  | select k => exact selectInstance_cases h

end Sys2Proof.Machine
end

