-- ==== Sys2Proof/Laws/PerInstr.lean ====
section
/-! SUPPORT. Facts about each command as syntax, one lemma per constructor of Instr. -/

namespace Sys2Proof.Laws.OpCode

/-- The command is well formed, and its OP code selects it and no other command (spec/30_encoding.md R95, R98). -/
def Statement (i : Instr) : Prop := i.wf = true ∧ ∀ op : BitVec 2, instrOfOp op = i ↔ op = i.opCode

theorem encode : Statement .encode := by unfold Statement; decide

theorem decode : Statement .decode := by unfold Statement; decide

theorem capacity : Statement .capacity := by unfold Statement; decide

theorem reservedOp3 : Statement .reservedOp3 := by unfold Statement; decide

end Sys2Proof.Laws.OpCode
end

