-- ==== Sys2Proof/Tests/Slice0.lean ====
section
/-! SUPPORT. Tests of the model against spec/95_test_vectors.md, refusals of ill-formed terms, and for each obligation
with hypotheses a concrete state that meets them (theorems `meets_…`). -/

open Sys2Proof Sys2Proof.Machine

namespace Sys2Proof.Tests

/-! ### Small states -/

/-- The state an outcome goes on with. -/
def nextOf : Host.Outcome State Fault Refusal → Option State
  | .next t => some t
  | .fault _ => none
  | .refused _ => none

/-- The idle machine of the vectors: PIX_AW = BYTE_AW = 16, everything 0. -/
def idle : State := { State.reset with pixAw := 16, byteAw := 16 }

/-- `idle` with one move pending. -/
def doing (m : Move) : State := idle.withScript [m]

/-- The standard image's word `i`. -/
def std (i : Nat) : Word :=
  0xFF000000#32 ||| (BitVec.ofNat 32 (0x10 + i) <<< 16) ||| (BitVec.ofNat 32 (0x20 + i) <<< 8) |||
    BitVec.ofNat 32 (0x30 + i)

/-- The first `n` words of the standard image at word 0. -/
def image (n : Nat) : List (Nat × BitVec 32) := (List.range n).map fun i => (i, std i)

/-- A payload at byte 0 (no byte 0x00). -/
def payloadAt0 (p : List Byte) : List Host.Cell := (List.range p.length).zip p

/-- An ENCODE of the payload into the `w` by `h` standard image, as V-ENC runs it: SRC 0, DST 0x100, PAY 0. -/
def encoding (w h : BitVec 16) (p : List Byte) : State :=
  { idle with
    dim := h ++ w
    dstBase := 0x100#32
    payLen := BitVec.ofNat 32 p.length
    pix := image (w.toNat * h.toNat)
    bytes := payloadAt0 p }.start .encode

/-- A DECODE of a raw `w` by 1 image at word 0 to the bytes from `out` up, as V-DEC runs it. -/
def decoding (words : List Word) (out : Word) : State :=
  { idle with
    dim := 1#16 ++ BitVec.ofNat 16 words.length
    outBase := out
    pix := (List.range words.length).zip words }.start .decode

/-- The state after the completion of an ENCODE. -/
def encoded (s : State) : State := (nextOf (exec .encode s)).getD idle

/-- A DECODE of the image that `encoded s` wrote, to the bytes from 0x200 up. -/
def decodingOf (s : State) : State :=
  { encoded s with srcBase := 0x100#32, outBase := 0x200#32 }.start .decode

/-- V-ENC-1's ENCODE of `[0x48, 0x69]`, an exact fill. -/
def enc1 : State := encoding 4 2 [0x48#8, 0x69#8]

/-- V-ENC-2's ENCODE of `[0xFF]`, with two spare slots. -/
def enc2 : State := encoding 3 2 [0xFF#8]

/-- V-ENC-3's ENCODE of `[0xA5]`, truncated. -/
def enc3 : State := encoding 1 1 [0xA5#8]

/-- V-ENC-11's ENCODE of `[0x01, 0x02]`, whose data bits hold a run of 8 zero bits. -/
def enc11 : State := encoding 4 2 [0x01#8, 0x02#8]

/-- An ENCODE of three bytes into 12 pixels, so that 32 slots are written. -/
def encLong : State := encoding 4 3 [0x48#8, 0x69#8, 0x21#8]

/-- V-ENC-14's ENCODE of `[0xA5]`, one bit beyond capacity. -/
def enc14 : State := encoding 5 1 [0xA5#8]

/-- V-DEC-7: no stop marker. -/
def dec7 : State := decoding [0xFF010000#32, 0xFF000000#32, 0xFF000000#32] 0#32

/-- V-DEC-9: a stop in group 0. -/
def dec9 : State := decoding [0xFF000000#32, 0xFF000000#32, 0xFF000000#32] 0#32

/-- The image of V-DEC-11 and V-DEC-12. -/
def dec11 (out : Word) : State :=
  decoding [0xFF010101#32, 0xFF010101#32, 0xFF010100#32, 0xFF000000#32, 0xFF000000#32, 0xFF000000#32] out

/-- Two instances: `enc1` runs on the other, and the addressed one is idle with these registers. -/
def besideIdle (dim src dst pay len out : Word) : State :=
  enc1.withInstances
    { Instance.reset with
      dim := dim
      srcBase := src
      dstBase := dst
      payBase := pay
      payLen := len
      outBase := out } [enc1.selected]

/-- The same with a command started on the addressed one. -/
def beside (i : Instr) (dim src dst pay len out : Word) : State := (besideIdle dim src dst pay len out).start i

/-- A second ENCODE on regions of its own. -/
def apart : State := beside .encode 0x00020004#32 0x200#32 0x300#32 0#32 2#32 0#32

/-- A second ENCODE that reads half of what `enc1` writes and writes half of what `enc1` reads. -/
def clashing : State := beside .encode 0x00020004#32 0x104#32 0x004#32 0#32 2#32 0#32

/-- The same with no payload, so that it ends with an error and touches nothing. -/
def failing : State := beside .encode 0x00020004#32 0x104#32 0x004#32 0#32 0#32 0#32

/-- A DECODE with no full group, so that it ends with an error, of two words that `enc1` writes. -/
def clashingShort : State := beside .decode 0x00010002#32 0x104#32 0#32 0#32 0#32 0#32

/-- A DECODE with a stop in group 0, so that it writes no byte of the region that its operands name, which is `enc1`'s
payload. -/
def decodingNothing : State := beside .decode 0x00010006#32 0x200#32 0#32 0#32 0#32 0#32

/-- A DECODE whose two output bytes are the last payload byte of `enc1` and the one after it. -/
def clashingBytes : State :=
  { beside .decode 0x0001000A#32 0x200#32 0#32 0#32 0#32 1#32 with
    pix := image 8 ++ [(0x200, 0xFF010101#32), (0x201, 0xFF010101#32), (0x202, 0xFF010101#32), (0x203, 0xFF010101#32),
      (0x204, 0xFF010101#32), (0x205, 0xFF010000#32)] }

/-- The same with the other instance addressed. -/
def clashingPayload : State := (nextOf (selectInstance 0 clashingBytes)).getD idle

/-! ### Decoding (R95), words written out bit by bit -/

theorem test_decode_encode : decode 0b00000000000000000000000000000001#32 = .ok .encode := by rfl

theorem test_decode_encode_irq : decode 0b00000000000000000000000000001001#32 = .ok .encode := by rfl

theorem test_decode_decode : decode 0b00000000000000000000000000000011#32 = .ok .decode := by rfl

theorem test_decode_capacity : decode 0b00000000000000000000000000000101#32 = .ok .capacity := by rfl

theorem test_decode_reservedOp3 : decode 0b00000000000000000000000000000111#32 = .ok .reservedOp3 := by rfl

theorem test_decode_reserved_bits_ignored :
    decode 0b11111111111111111111111111110011#32 = .ok .decode := by rfl

theorem test_decode_no_start : decode 0b00000000000000000000000000000110#32 = .error .notACommand := by rfl

theorem test_decodeTableWord : decodeTableWord 32 1 = some .encode ∧ decodeTableWord 32 3 = some .decode ∧
    decodeTableWord 32 5 = some .capacity ∧ decodeTableWord 32 7 = some .reservedOp3 ∧
    decodeTableWord 32 6 = none ∧ decodeTableWord 64 1 = none := by decide

theorem test_encode_words : encode .encode = 0x1#32 ∧ encode .decode = 0x3#32 ∧ encode .capacity = 0x5#32 ∧
    encodeWith 0#28 true .encode = 0x9#32 ∧ encodeWith 0#28 true .decode = 0xB#32 := by decide

/-! ### Well-formedness: each check refuses an ill-formed term (R29, R61, R62, R95) -/

theorem test_wf_refuses_narrow_access : Move.wf 16 16 (.regWrite 16 0x00 0#32) = false := by decide

theorem test_wf_refuses_misaligned_access : Move.wf 16 16 (.regRead 32 0x02) = false := by decide

theorem test_wf_refuses_pixel_past_the_top : Move.wf 16 16 (.pixWrite 0x10000 0#32) = false ∧
    Move.wf 16 16 (.pixRead 0x10000) = false ∧ Move.wf 16 16 (.pixRead 0xFFFF) = true := by decide

theorem test_wf_refuses_byte_past_the_top : Move.wf 16 16 (.byteWrite 0x10000 0#8) = false ∧
    Move.wf 16 16 (.byteRead 0x10000) = false ∧ Move.wf 16 16 (.byteRead 0xFFFF) = true := by decide

theorem test_wf_refuses_no_start : (parseCtrl 0x6#32).isCommand = false ∧ (parseCtrl 0x7#32).isCommand = true := by
  decide

/-! ### Helpers, expander and mux (V-HLP, V-BX, V-MUX) -/

theorem test_setLsb : setLsb 0xFF#8 false = 0xFE#8 ∧ setLsb 0x80#8 true = 0x81#8 ∧ setLsb 0x21#8 false = 0x20#8 := by
  decide

theorem test_getLsb : getLsb 0x80#8 = false ∧ getLsb 0x81#8 = true ∧ getLsb 0xFF#8 = true := by decide

theorem test_expand : expand [0x48#8, 0x69#8] =
    [false, false, false, true, false, false, true, false, true, false, false, true, false, true, true, false,
      false, false, false, false, false, false, false, false] := by decide

theorem test_slot_map : (slotPixel 8, slotLane 8) = (2, .blue) ∧ (slotPixel 3, slotLane 3) = (1, .red) ∧
    (slotPixel 1, slotLane 1) = (0, .green) := by decide

theorem test_embed : embed 0xFF102030#32 .red true = 0xFF112030#32 ∧ embed 0xFF112131#32 .green false = 0xFF112031#32 ∧
    embed 0xFF112131#32 .blue false = 0xFF112130#32 ∧ embed 0x80FFFFFF#32 .red false = 0x80FEFFFF#32 := by decide

theorem test_laneBits : laneBits 0xFF112030#32 = [true, false, false] := by decide

theorem test_standard_image : std 0 = 0xFF102030#32 ∧ std 7 = 0xFF172737#32 := by decide

/-! ### The commands (V-ENC, V-DEC, V-CAP, P3) -/

/-- V-ENC-1: STATUS, RESULT and the destination. -/
theorem test_encode_exact_fill :
    (nextOf (exec .encode enc1)).map (fun t => (t.statusWord, t.result, readRange t.pix 0x100 8)) =
      some (0x00000002#32, 24#64, [0xFF102030#32, 0xFF112030#32, 0xFF132233#32, 0xFF122233#32, 0xFF142535#32,
        0xFF142434#32, 0xFF162636#32, 0xFF162636#32]) := by decide

/-- V-ENC-9: ADDRESS_RANGE is checked before OVERLAP. -/
theorem test_encode_check_order :
    (nextOf (exec .encode ({ idle with
      dim := 0x00020004#32, srcBase := 0xFFF8#32, dstBase := 0xFFFC#32, payLen := 1#32,
      bytes := [(0, 0x48#8)] }.start .encode))).map (fun t => (t.statusWord, t.result)) =
      some (0x00000042#32, 0#64) := by decide

/-- V-DEC-3: the zero run crosses the byte boundary, so the result is `[0x01]` and byte 0x201 stays 0. -/
theorem test_decode_run_across_bytes :
    (nextOf (exec .decode (decodingOf enc11))).map
      (fun t => (t.statusWord, t.result, readRange t.bytes 0x200 2)) =
      some (0x00000002#32, 1#64, [0x01#8, 0x00#8]) := by decide

/-- V-DEC-12: the output region is checked after the scan. -/
theorem test_decode_output_past_the_top :
    (nextOf (exec .decode (dec11 0x10000#32))).map (fun t => (t.statusWord, t.result, t.bytes)) =
      some (0x00000042#32, 0#64, []) := by decide

/-- V-CAP-5: the largest result. -/
theorem test_capacity_largest :
    (nextOf (exec .capacity ({ idle with dim := 0xFFFFFFFF#32 }.start .capacity))).map
      (fun t => (t.resultHi, t.resultLo, t.statusWord)) =
      some (0x00000002#32, 0xFFFA0003#32, 0x00000002#32) := by decide

/-- P3 step 5: ILLEGAL_OP. -/
theorem test_reservedOp3_status :
    (nextOf (exec .reservedOp3 (idle.start .reservedOp3))).map (fun t => (t.statusWord, t.result)) =
      some (0x00000032#32, 0#64) := by decide

/-! ### Each row as the first command after reset -/

theorem test_first_encode :
    (nextOf (step (State.reset.withFetchWord 32 1))).map State.statusWord = some 0x00000012#32 := by decide

/-- DECODE with DIM = 0 (V-DEC-8). -/
theorem test_first_decode :
    (nextOf (step (State.reset.withFetchWord 32 3))).map State.statusWord = some 0x00000022#32 := by decide

theorem test_first_capacity :
    (nextOf (step (State.reset.withFetchWord 32 5))).map State.statusWord = some 0x00000002#32 := by decide

theorem test_first_reservedOp3 :
    (nextOf (step (State.reset.withFetchWord 32 7))).map State.statusWord = some 0x00000032#32 := by decide

/-! ### Control (V-CTL) -/

/-- V-CTL-2: STATUS, CTRL and RESULT_LO right after a START. -/
theorem test_start : (nextOf (step (doing (.regWrite 32 0x00 0x3#32)))).map
    (fun t => (t.statusWord, t.ctrlWord, t.resultLo)) = some (0x00000001#32, 0x00000002#32, 0#32) := by decide

/-- R23: reserved bits are ignored, bit 3 is IRQ_EN and no command starts (V-CTL-7; log entry 15 for its value). -/
theorem test_ctrl_reserved_bits :
    (nextOf (step (doing (.regWrite 32 0x00 0xFFFFFFF8#32)))).map (fun t => (t.ctrlWord, t.busy)) =
      some (0x00000008#32, false) ∧
    (nextOf (step (doing (.regWrite 32 0x00 0xFFFFFFF0#32)))).map (fun t => (t.ctrlWord, t.busy)) =
      some (0x00000000#32, false) := by decide

/-- V-CTL-12: a START while BUSY = 1 stores OP and is otherwise ignored. -/
theorem test_start_while_busy : (nextOf (step (enc1.withScript [.regWrite 32 0x00 0x3#32]))).map
    (fun t => (t.statusWord, t.ctrlWord, t.op)) = some (0x00000001#32, 0x00000002#32, enc1.op) := by decide

/-- V-CTL-8: STATUS bit 1 written 0 has no effect. -/
theorem test_status_write_without_bit1 :
    (nextOf (step ({ doing (.regWrite 32 0x04 0xFFFFFFFD#32) with done := true, err := 1#4 }))).map
      State.statusWord = some 0x00000012#32 := by decide

/-- V-CTL-4: CLRDONE keeps ERR. -/
theorem test_status_clear :
    (nextOf (step ({ doing (.regWrite 32 0x04 0x2#32) with done := true, err := 1#4 }))).map
      State.statusWord = some 0x00000010#32 := by decide

/-- V-CTL-9: an unmapped offset reads 0. -/
theorem test_unmapped_read :
    (nextOf (step ({ doing (.regRead 32 0x28) with hostData := 7#32 }))).map State.hostData = some 0#32 := by decide

/-- V-CTL-14: refused accesses. -/
theorem test_refused_accesses :
    step (doing (.regWrite 16 0x00 0#32)) = .refused (.badRegisterAccess 16 0x00) ∧
      step (doing (.regWrite 32 0x02 0#32)) = .refused (.badRegisterAccess 32 0x02) := ⟨rfl, rfl⟩

/-- V-CTL-13: after a reset step every register reads 0. -/
theorem test_reset_during_encode : (nextOf (step (enc1.withScript [.reset]))).map
    (fun t => allRegs.map t.regValue) = some (List.replicate 10 0#32) := by decide

/-- R101: with DONE = 1 WAITDONE is one STATUS read (V-CTL-3's STATUS). -/
theorem test_waitDone_when_done :
    (nextOf (step ({ idle with done := true, script := scriptWaitDone [] }))).map
      (fun t => (t.hostData, t.script)) = some (0x00000002#32, []) := by decide

/-- R101: with DONE = 0 the loop goes on, after the move that comes between two reads. -/
theorem test_waitDone_goes_on :
    (nextOf (step (enc1.withScript (scriptWaitDone [1] ++ [.idle, .complete])))).map
      (fun t => (t.hostData, t.script)) = some (0x00000001#32, [.idle, .waitDone [], .complete]) := by decide

/-- R267: with another instance running, the `WAITDONE` loop on an idle one lets it complete before the next turn. -/
theorem test_waitDone_is_fair :
    (nextOf (step ({ idle with script := scriptWaitDone [], others := [Instance.reset, enc1.selected] }))).map
      State.script = some [.select 1, .complete, .select 1, .waitDone []] := by decide

/-- R233: each of two commands has the other as a rival, and commands on regions of their own have none. -/
theorem test_clash_is_mutual :
    clashing.rivals = [⟨⟨0, 8⟩, ⟨0x100, 8⟩, ⟨0, 2⟩, ⟨0, 0⟩⟩] ∧
      clashing.peers.map State.rivals = [[⟨⟨0x104, 8⟩, ⟨4, 8⟩, ⟨0, 2⟩, ⟨0, 0⟩⟩]] ∧ apart.rivals = [] ∧
      apart.peers.map State.rivals = [[]] := by decide

/-- R233: the rival keeps on record what the command that ends has touched, and stays in the clash. -/
theorem test_clash_on_record :
    (nextOf (completeCommand .encode clashing)).map (fun t => (t.others.map (·.ended), t.peers.map State.rivals)) =
      some ([[⟨⟨0x104, 8⟩, ⟨4, 8⟩, ⟨0, 2⟩, ⟨0, 0⟩⟩]], [[⟨⟨0x104, 8⟩, ⟨4, 8⟩, ⟨0, 2⟩, ⟨0, 0⟩⟩]]) := by decide

/-- R222, R233: a command that ends with an error writes nothing, so that it is no rival, whatever its operands name. -/
theorem test_failing_rival_is_no_clash :
    failing.op.clashes enc1.op = true ∧ failing.rivals = [] ∧ failing.peers.map State.rivals = [[]] := by decide

/-- R69, R233: bytes of a DECODE's output region from OUT + m up are in no clash. -/
theorem test_unwritten_output_is_no_clash :
    decodingNothing.op.clashes enc1.op = true ∧ decodingNothing.rivals = [] ∧
      decodingNothing.peers.map State.rivals = [[]] := by decide

/-- R233: two commands that only read the same location do not clash. -/
theorem test_shared_source_is_no_clash :
    (beside .encode 0x00020004#32 0#32 0x300#32 0#32 2#32 0#32).rivals = [] := by decide

/-- R233: a read in the clash returns a draw. -/
theorem test_clash_read_is_a_draw : memRead clashing.seen.pix 0x104 = Config.freeWord clashing.firstDraw :=
  (seen_pix clashing (by decide) 0x104).trans (if_pos (by decide))

/-- R233: the two instances change places, and each keeps its registers. -/
theorem test_select :
    (nextOf (step (apart.withScript [.select 0]))).map (fun t => (t.dstBase, t.others.map (·.dstBase))) =
      some (0x100#32, [0x300#32]) := by decide

/-- A memory write keeps the canonical form: the unlisted value removes the entry. -/
theorem test_memory_canonical : memWrite (memWrite ([] : Memory 8) 5 7#8) 3 1#8 = [(3, 1#8), (5, 7#8)] ∧
    memWrite [(3, 1#8), (5, 7#8)] 3 0#8 = [(5, 7#8)] := by decide

/-! ### States that meet the hypotheses of the obligations -/

/-- The invariant from checks that can be evaluated. -/
theorem inv_of_checks {s : State}
    (hm : (1 ≤ s.pixAw ∧ s.pixAw ≤ 32) ∧ (1 ≤ s.byteAw ∧ s.byteAw ≤ 32) ∧ Memory.wf s.pix ∧
      Memory.within (2 ^ s.pixAw) s.pix ∧ Memory.wf s.bytes ∧ Memory.within (2 ^ s.byteAw) s.bytes)
    (hx : ∀ x ∈ s.instances, ¬(x.busy = true ∧ x.done = true) ∧ (x.busy = true → x.err = 0#4) ∧
      (x.busy = true → x.result = 0#64) ∧ (x.busy = true → x.internal = Internal.initial) ∧ x.err.toNat ≤ 5 ∧
      (x.err ≠ 0#4 → x.result = 0#64) ∧ x.result.toNat < 2 ^ 34 ∧ (x.busy = false → x.ended = []))
    (hd : (∀ x ∈ s.instances, x.busy = true → x.firstDraw + x.op.readLen ≤ s.draws) ∧
      s.instances.Pairwise DrawsApart) : Inv s := by
  obtain ⟨h1, h2, h3, h4, h5, h6⟩ := hm
  refine ⟨h1, h2, h3, h4, h5, h6, fun x h => ?_, hd.1, hd.2⟩
  obtain ⟨a1, a2, a3, a4, a5, a6, a7, a8⟩ := hx x h
  exact ⟨a1, a2, a3, a4, a5, a6, a7, a8⟩

/-- The schedule does not matter to the invariant. -/
theorem inv_withScript {s : State} (h : Inv s) (moves : List Move) : Inv (s.withScript moves) :=
  ⟨h.pixAw_range, h.byteAw_range, h.pix_wf, h.pix_within, h.bytes_wf, h.bytes_within, h.instance_laws, h.draws_spent,
    h.draws_apart⟩

theorem idle_inv : Inv idle := inv_of_checks (by decide) (by decide) (by decide)

theorem enc1_inv : Inv enc1 := inv_of_checks (by decide) (by decide) (by decide)

theorem enc2_inv : Inv enc2 := inv_of_checks (by decide) (by decide) (by decide)

theorem enc3_inv : Inv enc3 := inv_of_checks (by decide) (by decide) (by decide)

theorem enc11_inv : Inv enc11 := inv_of_checks (by decide) (by decide) (by decide)

theorem enc14_inv : Inv enc14 := inv_of_checks (by decide) (by decide) (by decide)

theorem encLong_inv : Inv encLong := inv_of_checks (by decide) (by decide) (by decide)

theorem dec7_inv : Inv dec7 := inv_of_checks (by decide) (by decide) (by decide)

theorem dec9_inv : Inv dec9 := inv_of_checks (by decide) (by decide) (by decide)

theorem dec11_inv : Inv (dec11 0xFFFF#32) := inv_of_checks (by decide) (by decide) (by decide)

theorem dec12_inv : Inv (dec11 0x10000#32) := inv_of_checks (by decide) (by decide) (by decide)

theorem decodingOf_enc1_inv : Inv (decodingOf enc1) := inv_of_checks (by decide) (by decide) (by decide)

theorem decodingOf_enc11_inv : Inv (decodingOf enc11) := inv_of_checks (by decide) (by decide) (by decide)

theorem decodingOf_enc14_inv : Inv (decodingOf enc14) := inv_of_checks (by decide) (by decide) (by decide)

theorem apart_inv : Inv apart := inv_of_checks (by decide) (by decide) (by decide)

theorem clashing_inv : Inv clashing := inv_of_checks (by decide) (by decide) (by decide)

theorem failing_inv : Inv failing := inv_of_checks (by decide) (by decide) (by decide)

theorem clashingShort_inv : Inv clashingShort := inv_of_checks (by decide) (by decide) (by decide)

theorem decodingNothing_inv : Inv decodingNothing := inv_of_checks (by decide) (by decide) (by decide)

theorem clashingBytes_inv : Inv clashingBytes := inv_of_checks (by decide) (by decide) (by decide)

theorem clashingPayload_inv : Inv clashingPayload := inv_of_checks (by decide) (by decide) (by decide)

/-! #### Encodings -/

theorem meets_DecodingLooksOnlyAtBits2To0 :
    (0x00000009#32).extractLsb' 0 3 = 0b001#3 ∧ (0xFFFFFFF3#32).extractLsb' 0 3 = 0b011#3 ∧
      (0x00000005#32).extractLsb' 0 3 = 0b101#3 ∧ (0xFFFFFFFF#32).extractLsb' 0 3 = 0b111#3 ∧
      (0xFFFFFFFE#32).getLsbD 0 = false := by decide

theorem meets_CommandWordsDecodeToTheirFields :
    Instr.wf .reservedOp3 = true ∧ decode 0xFFFFFFFF#32 = .ok .reservedOp3 := ⟨rfl, rfl⟩

/-! #### Steps -/

/-- With no clash, in a clash, next to another instance that runs, and alone. -/
theorem meets_StepRunsTheDecodedCommand :
    (∀ s ∈ [enc1, clashing], (∃ r : State, r = s.withScript [.complete] ∧ r.script = [.complete] ∧ r.busy = true) ∧
      s.script = [] ∧ s.busy = true) ∧
      apart.rivals = [] ∧ apart.met ≠ [] ∧ enc1.met = [] ∧ decode 0x00000009#32 = .ok .encode ∧
      runningOps enc1.others = [] := by
  refine ⟨fun s hs => ?_, by decide, by decide, rfl, rfl, rfl⟩
  simp only [List.mem_cons, List.not_mem_nil, or_false] at hs
  rcases hs with rfl | rfl <;> exact ⟨⟨_, rfl, rfl, rfl⟩, rfl, rfl⟩

/-- Alone, and next to another instance that runs and does not clash. -/
theorem meets_StartThenCompletionRunsTheCommand :
    (∃ s t : State, s.script = [.regWrite 32 0x00 0x00000003#32, .complete] ∧ s.busy = false ∧
      decode 0x00000003#32 = .ok .decode ∧ step s = .next t) ∧
      ∃ s t : State, s.script = [.regWrite 32 0x00 0x00000001#32, .complete] ∧ s.busy = false ∧
        decode 0x00000001#32 = .ok .encode ∧ step s = .next t ∧ Inv s ∧ runningOps s.others = [enc1.op] ∧
        enc1.op.clashes t.op = false :=
  ⟨⟨idle.withScript [.regWrite 32 0x00 0x00000003#32, .complete], _, rfl, rfl, rfl, rfl⟩,
    ⟨(besideIdle 0x00020004#32 0x200#32 0x300#32 0#32 2#32 0#32).withScript
      [.regWrite 32 0x00 0x00000001#32, .complete], _, rfl, rfl, rfl, rfl,
      inv_withScript (inv_of_checks (by decide) (by decide) (by decide)) _, by decide, by decide⟩⟩

/-- A START while idle, a write without START, and a START while BUSY = 1. -/
theorem meets_CtrlWriteStartsACommandOnlyWhenIdle :
    (∃ s : State, s.script = [.regWrite 32 0x00 0x1#32] ∧ (0x1#32).getLsbD 0 = true ∧ s.busy = false) ∧
      (∃ s : State, s.script = [.regWrite 32 0x00 0x8#32] ∧ (0x8#32).getLsbD 0 = false) ∧
      ∃ s : State, s.script = [.regWrite 32 0x00 0x1#32] ∧ s.busy = true :=
  ⟨⟨doing (.regWrite 32 0x00 0x1#32), rfl, rfl, rfl⟩, ⟨doing (.regWrite 32 0x00 0x8#32), rfl, rfl⟩,
    ⟨enc1.withScript [.regWrite 32 0x00 0x1#32], rfl, rfl⟩⟩

theorem meets_StatusWriteClearsDoneAndNothingElse :
    (∃ s : State, s.script = [.regWrite 32 0x04 0x2#32] ∧ (0x2#32).getLsbD 1 = true) ∧
      ∃ s : State, s.script = [.regWrite 32 0x04 0xFFFFFFFD#32] ∧ (0xFFFFFFFD#32).getLsbD 1 = false :=
  ⟨⟨doing (.regWrite 32 0x04 0x2#32), rfl, rfl⟩, ⟨doing (.regWrite 32 0x04 0xFFFFFFFD#32), rfl, rfl⟩⟩

/-- Every operand register, both result registers, and the first unmapped offset. -/
theorem meets_OperandWritesTakeTheValue (v : Word) :
    (∀ r ∈ [Reg.dim, .srcBase, .dstBase, .payBase, .payLen, .outBase, .resultLo, .resultHi],
      ∃ s : State, s.script = [.regWrite 32 r.offset v]) ∧
      ∃ s : State, s.script = [.regWrite 32 0x28 v] ∧ 0x28 ≤ 0x28 ∧ 0x28 % 4 = 0 :=
  ⟨fun r _ => ⟨doing (.regWrite 32 r.offset v), rfl⟩, ⟨doing (.regWrite 32 0x28 v), rfl, by decide⟩⟩

/-- Every offset of R22, the first unmapped one, and reads while a command runs. -/
theorem meets_RegisterReadsReturnTheFields :
    (∀ o ∈ [0x00, 0x04, 0x08, 0x0C, 0x10, 0x14, 0x18, 0x1C, 0x20, 0x24, 0x28],
      ∃ s : State, s.script = [.regRead 32 o] ∧ o % 4 = 0) ∧
      ∀ o ∈ [0x04, 0x20, 0x24], ∃ s : State, Inv s ∧ s.busy = true ∧ s.script = [.regRead 32 o] :=
  ⟨fun o ho => ⟨doing (.regRead 32 o), rfl, by revert o; decide⟩,
    fun o _ => ⟨enc1.withScript [.regRead 32 o], inv_withScript enc1_inv _, rfl, rfl⟩⟩

/-- A narrow and a misaligned access, as a read and as a write. -/
theorem meets_BadRegisterAccessesAreRefused :
    ∀ p ∈ [(16, 0x00), (32, 0x02), (16, 0x02)], ¬(p.1 = 32 ∧ p.2 % 4 = 0) ∧
      (∃ s : State, s.script = [.regRead p.1 p.2]) ∧ ∃ s : State, s.script = [.regWrite p.1 p.2 0#32] :=
  fun p hp => ⟨by revert p; decide, ⟨doing (.regRead p.1 p.2), rfl⟩, ⟨doing (.regWrite p.1 p.2 0#32), rfl⟩⟩

theorem meets_DoneIrqIsTheLevelOfDoneAndIrqEn :
    exec .encode enc1 = .next (encoded enc1) ∧
      (∃ s : State, s.script = [.regWrite 32 0x00 0x8#32] ∧ (0x8#32).getLsbD 0 = false) ∧
      ∃ s : State, s.script = [.regWrite 32 0x04 0x2#32] ∧ (0x2#32).getLsbD 1 = true :=
  ⟨rfl, ⟨doing (.regWrite 32 0x00 0x8#32), rfl, rfl⟩, ⟨doing (.regWrite 32 0x04 0x2#32), rfl, rfl⟩⟩

/-- A START, an operand write and an idle step while a command runs; and a reset. -/
theorem meets_NothingButResetStopsARunningCommand :
    (∀ m ∈ [Move.regWrite 32 0x00 0x3#32, .regWrite 32 0x08 0#32, .idle], m ≠ .complete ∧ m ≠ .reset ∧
      (∀ k, m ≠ .select k) ∧ ∃ s t : State, Inv s ∧ s.script = [m] ∧ s.busy = true ∧ step s = .next t) ∧
      ∃ s : State, s.script = [.reset] := by
  refine ⟨fun m hm => ?_, ⟨doing .reset, rfl⟩⟩
  simp only [List.mem_cons, List.not_mem_nil, or_false] at hm
  rcases hm with rfl | rfl | rfl <;>
    exact ⟨by decide, by decide, nofun, enc1.withScript [_], _, inv_withScript enc1_inv _, rfl, rfl, rfl⟩

/-- A platform of one instance, and one of two. -/
theorem meets_IdleCoreKeepsItsState :
    (∃ s : State, s.script = [] ∧ s.running = []) ∧ (State.platform 1).script = [] ∧ (State.platform 1).running = [] :=
  ⟨⟨idle, rfl, rfl⟩, rfl, rfl⟩

theorem meets_IdleStepsMakeNoDifference : ∃ s : State, s.busy = true := ⟨enc1, rfl⟩

theorem meets_EveryRunningCommandCompletes :
    (∃ s : State, s.busy = true ∧ s.script = List.replicate 2 .idle) ∧
      (∃ s : State, s.script = [] ∧ s.busy = false ∧ s.others.findIdx? (·.busy) = some 1) ∧
      ∃ s : State, s.script = [.waitDone []] ∧ s.busy = false ∧ s.done = false ∧
        s.others.findIdx? (·.busy) = some 1 :=
  ⟨⟨enc1.withScript (List.replicate 2 .idle), rfl, rfl⟩,
    ⟨{ idle with others := [Instance.reset, enc1.selected] }, rfl, rfl, rfl⟩,
    ⟨{ idle with script := [.waitDone []], others := [Instance.reset, enc1.selected] }, rfl, rfl, rfl, rfl⟩⟩

/-- DONE = 1, DONE = 0 with the loop to go on at once, after one more move, and for good; and the whole loop. -/
theorem meets_WaitDoneAndSetDimDoWhatTheirExpansionsSay :
    (∃ s : State, s.script = scriptWaitDone [] ++ [] ∧ s.done = true) ∧
      (∀ gaps ∈ [[], [0], [1, 1]], ∃ s : State, s.script = scriptWaitDone gaps ++ [] ∧ s.done = false) ∧
      (∃ s : State, s.busy = true ∧ s.done = false ∧
        s.script = scriptWaitDone (List.replicate 2 1) ++ (List.replicate 2 .idle ++ [])) ∧
      ∃ s : State, s.script = scriptSetDim 4#16 2#16 ++ [] :=
  ⟨⟨{ idle with done := true, script := scriptWaitDone [] }, rfl, rfl⟩,
    fun gaps _ => ⟨enc1.withScript (scriptWaitDone gaps ++ []), rfl, rfl⟩,
    ⟨enc1.withScript (scriptWaitDone (List.replicate 2 1) ++ (List.replicate 2 .idle ++ [])), rfl, rfl, rfl⟩,
    ⟨idle.withScript (scriptSetDim 4#16 2#16 ++ []), rfl⟩⟩

theorem meets_PseudoInstructionsAreTheirExpansions : ∃ s : State, s.script = scriptResult ++ [] :=
  ⟨idle.withScript (scriptResult ++ []), rfl⟩

/-! #### Reset and the invariant -/

theorem meets_ResetZeroesTheRegistersAndKeepsTheMemories :
    (∃ s : State, s.script = [.reset] ∧ s.busy = false) ∧
      ∀ i ∈ [Instr.encode, .decode, .capacity, .reservedOp3], ∃ s : State, s.script = [.reset] ∧ s.busy = true ∧
        instrOfOp s.op.op = i :=
  ⟨⟨doing .reset, rfl, rfl⟩, fun i _ => ⟨(idle.start i).withScript [.reset], rfl, rfl, by revert i; decide⟩⟩

/-- An ENCODE and a DECODE, with a location that could be written, one on each side, and one past the top. -/
theorem meets_ResetDuringACommandLeavesDraws :
    (∃ s : State, Inv s ∧ s.script = [.reset] ∧ s.busy = true ∧ instrOfOp s.op.op = .encode ∧
      s.op.dst.toNat = 0x100 ∧ s.op.pixels = 8) ∧
      ∃ s : State, Inv s ∧ s.script = [.reset] ∧ s.busy = true ∧ instrOfOp s.op.op = .decode ∧
        s.op.out.toNat = 0xFFFF ∧ s.op.slots / 8 = 2 :=
  ⟨⟨enc1.withScript [.reset], inv_withScript enc1_inv _, rfl, rfl, by decide, by decide, by decide⟩,
    ⟨(dec11 0xFFFF#32).withScript [.reset], inv_withScript dec11_inv _, rfl, rfl, by decide, by decide, by decide⟩⟩

theorem meets_StepKeepsTheInvariant : ∃ s t : State, Inv s ∧ step s = .next t :=
  ⟨enc1, _, enc1_inv, rfl⟩

theorem meets_NoStepChangesTheSpaceSizes : ∃ s t : State, step s = .next t := ⟨enc1, _, rfl⟩

/-! #### Memory -/

theorem meets_RegionPredicatesAreExact : ∃ a b t : Nat, a = b ∧ 0 < t := ⟨5, 5, 1, rfl, by decide⟩

/-- The first and last locations of ENCODE's source, destination and payload and of DECODE's source and output, of the
addressed instance and of another one. -/
theorem meets_BusyWindowGuardsTheRegions :
    enc1.op ∈ enc1.running ∧ enc1.op ∈ apart.running ∧ apart.op ∈ apart.running ∧
      (∀ i ∈ [0, 7], i < 2 ^ enc1.pixAw ∧ enc1.op.inSource i = true) ∧
      (∀ i ∈ [0x100, 0x107], i < 2 ^ enc1.pixAw ∧ enc1.op.inDestination i = true) ∧
      (∀ a ∈ [0, 1], a < 2 ^ enc1.byteAw ∧ enc1.op.inPayload a = true) ∧
      (dec11 0x200#32).op ∈ (dec11 0x200#32).running ∧ (∀ i ∈ [0, 5], (dec11 0x200#32).op.inSource i = true) ∧
      ∀ a ∈ [0x200, 0x201], a < 2 ^ (dec11 0x200#32).byteAw ∧ (dec11 0x200#32).op.inOutput a = true := by decide

/-- The locations next to those regions, the last locations of both spaces, and any location of the idle machine. -/
theorem meets_HostMemoryAccessesReachTheirLocation :
    Inv enc1 ∧ Inv apart ∧ Inv idle ∧ idle.running = [] ∧
      (∀ i ∈ [8, 0xFF, 0x108, 0xFFFF], i < 2 ^ enc1.pixAw ∧ i < 2 ^ apart.pixAw ∧
        (∀ o ∈ enc1.running, o.inSource i = false ∧ o.inDestination i = false) ∧
        ∀ o ∈ apart.running, o.inSource i = false ∧ o.inDestination i = false) ∧
      ∀ a ∈ [2, 0xFFFF], a < 2 ^ enc1.byteAw ∧ ∀ o ∈ enc1.running, o.inPayload a = false ∧ o.inOutput a = false :=
  ⟨enc1_inv, apart_inv, idle_inv, rfl, by decide, by decide⟩

/-- An ENCODE and a DECODE alone, and an ENCODE in a clash. -/
theorem meets_CommandsWriteOnlyTheirOwnRegions :
    (∃ t, Inv enc1 ∧ enc1.busy = true ∧ completeCommand (instrOfOp enc1.op.op) enc1 = .next t ∧
      enc1.op.inDestination 0xFF = false ∧ enc1.op.inOutput 0 = false ∧ enc1.op.inSource 7 = true ∧
      enc1.op.inPayload 1 = true) ∧
      (∃ t, Inv dec9 ∧ dec9.busy = true ∧ completeCommand (instrOfOp dec9.op.op) dec9 = .next t ∧
        dec9.op.inSource 2 = true ∧ dec9.op.inOutput 1 = false) ∧
      ∃ t, Inv clashing ∧ clashing.busy = true ∧ completeCommand (instrOfOp clashing.op.op) clashing = .next t ∧
        clashing.op.inDestination 3 = false ∧ clashing.op.inSource 0x104 = true :=
  ⟨⟨_, enc1_inv, rfl, rfl, by decide, by decide, by decide, by decide⟩,
    ⟨_, dec9_inv, rfl, rfl, by decide, by decide⟩,
    (completeCommand_answers (instrOfOp clashing.op.op) clashing).imp fun _ h =>
      ⟨clashing_inv, rfl, h.1, by decide, by decide⟩⟩

/-! #### Several instances -/

/-- The first and last of two other instances, and the number past the last. -/
theorem meets_AddressingAnInstanceChangesNothing :
    (∀ k ∈ [0, 1], ∃ s : State, s.script = [.select k] ∧ ∃ x, s.others[k]? = some x) ∧
      ∃ s : State, s.script = [.select 2] ∧ s.others.length ≤ 2 := by
  refine ⟨fun k hk => ⟨(State.platform 2).withScript [.select k], rfl, Instance.reset, ?_⟩,
    ⟨(State.platform 2).withScript [.select 2], rfl, Nat.le_refl 2⟩⟩
  simp only [List.mem_cons, List.not_mem_nil, or_false] at hk
  rcases hk with rfl | rfl <;> rfl

/-- Each kind of move next to another instance; another instance that can clash, and one that cannot; and a START. -/
theorem meets_InstancesShareOnlyTheMemories :
    (∀ m ∈ [Move.regWrite 32 0x00 0x1#32, .complete, .reset], (∀ k, m ≠ .select k) ∧
      ∃ s t : State, s.script = [m] ∧ s.others ≠ [] ∧ step s = .next t) ∧
      (∀ s ∈ [clashing, apart], s.others[0]? = some enc1.selected ∧ enc1.selected.busy = true ∧
        (∃ r : State, r = s.withScript [.reset] ∧ r.script = [.reset] ∧ r.busy = true)) ∧
      enc1.selected.op.clashes clashing.op = true ∧ enc1.selected.op.clashes apart.op = false ∧
      ∃ s : State, s.script = [.regWrite 32 0x00 0x1#32] ∧ (0x1#32).getLsbD 0 = true ∧ s.busy = false := by
  refine ⟨fun m hm => ?_, fun s hs => ?_, by decide, by decide, doing (.regWrite 32 0x00 0x1#32), rfl, rfl, rfl⟩
  · simp only [List.mem_cons, List.not_mem_nil, or_false] at hm
    rcases hm with rfl | rfl | rfl <;> exact ⟨nofun, apart.withScript [_], _, rfl, by decide, rfl⟩
  · simp only [List.mem_cons, List.not_mem_nil, or_false] at hs
    rcases hs with rfl | rfl <;> exact ⟨rfl, rfl, _, rfl, rfl, rfl⟩

/-- An ENCODE and a DECODE that succeed, with the first and last locations they touch and those next to them, one of each
that ends with an error, and one in a clash. -/
theorem meets_FootprintsAreWhatCommandsReadAndWrite :
    (∀ s ∈ [enc1, clashing, failing, clashingBytes, dec7], s.busy = true) ∧ Inv enc1 ∧ Inv clashing ∧ Inv failing ∧
      Inv clashingBytes ∧ Inv dec7 ∧
      (∀ i ∈ [0x100, 0x107], enc1.footprint.pixWritten.holds i = true) ∧
      (∀ i ∈ [0xFF, 0x108], enc1.footprint.pixWritten.holds i = false) ∧
      (∀ i ∈ [0, 7], enc1.footprint.pixRead.holds i = true) ∧ enc1.footprint.pixRead.holds 8 = false ∧
      (∀ a ∈ [0, 1], enc1.footprint.byteRead.holds a = true) ∧ enc1.footprint.byteRead.holds 2 = false ∧
      failing.footprint.pixWritten.holds 4 = false ∧
      (∀ a ∈ [1, 2], clashingBytes.footprint.byteWritten.holds a = true) ∧
      (∀ a ∈ [0, 3], clashingBytes.footprint.byteWritten.holds a = false) ∧
      dec7.footprint.pixRead.holds 2 = true ∧ dec7.footprint.byteWritten.holds 0 = false :=
  ⟨by decide, enc1_inv, clashing_inv, failing_inv, clashingBytes_inv, dec7_inv, by decide⟩

/-- Pixel words and bytes in the clash (the first and the last of each kind), and next to it. -/
theorem meets_ClashingLocationsHoldDraws :
    (Inv clashing ∧ clashing.busy = true ∧ clashing.rivals ≠ [] ∧
      (∀ i ∈ [0x104, 0x107], clashing.op.inSource i = true ∧ i < 2 ^ clashing.pixAw ∧
        ∃ f ∈ clashing.met, f.pixWritten.holds i = true) ∧
      (clashing.op.inSource 0x108 = true ∧ ∀ f ∈ clashing.met, f.pixWritten.holds 0x108 = false) ∧
      (∀ i ∈ [4, 7], clashing.footprint.pixWritten.holds i = true ∧ ∃ f ∈ clashing.met, f.pixRead.holds i = true) ∧
      clashing.footprint.pixWritten.holds 8 = true ∧
      ∀ f ∈ clashing.met, f.pixRead.holds 8 = false ∧ f.pixWritten.holds 8 = false) ∧
    (Inv clashingBytes ∧ clashingBytes.busy = true ∧ clashingBytes.rivals ≠ [] ∧
      clashingBytes.footprint.byteWritten.holds 1 = true ∧ (∃ f ∈ clashingBytes.met, f.byteRead.holds 1 = true) ∧
      clashingBytes.footprint.byteWritten.holds 2 = true ∧
      ∀ f ∈ clashingBytes.met, f.byteRead.holds 2 = false ∧ f.byteWritten.holds 2 = false) ∧
    Inv clashingPayload ∧ clashingPayload.busy = true ∧ clashingPayload.rivals ≠ [] ∧
      clashingPayload.op.inPayload 1 = true ∧ 1 < 2 ^ clashingPayload.byteAw ∧
      (∃ f ∈ clashingPayload.met, f.byteWritten.holds 1 = true) ∧ clashingPayload.op.inPayload 0 = true ∧
      ∀ f ∈ clashingPayload.met, f.byteWritten.holds 0 = false :=
  ⟨⟨clashing_inv, rfl, by decide⟩, ⟨clashingBytes_inv, rfl, by decide⟩, clashingPayload_inv, rfl, by decide⟩

/-- Regions of their own; and a clash of the regions that the operands name, but not of what the commands touch. -/
theorem meets_ClashFreeInstancesAreIndependent :
    (∀ s ∈ [apart, failing, decodingNothing], s.busy = true ∧ s.others[0]? = some enc1.selected ∧
      enc1.selected.busy = true ∧ (∃ t, completeCommand (instrOfOp s.op.op) s = .next t) ∧
      s.footprint.clashes (s.withInstances enc1.selected (s.others.set 0 s.selected)).footprint = false) ∧
      Inv apart ∧ Inv failing ∧ Inv decodingNothing ∧ apart.op.clashes enc1.selected.op = false ∧
      enc1.selected.op.inSource 7 = true ∧ enc1.selected.op.inPayload 0 = true ∧
      (apart.withInstances enc1.selected (apart.others.set 0 apart.selected)).footprint.pixWritten.holds 0x100 = true := by
  refine ⟨fun s hs => ?_, apart_inv, failing_inv, decodingNothing_inv, by decide⟩
  obtain ⟨t, ht, -⟩ := completeCommand_answers (instrOfOp s.op.op) s
  simp only [List.mem_cons, List.not_mem_nil, or_false] at hs
  rcases hs with rfl | rfl | rfl <;> exact ⟨rfl, rfl, rfl, ⟨t, ht⟩, by decide⟩

theorem meets_DecodeBitStreamReadsEverySlot : 0 < dec7.op.slots ∧ 8 < dec7.op.slots ∧ ¬9 < dec7.op.slots := by decide

theorem meets_ExpandedStreamIsLsbFirstWithSentinel : 1 < [0x48#8, 0x69#8].length ∧ 7 < 8 := by decide

/-! #### ENCODE -/

/-- An exact fill, two spare slots, and truncation. -/
theorem meets_EncodeEmbedsTheStreamInACopy :
    ∀ s ∈ [enc1, enc2, enc3], Inv s ∧ Running s ∧ EncodeChecksPass s ∧ 0 < s.op.slots ∧ 0 < s.op.pixels := by
  intro s hs
  simp only [List.mem_cons, List.not_mem_nil, or_false] at hs
  rcases hs with rfl | rfl | rfl
  · exact ⟨enc1_inv, by decide⟩
  · exact ⟨enc2_inv, by decide⟩
  · exact ⟨enc3_inv, by decide⟩

/-- A success with the words next to the destination, and a failure. -/
theorem meets_EncodeLeavesEverythingElseAlone :
    (Inv enc1 ∧ ∀ i ∈ [0xFF, 0x108], ¬(enc1.op.dst.toNat ≤ i ∧ i < enc1.op.dst.toNat + enc1.op.pixels)) ∧
      ∃ s t : State, Inv s ∧ exec .encode s = .next t ∧ t.err ≠ 0#4 :=
  ⟨⟨enc1_inv, by decide⟩, ⟨idle, _, idle_inv, rfl, by decide⟩⟩

theorem meets_EncodePreservesAlphaAndUpperBits :
    Inv enc1 ∧ Running enc1 ∧ exec .encode enc1 = .next (encoded enc1) ∧ (encoded enc1).err = 0#4 ∧
      7 < enc1.op.pixels := ⟨enc1_inv, by decide, rfl, by decide, by decide⟩

/-- The slots written are 0, 1 and 2 modulo 3, and a pixel lies past the last one used. -/
theorem meets_EncodeLeavesTheTailUnmodified :
    (∀ s ∈ [enc1, enc2, encLong], Inv s ∧ Running s ∧ exec .encode s = .next (encoded s) ∧ (encoded s).err = 0#4 ∧
      0 < s.op.slotsWritten) ∧
      enc1.op.slotsWritten % 3 = 0 ∧ enc2.op.slotsWritten % 3 = 1 ∧ encLong.op.slotsWritten % 3 = 2 ∧
      (encLong.op.slotsWritten + 2) / 3 ≤ 11 ∧ 11 < encLong.op.pixels := by
  refine ⟨fun s hs => ?_, by decide⟩
  simp only [List.mem_cons, List.not_mem_nil, or_false] at hs
  rcases hs with rfl | rfl | rfl
  · exact ⟨enc1_inv, by decide, rfl, by decide, by decide⟩
  · exact ⟨enc2_inv, by decide, rfl, by decide, by decide⟩
  · exact ⟨encLong_inv, by decide, rfl, by decide, by decide⟩

theorem meets_EncodeTruncatesSilentlyAndFillsExactly :
    (Inv enc3 ∧ Running enc3 ∧ EncodeChecksPass enc3 ∧ enc3.op.slots < enc3.op.streamLen) ∧
      Inv enc1 ∧ Running enc1 ∧ EncodeChecksPass enc1 ∧ enc1.op.slots = enc1.op.streamLen :=
  ⟨⟨enc3_inv, by decide⟩, enc1_inv, by decide⟩

/-- Two states that differ outside the inputs (in DST's contents, IRQ_EN and a byte past the payload). -/
theorem meets_EncodeDependsOnlyOnItsInputs :
    ∃ s s' t t' : State, s ≠ s' ∧ Inv s ∧ Inv s' ∧ Running s ∧ Running s' ∧ s'.op = s.op ∧ SameSizes s s' ∧
      (∀ i < s.op.pixels, memRead s'.pix (s.op.src.toNat + i) = memRead s.pix (s.op.src.toNat + i)) ∧
      (∀ i < s.op.payloadLen, memRead s'.bytes (s.op.pay.toNat + i) = memRead s.bytes (s.op.pay.toNat + i)) ∧
      exec .encode s = .next t ∧ exec .encode s' = .next t' ∧ t.err = 0#4 :=
  ⟨enc1, { enc1 with irqEn := true, pix := enc1.pix ++ [(0x100, 1#32)], bytes := enc1.bytes ++ [(2, 1#8)] }, _, _,
    by decide, enc1_inv, inv_of_checks (by decide) (by decide) (by decide), by decide, by decide, rfl, by decide, by decide, by decide, rfl,
    rfl, by decide⟩

/-! #### DECODE -/

/-- No first stop, from a bounded check. -/
theorem no_first_stop {bits : Nat → Bool} {n : Nat} (h : ∀ k < n, ¬ZeroRunEndsAt bits k) :
    ∀ k, ¬FirstStop bits n k := fun k hk => h k hk.1 hk.2.1

/-- V-DEC-11 (the output fits), V-DEC-12 (it does not) and V-DEC-7 (no stop). -/
theorem meets_DecodeReturnsTheGroupsBeforeTheFirstZeroRun :
    (Inv (dec11 0xFFFF#32) ∧ Running (dec11 0xFFFF#32) ∧
      (dec11 0xFFFF#32).fitsPix (dec11 0xFFFF#32).op.src.toNat (dec11 0xFFFF#32).op.pixels = true ∧
      FirstStop (slotBit (dec11 0xFFFF#32).pix (dec11 0xFFFF#32).op.src.toNat) (8 * ((dec11 0xFFFF#32).op.slots / 8)) 15 ∧
      (dec11 0xFFFF#32).fitsByte 0xFFFF (15 / 8) = true) ∧
    (Inv (dec11 0x10000#32) ∧ Running (dec11 0x10000#32) ∧ (dec11 0x10000#32).fitsByte 0x10000 (15 / 8) = false) ∧
    Inv dec7 ∧ Running dec7 ∧ dec7.fitsPix dec7.op.src.toNat dec7.op.pixels = true ∧
      ∀ k, ¬FirstStop (slotBit dec7.pix dec7.op.src.toNat) (8 * (dec7.op.slots / 8)) k :=
  ⟨⟨dec11_inv, by decide⟩, ⟨dec12_inv, by decide⟩, dec7_inv, by decide, by decide, no_first_stop (by decide)⟩

/-- A success with the bytes next to its one output byte, and a failure. -/
theorem meets_DecodeLeavesEverythingElseAlone :
    (∃ t, Inv (dec11 0x200#32) ∧ Running (dec11 0x200#32) ∧ exec .decode (dec11 0x200#32) = .next t ∧
      ∀ a ∈ [0x1FF, 0x201], ¬((dec11 0x200#32).op.out.toNat ≤ a ∧ a < (dec11 0x200#32).op.out.toNat + t.result.toNat)) ∧
      ∃ t, Inv dec7 ∧ Running dec7 ∧ exec .decode dec7 = .next t ∧ t.err ≠ 0#4 :=
  ⟨⟨_, inv_of_checks (by decide) (by decide) (by decide), by decide, rfl, by decide⟩, ⟨_, dec7_inv, by decide, rfl, by decide⟩⟩

theorem meets_StopInTheFirstGroupIsAnEmptySuccess :
    Inv dec9 ∧ Running dec9 ∧ dec9.fitsPix dec9.op.src.toNat dec9.op.pixels = true ∧
      FirstStop (slotBit dec9.pix dec9.op.src.toNat) (8 * (dec9.op.slots / 8)) 7 ∧ 7 ≤ 7 :=
  ⟨dec9_inv, by decide⟩

/-- Two states that differ outside the inputs (in IRQ_EN, a word past the image and a byte). -/
theorem meets_DecodeDependsOnlyOnItsInputs :
    ∃ s s' t t' : State, s ≠ s' ∧ Inv s ∧ Inv s' ∧ Running s ∧ Running s' ∧ s'.op = s.op ∧ SameSizes s s' ∧
      (∀ i < s.op.pixels, memRead s'.pix (s.op.src.toNat + i) = memRead s.pix (s.op.src.toNat + i)) ∧
      exec .decode s = .next t ∧ exec .decode s' = .next t' ∧ t.err = 0#4 ∧ 0 < t.result.toNat :=
  ⟨dec11 0xFFFF#32, { dec11 0xFFFF#32 with
      irqEn := true, pix := (dec11 0xFFFF#32).pix ++ [(6, 1#32)], bytes := [(0xFFFF, 1#8)] }, _, _,
    by decide, dec11_inv, inv_of_checks (by decide) (by decide) (by decide), by decide, by decide, rfl, by decide, by decide, rfl, rfl,
    by decide, by decide⟩

/-! #### ENCODE then DECODE -/

/-- V-ENC-1 then V-DEC-1. -/
theorem meets_EncodeThenDecodeReturnsThePayload :
    Inv enc1 ∧ Running enc1 ∧ exec .encode enc1 = .next (encoded enc1) ∧ (encoded enc1).err = 0#4 ∧
      Inv (decodingOf enc1) ∧ DecodesImageOf enc1 (encoded enc1) (decodingOf enc1) ∧
      (decodingOf enc1).fitsByte (decodingOf enc1).op.out.toNat enc1.op.payloadLen = true ∧
      enc1.op.streamLen ≤ enc1.op.slots ∧ NoZeroRun enc1.payload :=
  ⟨enc1_inv, by decide, rfl, by decide, decodingOf_enc1_inv, by decide, by decide, by decide, by decide⟩

/-- V-ENC-11 then V-DEC-3. -/
theorem meets_ZeroRunInThePayloadTruncatesTheDecode :
    Inv enc11 ∧ Running enc11 ∧ exec .encode enc11 = .next (encoded enc11) ∧ (encoded enc11).err = 0#4 ∧
      Inv (decodingOf enc11) ∧ DecodesImageOf enc11 (encoded enc11) (decodingOf enc11) ∧
      enc11.op.streamLen ≤ enc11.op.slots ∧ FirstStop (streamBit enc11.payload) (8 * enc11.op.payloadLen) 8 ∧
      (decodingOf enc11).fitsByte (decodingOf enc11).op.out.toNat (8 / 8) = true :=
  ⟨enc11_inv, by decide, rfl, by decide, decodingOf_enc11_inv, by decide, by decide, by decide, by decide⟩

/-- V-DEC-1, V-DEC-3 and V-DEC-6: each of the three endings is met. -/
theorem meets_DecodeOfAnEncodedImageIsNeverGarbage :
    ∀ s ∈ [enc1, enc11, enc14], ∃ t u, Inv s ∧ Running s ∧ exec .encode s = .next t ∧ t.err = 0#4 ∧
      Inv (decodingOf s) ∧ DecodesImageOf s t (decodingOf s) ∧
      (decodingOf s).fitsByte (decodingOf s).op.out.toNat s.op.payloadLen = true ∧
      exec .decode (decodingOf s) = .next u := by
  intro s hs
  simp only [List.mem_cons, List.not_mem_nil, or_false] at hs
  rcases hs with rfl | rfl | rfl
  · exact ⟨encoded enc1, _, enc1_inv, by decide, rfl, by decide, decodingOf_enc1_inv, by decide, by decide, rfl⟩
  · exact ⟨encoded enc11, _, enc11_inv, by decide, rfl, by decide, decodingOf_enc11_inv, by decide, by decide, rfl⟩
  · exact ⟨encoded enc14, _, enc14_inv, by decide, rfl, by decide, decodingOf_enc14_inv, by decide, by decide, rfl⟩

/-- V-ENC-14 then V-DEC-6. -/
theorem meets_OneBitBeyondCapacityLosesTheSentinel :
    (Inv enc14 ∧ Running enc14 ∧ exec .encode enc14 = .next (encoded enc14) ∧ (encoded enc14).err = 0#4 ∧
      Inv (decodingOf enc14) ∧ DecodesImageOf enc14 (encoded enc14) (decodingOf enc14) ∧
      enc14.op.streamLen = enc14.op.slots + 1 ∧ NoZeroRun enc14.payload) ∧
      enc1.op.slots = enc1.op.streamLen :=
  ⟨⟨enc14_inv, by decide, rfl, by decide, decodingOf_enc14_inv, by decide, by decide, by decide⟩, by decide⟩

/-! #### CAPACITY, the reserved code, errors -/

theorem meets_CapacityTellsWhetherAPayloadFits :
    ∃ s t c c' : State, Inv s ∧ Running s ∧ EncodeChecksPass s ∧ exec .encode s = .next t ∧ c.op.w = s.op.w ∧
      c.op.h = s.op.h ∧ exec .capacity c = .next c' :=
  ⟨enc1, _, { idle with dim := 0x00020004#32 }.start .capacity, _, enc1_inv, by decide, by decide, rfl, rfl, rfl, rfl⟩

theorem meets_StartOfTheReservedCodeIsAcceptedAndReported :
    ∃ s : State, s.script = [.regWrite 32 0x00 0xFFFFFFF7#32, .complete] ∧ s.busy = false ∧
      (0xFFFFFFF7#32).extractLsb' 0 3 = 0b111#3 :=
  ⟨idle.withScript [.regWrite 32 0x00 0xFFFFFFF7#32, .complete], rfl, rfl, by decide⟩

/-- DECODE's four endings: no room for the source (V-DEC-13), no stop, no room for the output, success. -/
theorem meets_ErrorsFollowTheOrderOfTheChecks :
    (∃ s : State, Running s ∧ s.fitsPix s.op.src.toNat s.op.pixels = false) ∧
      (Running dec7 ∧ dec7.fitsPix dec7.op.src.toNat dec7.op.pixels = true ∧
        ∀ k, ¬FirstStop (slotBit dec7.pix dec7.op.src.toNat) (8 * dec7.op.groups) k) ∧
      ∀ s ∈ [dec11 0xFFFF#32, dec11 0x10000#32], Running s ∧ s.fitsPix s.op.src.toNat s.op.pixels = true ∧
        FirstStop (slotBit s.pix s.op.src.toNat) (8 * s.op.groups) 15 :=
  ⟨⟨{ idle with dim := 0x00010003#32, srcBase := 0xFFFE#32 }.start .decode, by decide, by decide⟩,
    ⟨by decide, by decide, no_first_stop (by decide)⟩, by decide⟩

/-- Each of the three commands that can fail, alone and, for DECODE, in a clash. -/
theorem meets_ErroringCommandsWriteNothing :
    ((∃ t, exec .encode idle = .next t ∧ t.err ≠ 0#4) ∧ (∃ t, exec .decode dec7 = .next t ∧ t.err ≠ 0#4) ∧
      ∃ t, exec .reservedOp3 idle = .next t ∧ t.err ≠ 0#4) ∧
      (∃ t, Inv dec7 ∧ dec7.busy = true ∧ completeCommand (instrOfOp dec7.op.op) dec7 = .next t ∧ t.err ≠ 0#4) ∧
      ∃ t, Inv clashingShort ∧ clashingShort.busy = true ∧ clashingShort.rivals ≠ [] ∧
        completeCommand (instrOfOp clashingShort.op.op) clashingShort = .next t ∧ t.err ≠ 0#4 :=
  ⟨⟨⟨_, rfl, by decide⟩, ⟨_, rfl, by decide⟩, ⟨_, rfl, by decide⟩⟩, ⟨_, dec7_inv, rfl, rfl, by decide⟩,
    ⟨_, clashingShort_inv, rfl, by decide, completeCommand_clashing (by decide) rfl, by decide⟩⟩

end Sys2Proof.Tests
end

section
/-! The host's accesses to the two memories outside the busy window (spec/00_scope.md R12, spec/20_memory.md R61,
R62, R68 and R74). -/

namespace Sys2Proof.Machine

/-! ### What each access does at a location that exists and that no running command guards -/

theorem runMove_pixWrite_free {s : State} {i : Nat} (v : Word) (hi : i < 2 ^ s.pixAw)
    (hfree : ∀ o ∈ s.running, o.inSource i = false ∧ o.inDestination i = false) :
    runMove (.pixWrite i v) s = .next (s.withPix (memWrite s.pix i v)) := by
  have hguard : ¬s.running.any (fun o => o.inSource i || o.inDestination i) = true := by simpa using hfree
  simp only [runMove, hostPixWrite, if_neg (Nat.not_le.mpr hi), if_neg hguard]

theorem runMove_byteWrite_free {s : State} {a : Nat} (v : Byte) (ha : a < 2 ^ s.byteAw)
    (hfree : ∀ o ∈ s.running, o.inPayload a = false ∧ o.inOutput a = false) :
    runMove (.byteWrite a v) s = .next (s.withBytes (memWrite s.bytes a v)) := by
  have hguard : ¬s.running.any (fun o => o.inPayload a || o.inOutput a) = true := by simpa using hfree
  simp only [runMove, hostByteWrite, if_neg (Nat.not_le.mpr ha), if_neg hguard]

theorem runMove_pixRead_free {s : State} {i : Nat} (hi : i < 2 ^ s.pixAw)
    (hfree : ∀ o ∈ s.running, o.inDestination i = false) :
    runMove (.pixRead i) s = .next (s.withHostData (memRead s.pix i)) := by
  have hguard : ¬s.running.any (·.inDestination i) = true := by simpa using hfree
  simp only [runMove, hostPixRead, if_neg (Nat.not_le.mpr hi), if_neg hguard]

theorem runMove_byteRead_free {s : State} {a : Nat} (ha : a < 2 ^ s.byteAw)
    (hfree : ∀ o ∈ s.running, o.inOutput a = false) :
    runMove (.byteRead a) s = .next (s.withHostData ((memRead s.bytes a).setWidth 32)) := by
  have hguard : ¬s.running.any (·.inOutput a) = true := by simpa using hfree
  simp only [runMove, hostByteRead, if_neg (Nat.not_le.mpr ha), if_neg hguard]

/-! ### Read over write -/

theorem memRead_memWrite_same {w : Nat} {m : Memory w} (h : Memory.wf m) (a : Nat) (v : BitVec w) :
    memRead (memWrite m a v) a = v := by
  rw [memRead_memWrite m h, if_pos rfl]

theorem memRead_memWrite_other {w : Nat} {m : Memory w} (h : Memory.wf m) (a : Nat) (v : BitVec w) {b : Nat}
    (hb : b ≠ a) : memRead (memWrite m a v) b = memRead m b := by
  rw [memRead_memWrite m h, if_neg hb]

/-- Settles O28: off the busy window a write is `memWrite` on its space, whose canonical form gives read over write. -/
theorem hostMemoryAccessesReachTheirLocation : Obligations.HostMemoryAccessesReachTheirLocation := by
  intro s rest hinv
  refine ⟨fun i v hi hfree hs => ?pixWrite, fun a v ha hfree hs => ?byteWrite, fun i hi hfree hs => ?pixRead,
    fun a ha hfree hs => ?byteRead⟩
  case pixWrite =>
    refine ⟨_, (step_of_script hs).trans (runMove_pixWrite_free v hi hfree), ?_, fun j hj => ?_, ?frame⟩
    · exact memRead_memWrite_same hinv.pix_wf i v
    · exact memRead_memWrite_other hinv.pix_wf i v hj
    case frame => simp [SameHostRegisters, SameStatus, SameLatches]
  case byteWrite =>
    refine ⟨_, (step_of_script hs).trans (runMove_byteWrite_free v ha hfree), ?_, fun b hb => ?_, ?frame⟩
    · exact memRead_memWrite_same hinv.bytes_wf a v
    · exact memRead_memWrite_other hinv.bytes_wf a v hb
    case frame => simp [SameHostRegisters, SameStatus, SameLatches]
  case pixRead => exact (step_of_script hs).trans (runMove_pixRead_free hi hfree)
  case byteRead => exact (step_of_script hs).trans (runMove_byteRead_free ha hfree)

end Sys2Proof.Machine
end

section
/-! The sizes of the two spaces along every step (spec/00_scope.md R9). -/

namespace Sys2Proof.Machine

theorem writeCtrl_sameSizes (s : State) (v : Word) : SameSizes s (s.writeCtrl v) := by
  rcases writeCtrl_cases s v with ⟨i, _, _, h⟩ | ⟨_, h⟩ <;> simp [SameSizes, h]

theorem writeReg_sameSizes (s : State) (r : Reg) (v : Word) : SameSizes s (s.writeReg r v) := by
  cases r with
  | ctrl => exact writeCtrl_sameSizes s v
  | status => exact ⟨writeStatus_pixAw s v, writeStatus_byteAw s v⟩
  | _ => exact ⟨rfl, rfl⟩

theorem writeOffset_sameSizes (s : State) (offset : Nat) (v : Word) : SameSizes s (s.writeOffset offset v) := by
  unfold State.writeOffset
  split
  · next r _ => exact writeReg_sameSizes s r v
  · exact ⟨rfl, rfl⟩

/-- The moves with branches of their own (register write, completion, reset) need a word each; the others replace named
fields that are not the sizes. -/
theorem MoveCase.sameSizes {s t : State} {m : Move} (h : MoveCase s m t) : SameSizes s t := by
  cases h with
  | regWrite _ offset v _ => exact writeOffset_sameSizes s offset v
  | complete _ _ hc =>
    obtain ⟨_, _, hsizes, _⟩ := hc.frame
    exact hsizes
  | reset => by_cases hb : s.busy = true <;> simp [SameSizes, hb]
  | _ => exact ⟨rfl, rfl⟩

/-- Settles O25, by the ways in which a step goes on. -/
theorem noStepChangesTheSpaceSizes : Obligations.NoStepChangesTheSpaceSizes := by
  intro s t h
  rcases step_cases h with ⟨_, _, rfl⟩ | ⟨_, _, hcomplete⟩ | ⟨_, _, k, hselect⟩ | ⟨m, rest, _, hmove⟩
  · exact ⟨rfl, rfl⟩
  · obtain ⟨_, _, hsizes, _⟩ := hcomplete.frame
    exact hsizes
  · exact (selectInstance_cases hselect).sameSizes
  · exact (runMove_cases hmove).sameSizes

end Sys2Proof.Machine
end

section
/-! The laws of the register block's flags along every step: the invariant (spec/10_state.md R24, R28 and R33,
spec/20_memory.md R61 and R62, spec/60_exceptions.md R222 and R233), the reset values (R35) and `done_irq` (R31). -/

namespace Sys2Proof.Machine

/-! ### The memories of a state -/

/-- The part of `Inv` that speaks of the two spaces (R61, R62; `Inv.memories`). -/
abbrev MemoriesInv (s : State) : Prop :=
  Memory.wf s.pix ∧ Memory.within (2 ^ s.pixAw) s.pix ∧ Memory.wf s.bytes ∧ Memory.within (2 ^ s.byteAw) s.bytes

theorem Inv.memories {s : State} (h : Inv s) : MemoriesInv s := ⟨h.pix_wf, h.pix_within, h.bytes_wf, h.bytes_within⟩

theorem MemoriesInv.withPix_memWrite {s : State} (h : MemoriesInv s) {i : Nat} (hi : i < 2 ^ s.pixAw) (v : Word) :
    MemoriesInv (s.withPix (memWrite s.pix i v)) := by
  obtain ⟨hpw, hpi, hbw, hbi⟩ := h
  exact ⟨memWrite_wf _ hpw i v, memWrite_within _ hpi i v hi, hbw, hbi⟩

theorem MemoriesInv.withBytes_memWrite {s : State} (h : MemoriesInv s) {a : Nat} (ha : a < 2 ^ s.byteAw) (v : Byte) :
    MemoriesInv (s.withBytes (memWrite s.bytes a v)) := by
  obtain ⟨hpw, hpi, hbw, hbi⟩ := h
  exact ⟨hpw, hpi, memWrite_wf _ hbw a v, memWrite_within _ hbi a v ha⟩

theorem MemoriesInv.seen {s : State} (h : MemoriesInv s) : MemoriesInv s.seen := by
  obtain ⟨hpw, hpi, hbw, hbi⟩ := h
  exact ⟨seen_pix_wf hpw, seen_pix_within hpi, seen_bytes_wf hbw, seen_bytes_within hbi⟩

theorem MemoriesInv.settle {s t : State} (h : MemoriesInv t) (hsizes : SameSizes s t) : MemoriesInv (s.settle t) := by
  obtain ⟨hpw, hpi, hbw, hbi⟩ := h
  obtain ⟨hp, hb⟩ := hsizes
  refine ⟨settle_pix_wf hpw, ?_, settle_bytes_wf hbw, ?_⟩
  · show Memory.within (2 ^ t.pixAw) (s.settle t).pix
    rw [hp] at hpi ⊢
    exact settle_pix_within hpi
  · show Memory.within (2 ^ t.byteAw) (s.settle t).bytes
    rw [hb] at hbi ⊢
    exact settle_bytes_within hbi

theorem MemoriesInv.abandon {s : State} (h : MemoriesInv s) : MemoriesInv s.abandon := by
  obtain ⟨hpw, hpi, hbw, hbi⟩ := h
  exact ⟨drawRange_wf _ _ _ _ hpw _ _ _, drawRange_within _ _ _ _ hpi _ _ _, drawRange_wf _ _ _ _ hbw _ _ _,
    drawRange_within _ _ _ _ hbi _ _ _⟩

/-! ### The laws of one core -/

/-- An idle core has no laws to keep but those of ERR, RESULT and the empty record. -/
theorem InstanceInv.of_idle {x : Instance} (hidle : x.busy = false) (hended : x.ended = []) (herr : x.err.toNat ≤ 5)
    (hresult : x.err ≠ 0#4 → x.result = 0#64) (hbound : x.result.toNat < 2 ^ 34) : InstanceInv x where
  busy_not_done h := by simp [hidle] at h
  busy_err h := by simp [hidle] at h
  busy_result h := by simp [hidle] at h
  busy_internal h := by simp [hidle] at h
  err_legal := herr
  err_result := hresult
  result_bound := hbound
  idle_ended _ := hended

theorem instanceInv_reset : InstanceInv Instance.reset :=
  .of_idle rfl rfl (by decide) (fun _ => rfl) (by decide)

/-- The laws read STATUS, RESULT and the latches only. -/
theorem InstanceInv.of_same {s t : State} (h : InstanceInv s.selected) (hstatus : SameStatus s t)
    (hlatches : SameLatches s t) : InstanceInv t.selected := by
  obtain ⟨hbusy, hdone, herr, hresult⟩ := hstatus
  obtain ⟨_, hinternal, _, hended⟩ := hlatches
  obtain ⟨h1, h2, h3, h4, h5, h6, h7, h8⟩ := h
  constructor <;> simpa only [State.selected, hbusy, hdone, herr, hresult, hinternal, hended]

theorem InstanceInv.meet {x : Instance} (h : InstanceInv x) (o : Operands) (f : Footprint) :
    InstanceInv (x.meet o f) := by
  unfold Instance.meet
  split
  · next hclash =>
    have hbusy : x.busy = true := (Bool.and_eq_true_iff.mp hclash).1
    exact { h with idle_ended := fun hidle => by simp [hbusy] at hidle }
  · exact h

theorem drawsApart_meet {x y : Instance} {o : Operands} {f : Footprint} :
    DrawsApart (x.meet o f) (y.meet o f) ↔ DrawsApart x y := by simp [DrawsApart]

theorem drawsApart_of_idle {x : Instance} (hidle : x.busy = false) (y : Instance) : DrawsApart x y :=
  fun hbusy => by simp [hidle] at hbusy

/-! ### What keeps the invariant -/

theorem Inv.others_laws {s : State} (h : Inv s) {x : Instance} (hx : x ∈ s.others) : InstanceInv x :=
  h.instance_laws x (List.mem_cons_of_mem _ hx)

theorem Inv.others_spent {s : State} (h : Inv s) {x : Instance} (hx : x ∈ s.others) (hbusy : x.busy = true) :
    x.firstDraw + x.op.readLen ≤ s.draws := h.draws_spent x (List.mem_cons_of_mem _ hx) hbusy

theorem Inv.addressed_spent {s : State} (h : Inv s) (hbusy : s.busy = true) :
    s.firstDraw + s.op.readLen ≤ s.draws := h.draws_spent s.selected (List.mem_cons_self ..) hbusy

theorem Inv.addressed_apart {s : State} (h : Inv s) {x : Instance} (hx : x ∈ s.others) : DrawsApart s.selected x :=
  (List.pairwise_cons.mp h.draws_apart).1 x hx

/-- A change of the memories and of the draw counter only. -/
theorem Inv.of_instances {s t : State} (h : Inv s) (hinstances : t.instances = s.instances) (hsizes : SameSizes s t)
    (hmemories : MemoriesInv t) (hdraws : s.draws ≤ t.draws) : Inv t := by
  obtain ⟨hpix, hbytes⟩ := hsizes
  obtain ⟨hpw, hpi, hbw, hbi⟩ := hmemories
  exact ⟨hpix ▸ h.pixAw_range, hbytes ▸ h.byteAw_range, hpw, hpi, hbw, hbi, hinstances ▸ h.instance_laws,
    hinstances ▸ fun x hx hbusy => (h.draws_spent x hx hbusy).trans hdraws, hinstances ▸ h.draws_apart⟩

/-- A change of the addressed core's registers and latches, of the memories and of the draw counter: it keeps the
invariant if the new values meet their share of it. -/
theorem Inv.of_addressed {s t : State} (h : Inv s) (hothers : t.others = s.others) (hsizes : SameSizes s t)
    (hmemories : MemoriesInv t) (hdraws : s.draws ≤ t.draws) (hlaws : InstanceInv t.selected)
    (hspent : t.busy = true → t.firstDraw + t.op.readLen ≤ t.draws)
    (hapart : ∀ x ∈ s.others, DrawsApart t.selected x) : Inv t := by
  obtain ⟨hpix, hbytes⟩ := hsizes
  obtain ⟨hpw, hpi, hbw, hbi⟩ := hmemories
  refine ⟨hpix ▸ h.pixAw_range, hbytes ▸ h.byteAw_range, hpw, hpi, hbw, hbi, ?laws, ?spent, ?apart⟩
  case laws => exact List.forall_mem_cons.mpr ⟨hlaws, fun x hx => h.others_laws (hothers ▸ hx)⟩
  case spent =>
    exact List.forall_mem_cons.mpr ⟨hspent, fun x hx hbusy => (h.others_spent (hothers ▸ hx) hbusy).trans hdraws⟩
  case apart =>
    rw [State.instances, hothers]
    exact List.pairwise_cons.mpr ⟨hapart, (List.pairwise_cons.mp h.draws_apart).2⟩

/-- A change that leaves STATUS, RESULT and the latches of the addressed core alone. -/
theorem Inv.of_same {s t : State} (h : Inv s) (hstatus : SameStatus s t) (hlatches : SameLatches s t)
    (hothers : t.others = s.others) (hsizes : SameSizes s t) (hmemories : MemoriesInv t)
    (hdraws : s.draws ≤ t.draws) : Inv t := by
  have hlaws := h.addressed.of_same hstatus hlatches
  obtain ⟨hbusy, _⟩ := hstatus
  obtain ⟨hop, _, hfirst, _⟩ := hlatches
  refine h.of_addressed hothers hsizes hmemories hdraws hlaws ?spent fun x hx => ?apart
  case spent =>
    rw [hbusy, hfirst, hop]
    exact fun hb => (h.addressed_spent hb).trans hdraws
  case apart =>
    have hapart := h.addressed_apart hx
    simpa only [DrawsApart, State.selected, hbusy, hop, hfirst] using hapart

/-- A change that leaves the addressed core idle, with nothing on record. -/
theorem Inv.of_idle {s t : State} (h : Inv s) (hidle : t.busy = false) (hothers : t.others = s.others)
    (hsizes : SameSizes s t) (hmemories : MemoriesInv t) (hdraws : s.draws ≤ t.draws)
    (hlaws : InstanceInv t.selected) : Inv t :=
  h.of_addressed hothers hsizes hmemories hdraws hlaws (fun hbusy => by simp [hidle] at hbusy)
    fun x _ => drawsApart_of_idle hidle x

/-! ### The operations of the model keep the invariant -/

theorem Inv.withScript {s : State} (h : Inv s) (moves : List Move) : Inv (s.withScript moves) :=
  h.of_instances rfl ⟨rfl, rfl⟩ h.memories le_rfl

theorem Inv.withHostData {s : State} (h : Inv s) (v : Word) : Inv (s.withHostData v) :=
  h.of_instances rfl ⟨rfl, rfl⟩ h.memories le_rfl

theorem Inv.drawn {s : State} (h : Inv s) (n : Nat) : Inv (s.drawn n) :=
  h.of_instances rfl ⟨rfl, rfl⟩ h.memories (Nat.le_add_right ..)

theorem Inv.setCtrl {s : State} (h : Inv s) (v : Word) : Inv (s.setCtrl v) :=
  h.of_same ⟨rfl, rfl, rfl, rfl⟩ ⟨rfl, rfl, rfl, rfl⟩ rfl ⟨rfl, rfl⟩ h.memories le_rfl

theorem Inv.writeOperand {s : State} (h : Inv s) (r : Reg) (v : Word) : Inv (s.writeOperand r v) :=
  h.of_same (by simp [SameStatus]) (by simp [SameLatches]) (by simp) (by simp [SameSizes])
    (by simpa [MemoriesInv] using h.memories) (by simp)

theorem Inv.withPix_memWrite {s : State} (h : Inv s) {i : Nat} (hi : i < 2 ^ s.pixAw) (v : Word) :
    Inv (s.withPix (memWrite s.pix i v)) :=
  h.of_instances rfl ⟨rfl, rfl⟩ (h.memories.withPix_memWrite hi v) le_rfl

theorem Inv.withBytes_memWrite {s : State} (h : Inv s) {a : Nat} (ha : a < 2 ^ s.byteAw) (v : Byte) :
    Inv (s.withBytes (memWrite s.bytes a v)) :=
  h.of_instances rfl ⟨rfl, rfl⟩ (h.memories.withBytes_memWrite ha v) le_rfl

/-- DONE falls: only the law that BUSY and DONE are not both 1 speaks of it. -/
theorem Inv.clearDone {s : State} (h : Inv s) : Inv s.clearDone :=
  h.of_addressed rfl ⟨rfl, rfl⟩ h.memories le_rfl { h.addressed with busy_not_done := fun hbd => by cases hbd.2 }
    h.addressed_spent fun _ => h.addressed_apart

/-- START sets aside draws from the counter on, so past those of every other running command. -/
theorem Inv.start {s : State} (h : Inv s) (i : Instr) : Inv (s.start i) := by
  refine h.of_addressed rfl ⟨rfl, rfl⟩ h.memories (Nat.le_add_right ..) ?laws (fun _ => le_rfl)
    fun x hx _ hbusy => ?apart
  case laws =>
    exact {
      busy_not_done := fun hbd => by cases hbd.2
      busy_err := fun _ => rfl
      busy_result := fun _ => rfl
      busy_internal := fun _ => rfl
      err_legal := Nat.zero_le _
      err_result := fun _ => rfl
      result_bound := by simp [State.selected]
      idle_ended := fun _ => rfl }
  case apart => exact .inr (h.others_spent hx hbusy)

theorem Inv.writeCtrl {s : State} (h : Inv s) (v : Word) : Inv (s.writeCtrl v) := by
  rcases writeCtrl_cases s v with ⟨i, _, _, heq⟩ | ⟨_, heq⟩
  · exact heq ▸ (h.setCtrl v).start i
  · exact heq ▸ h.setCtrl v

theorem Inv.writeStatus {s : State} (h : Inv s) (v : Word) : Inv (s.writeStatus v) := by
  unfold State.writeStatus
  split
  · exact h.clearDone
  · exact h

theorem Inv.writeReg {s : State} (h : Inv s) (r : Reg) (v : Word) : Inv (s.writeReg r v) := by
  cases r with
  | ctrl => exact h.writeCtrl v
  | status => exact h.writeStatus v
  | dim => exact h.writeOperand .dim v
  | srcBase => exact h.writeOperand .srcBase v
  | dstBase => exact h.writeOperand .dstBase v
  | payBase => exact h.writeOperand .payBase v
  | payLen => exact h.writeOperand .payLen v
  | outBase => exact h.writeOperand .outBase v
  | resultLo => exact h
  | resultHi => exact h

theorem Inv.writeOffset {s : State} (h : Inv s) (offset : Nat) (v : Word) : Inv (s.writeOffset offset v) := by
  unfold State.writeOffset
  split
  · next r _ => exact h.writeReg r v
  · exact h

theorem Inv.recordEnding {s : State} (h : Inv s) (o : Operands) (f : Footprint) : Inv (s.recordEnding o f) := by
  obtain ⟨haddressed, hothers⟩ := List.pairwise_cons.mp h.draws_apart
  refine ⟨h.pixAw_range, h.byteAw_range, h.pix_wf, h.pix_within, h.bytes_wf, h.bytes_within, ?laws, ?spent, ?apart⟩
  case laws =>
    exact List.forall_mem_cons.mpr ⟨h.addressed, List.forall_mem_map.mpr fun x hx => (h.others_laws hx).meet o f⟩
  case spent =>
    exact List.forall_mem_cons.mpr ⟨h.addressed_spent, List.forall_mem_map.mpr fun x hx => by
      simpa using h.others_spent hx⟩
  case apart =>
    refine List.pairwise_cons.mpr ⟨List.forall_mem_map.mpr fun x hx => ?_, List.pairwise_map.mpr ?_⟩
    · simpa [DrawsApart] using haddressed x hx
    · exact hothers.imp drawsApart_meet.mpr

/-- Addressing another core reorders the instances and changes none. -/
theorem Inv.select {s : State} (h : Inv s) {k : Nat} {x : Instance} (hx : s.others[k]? = some x) :
    Inv (s.withInstances x (s.others.set k s.selected)) := by
  have hperm : (s.withInstances x (s.others.set k s.selected)).instances.Perm s.instances := cons_set_perm _ k _ x hx
  exact ⟨h.pixAw_range, h.byteAw_range, h.pix_wf, h.pix_within, h.bytes_wf, h.bytes_within,
    fun y hy => h.instance_laws y (hperm.mem_iff.mp hy), fun y hy => h.draws_spent y (hperm.mem_iff.mp hy),
    (hperm.pairwise_iff DrawsApart.symm).mpr h.draws_apart⟩

/-! ### Reset and completion -/

theorem Inv.abandon {s : State} (h : Inv s) : Inv s.abandon :=
  h.of_instances rfl ⟨rfl, rfl⟩ h.memories.abandon (by simp only [State.abandon]; omega)

theorem Inv.resetRegisters_releaseLatches {s : State} (h : Inv s) : Inv s.resetRegisters.releaseLatches :=
  h.of_idle rfl rfl ⟨rfl, rfl⟩ h.memories (Nat.le_add_right ..)
    (.of_idle rfl rfl (Nat.zero_le _) (fun _ => rfl) (by simp [State.selected]))

theorem Inv.seen {s : State} (h : Inv s) : Inv s.seen :=
  h.of_instances rfl ⟨rfl, rfl⟩ h.memories.seen le_rfl

theorem Inv.settle {s t : State} (h : Inv t) (hsizes : SameSizes s t) : Inv (s.settle t) :=
  h.of_instances rfl ⟨rfl, rfl⟩ (h.memories.settle hsizes) (by simp; omega)

/-- exec of a running command: it starts from the initial internal state and leaves the core idle. -/
theorem ExecCase.inv {s t : State} {i : Instr} (hexec : ExecCase s i t) (h : Inv s) (hbusy : s.busy = true) :
    Inv t := by
  obtain ⟨⟨hidle, _⟩, _, hsizes, _, _, hothers, hended, hdraws⟩ := hexec.frame
  obtain ⟨hpw, hpi, hbw, hbi, hresult, hbound⟩ :=
    hexec.memories h.pix_wf h.pix_within h.bytes_wf h.bytes_within (h.running hbusy).2
  have hmemories : MemoriesInv t := ⟨hpw, hsizes.1 ▸ hpi, hbw, hsizes.2 ▸ hbi⟩
  exact h.of_idle hidle hothers hsizes hmemories hdraws (.of_idle hidle hended hexec.err_legal hresult hbound)

theorem CompleteCase.inv {s t : State} {i : Instr} (hcomplete : CompleteCase s i t) (h : Inv s)
    (hbusy : s.busy = true) : Inv t := by
  cases hcomplete with
  | alone u _ hexec => exact (hexec.inv h hbusy).recordEnding _ _
  | clashing u _ hexec =>
    obtain ⟨_, _, hsizes, _⟩ := hexec.frame
    exact (Inv.settle (s := s) (hexec.inv h.seen hbusy) hsizes).recordEnding _ _

/-! ### Steps -/

theorem MoveCase.inv {s t : State} {m : Move} (hmove : MoveCase s m t) (h : Inv s) : Inv t := by
  cases hmove with
  | regRead _ _ _ => exact h.withHostData _
  | regWrite _ offset v _ => exact h.writeOffset offset v
  | pixDraw _ _ _ => exact (h.withHostData _).drawn 1
  | pixRead _ _ _ => exact h.withHostData _
  | pixWrite _ v hi _ => exact h.withPix_memWrite hi v
  | byteDraw _ _ _ => exact (h.withHostData _).drawn 1
  | byteRead _ _ _ => exact h.withHostData _
  | byteWrite _ v ha _ => exact h.withBytes_memWrite ha v
  | idle _ => exact h
  | complete _ hbusy hcomplete => exact hcomplete.inv h hbusy
  | reset =>
    split
    · exact (h.abandon.recordEnding _ _).resetRegisters_releaseLatches
    · exact h.resetRegisters_releaseLatches
  | waitEnds _ _ => exact h.withHostData _
  | waitGoesOn _ _ => exact (h.withHostData _).withScript _
  | select k x hx => exact h.select hx

/-- Settles O24: each way in which a step goes on is made of operations that keep the invariant. -/
theorem stepKeepsTheInvariant : Obligations.StepKeepsTheInvariant := by
  intro s t h hstep
  rcases step_cases hstep with ⟨_, _, rfl⟩ | ⟨_, hbusy, hcomplete⟩ | ⟨_, _, k, hselect⟩ | ⟨m, rest, _, hmove⟩
  · exact h
  · exact hcomplete.inv h hbusy
  · exact (selectInstance_cases hselect).inv h
  · exact (runMove_cases hmove).inv (h.withScript rest)

/-! ### The state right after reset -/

theorem config_pixAw_range : 1 ≤ Config.pixAw ∧ Config.pixAw ≤ 32 := by
  have := Config.pixelSpaceChoice.isLt
  unfold Config.pixAw
  omega

theorem config_byteAw_range : 1 ≤ Config.byteAw ∧ Config.byteAw ≤ 32 := by
  have := Config.byteSpaceChoice.isLt
  unfold Config.byteAw
  omega

theorem wf_nil {w : Nat} : Memory.wf ([] : Memory w) := ⟨.nil, List.forall_mem_nil _⟩

theorem within_nil {w : Nat} (size : Nat) : Memory.within size ([] : Memory w) := List.forall_mem_nil _

theorem platform_instances (n : Nat) : (State.platform n).instances = List.replicate (n + 1) Instance.reset := rfl

theorem platform_inv (n : Nat) : Inv (State.platform n) := by
  have hreset : ∀ x ∈ (State.platform n).instances, x = Instance.reset := fun x hx =>
    List.eq_of_mem_replicate (platform_instances n ▸ hx)
  refine ⟨config_pixAw_range, config_byteAw_range, wf_nil, within_nil _, wf_nil, within_nil _, fun x hx => ?laws,
    fun x hx hbusy => ?spent, ?apart⟩
  case laws => exact hreset x hx ▸ instanceInv_reset
  case spent =>
    rw [hreset x hx] at hbusy
    cases hbusy
  case apart =>
    rw [platform_instances]
    exact List.pairwise_replicate.mpr (.inr (drawsApart_of_idle rfl _))

/-- Settles O23; `State.reset` is the platform of one core. -/
theorem resetMeetsTheInvariant : Obligations.ResetMeetsTheInvariant := ⟨platform_inv 0, platform_inv⟩

/-- Settles O19, register by register. -/
theorem resetStateReadsZero : Obligations.ResetStateReadsZero := by
  refine ⟨fun r => ?_, rfl, rfl, rfl⟩
  cases r <;> rfl

/-! ### The interrupt output -/

theorem exec_doneIrq {i : Instr} {s t : State} (h : exec i s = .next t) : t.doneIrq = s.irqEn := by
  obtain ⟨⟨_, hdone⟩, ⟨_, hirqEn, _⟩, _⟩ := (exec_cases h).frame
  rw [State.doneIrq, hdone, hirqEn, Bool.true_and]

theorem setCtrl_doneIrq (s : State) (v : Word) : (s.setCtrl v).doneIrq = (s.done && v.getLsbD 3) := rfl

theorem writeStatus_doneIrq {s : State} {v : Word} (h : v.getLsbD 1 = true) : (s.writeStatus v).doneIrq = false := by
  simp [State.writeStatus, h, State.doneIrq]

/-- Settles O12: a completion sets DONE and keeps IRQ_EN, a CTRL write without START sets IRQ_EN and keeps DONE, and a
STATUS write clears DONE. -/
theorem doneIrqIsTheLevelOfDoneAndIrqEn : Obligations.DoneIrqIsTheLevelOfDoneAndIrqEn := by
  refine ⟨fun s => rfl, fun i s t => exec_doneIrq, fun s v rest hs hv => ?ctrl, fun s v rest hs hv => ?status⟩
  case ctrl =>
    have hwrite : (s.withScript rest).writeCtrl v = (s.withScript rest).setCtrl v :=
      writeCtrl_of_noCommand ((decode_eq_error_iff v .notACommand).mpr ⟨hv, rfl⟩)
    refine ⟨_, (step_of_script hs).trans (runMove_regWrite _ .ctrl v), ?_⟩
    rw [State.writeReg, hwrite]
    exact setCtrl_doneIrq (s.withScript rest) v
  case status =>
    exact ⟨_, (step_of_script hs).trans (runMove_regWrite _ .status v), writeStatus_doneIrq hv⟩

end Sys2Proof.Machine
end

section
/-! The two memories under a running command (spec/20_memory.md R66, R69, R71, R72, R74 and R78; spec/60_exceptions.md
R222 and R233): the busy window, what ENCODE and DECODE leave alone, and what a completion reads and writes, in a clash
or not. -/

namespace Sys2Proof.Machine

/-- Settles O26 with the characterisation of each predicate. -/
theorem regionPredicatesAreExact : Obligations.RegionPredicatesAreExact := by
  refine ⟨fun s => fits_iff (2 ^ s.pixAw), fun s => fits_iff (2 ^ s.byteAw),
    fun a b t => ⟨overlapPix_iff a b t, ?_⟩⟩
  rintro rfl ht
  exact (overlapPix_iff a a t).mpr ⟨ht, by omega, by omega⟩

/-! ### The busy window -/

section BusyWindow

variable {s : State} {o : Operands}

theorem runMove_pixWrite_guarded {i : Nat} (v : Word) (hi : i < 2 ^ s.pixAw) (ho : o ∈ s.running)
    (hregion : o.inSource i = true ∨ o.inDestination i = true) :
    runMove (.pixWrite i v) s = .refused .busyRegionWrite := by
  have hguard : s.running.any (fun o => o.inSource i || o.inDestination i) = true :=
    List.any_eq_true.mpr ⟨o, ho, by simpa using hregion⟩
  simp only [runMove, hostPixWrite, if_neg (Nat.not_le.mpr hi), if_pos hguard]

theorem runMove_byteWrite_guarded {a : Nat} (v : Byte) (ha : a < 2 ^ s.byteAw) (ho : o ∈ s.running)
    (hregion : o.inPayload a = true ∨ o.inOutput a = true) :
    runMove (.byteWrite a v) s = .refused .busyRegionWrite := by
  have hguard : s.running.any (fun o => o.inPayload a || o.inOutput a) = true :=
    List.any_eq_true.mpr ⟨o, ho, by simpa using hregion⟩
  simp only [runMove, hostByteWrite, if_neg (Nat.not_le.mpr ha), if_pos hguard]

theorem runMove_pixRead_guarded {i : Nat} (hi : i < 2 ^ s.pixAw) (ho : o ∈ s.running)
    (hregion : o.inDestination i = true) :
    runMove (.pixRead i) s = .next ((s.withHostData (Config.freeWord s.draws)).drawn 1) := by
  have hguard : s.running.any (·.inDestination i) = true := List.any_eq_true.mpr ⟨o, ho, hregion⟩
  simp only [runMove, hostPixRead, if_neg (Nat.not_le.mpr hi), if_pos hguard]

theorem runMove_byteRead_guarded {a : Nat} (ha : a < 2 ^ s.byteAw) (ho : o ∈ s.running)
    (hregion : o.inOutput a = true) :
    runMove (.byteRead a) s = .next ((s.withHostData ((Config.freeByte s.draws).setWidth 32)).drawn 1) := by
  have hguard : s.running.any (·.inOutput a) = true := List.any_eq_true.mpr ⟨o, ho, hregion⟩
  simp only [runMove, hostByteRead, if_neg (Nat.not_le.mpr ha), if_pos hguard]

end BusyWindow

/-- Settles O27: the running command guards its regions against the scheduled move. -/
theorem busyWindowGuardsTheRegions : Obligations.BusyWindowGuardsTheRegions := by
  intro s rest o ho
  refine ⟨fun i v hi hregion hs => ?pixWrite, fun a v ha hregion hs => ?byteWrite, fun i hi hregion hs => ?pixRead,
    fun a ha hregion hs => ?byteRead⟩
  case pixWrite => exact (step_of_script hs).trans (runMove_pixWrite_guarded v hi ho hregion)
  case byteWrite => exact (step_of_script hs).trans (runMove_byteWrite_guarded v ha ho hregion)
  case pixRead =>
    exact ⟨_, (step_of_script hs).trans (runMove_pixRead_guarded hi ho hregion), rfl, rfl,
      fun _ => rfl, fun _ => rfl⟩
  case byteRead =>
    exact ⟨_, (step_of_script hs).trans (runMove_byteRead_guarded ha ho hregion), rfl, rfl,
      fun _ => rfl, fun _ => rfl⟩

/-! ### The regions that the operands name, command by command -/

theorem inDestination_iff (o : Operands) (i : Nat) :
    o.inDestination i = true ↔ instrOfOp o.op = .encode ∧ o.dst.toNat ≤ i ∧ i < o.dst.toNat + o.pixels := by
  rw [Operands.inDestination, inRegion_iff]
  unfold Operands.destinationLen
  cases instrOfOp o.op <;> simp

theorem inOutput_iff (o : Operands) (a : Nat) :
    o.inOutput a = true ↔ instrOfOp o.op = .decode ∧ o.out.toNat ≤ a ∧ a < o.out.toNat + o.groups := by
  rw [Operands.inOutput, inRegion_iff]
  unfold Operands.outputLen
  cases instrOfOp o.op <;> simp

theorem inPayload_iff (o : Operands) (a : Nat) :
    o.inPayload a = true ↔ instrOfOp o.op = .encode ∧ o.pay.toNat ≤ a ∧ a < o.pay.toNat + o.payloadLen := by
  rw [Operands.inPayload, inRegion_iff]
  unfold Operands.payloadRegionLen
  cases instrOfOp o.op <;> simp

/-! ### ENCODE and DECODE on their own -/

/-- ENCODE reports success exactly when its checks pass. -/
theorem ExecCase.encode_err_iff {s t : State} (h : ExecCase s .encode t) : t.err = 0#4 ↔ s.encodeError = .none := by
  cases h with
  | encoded hnone => exact iff_of_true rfl hnone
  | encodeFailed _ => exact errorCode_eq_zero_iff _

/-- DECODE reports success exactly when its checks pass. -/
theorem ExecCase.decode_err_iff {s t : State} (h : ExecCase s .decode t) : t.err = 0#4 ↔ s.decodeError = .none := by
  cases h with
  | decoded hnone => exact iff_of_true rfl hnone
  | decodeFailed _ => exact errorCode_eq_zero_iff _

/-- RESULT holds the scan's byte count exactly: it is far below 2^64. -/
theorem ExecCase.decode_result {s t : State} (h : ExecCase s .decode t) (hi : s.internal = Internal.initial)
    (herr : t.err = 0#4) : t.result.toNat = s.decodeScan.count := by
  cases h with
  | decodeFailed hfail => exact absurd ((errorCode_eq_zero_iff _).mp herr) hfail
  | decoded _ =>
    have hcount : s.decodeScan.count ≤ s.op.slots / 8 := (decodeScan_count s hi).2
    have hslots := s.op.slots_lt
    rw [finish_result, BitVec.toNat_ofNat]
    omega

theorem ExecCase.encode_bytes {s t : State} (h : ExecCase s .encode t) : t.bytes = s.bytes := by
  cases h <;> rfl

theorem ExecCase.decode_pix {s t : State} (h : ExecCase s .decode t) : t.pix = s.pix := by
  cases h <;> rfl

/-- ENCODE writes its T destination words and no other, and none if it reports an error (R69, R222). -/
theorem ExecCase.encode_pix_outside {s t : State} (h : ExecCase s .encode t) (hwf : Memory.wf s.pix) {i : Nat}
    (hi : t.err ≠ 0#4 ∨ ¬(s.op.dst.toNat ≤ i ∧ i < s.op.dst.toNat + s.op.pixels)) :
    memRead t.pix i = memRead s.pix i := by
  cases h with
  | encodeFailed _ => rfl
  | encoded _ =>
    have hout := hi.resolve_left (not_not.mpr rfl)
    exact memRead_writeRange_outside _ hwf _ _ _ (by rwa [encodedWords_length])

/-- DECODE writes its RESULT output bytes and no other, and none if it reports an error (R69, R222). -/
theorem ExecCase.decode_bytes_outside {s t : State} (h : ExecCase s .decode t) (hwf : Memory.wf s.bytes)
    (hi : s.internal = Internal.initial) {a : Nat}
    (ha : t.err ≠ 0#4 ∨ ¬(s.op.out.toNat ≤ a ∧ a < s.op.out.toNat + t.result.toNat)) :
    memRead t.bytes a = memRead s.bytes a := by
  have hresult := h.decode_result hi
  cases h with
  | decodeFailed _ => rfl
  | decoded _ =>
    have hout := ha.resolve_left (not_not.mpr rfl)
    rw [hresult rfl, ← (decodeScan_count s hi).1] at hout
    exact memRead_writeRange_outside _ hwf _ _ _ hout

/-- Settles O41: the frame of every completion, and ENCODE's writes. -/
theorem encodeLeavesEverythingElseAlone : Obligations.EncodeLeavesEverythingElseAlone := by
  intro s hinv
  obtain ⟨t, hexec, hcase⟩ := exec_answers .encode s
  obtain ⟨hcompleted, hregisters, hsizes, hscript, hreads, hothers, _, _⟩ := hcase.frame
  exact ⟨t, hexec, hcompleted, hregisters, hsizes, hscript, hreads, hothers, hcase.encode_bytes,
    fun i => hcase.encode_pix_outside hinv.pix_wf⟩

/-- Settles O47: the frame of every completion, and DECODE's writes. -/
theorem decodeLeavesEverythingElseAlone : Obligations.DecodeLeavesEverythingElseAlone := by
  intro s hinv ⟨_, hinternal⟩
  obtain ⟨t, hexec, hcase⟩ := exec_answers .decode s
  obtain ⟨hcompleted, hregisters, hsizes, hscript, hreads, hothers, _, _⟩ := hcase.frame
  exact ⟨t, hexec, hcompleted, hregisters, hsizes, hscript, hreads, hothers, hcase.decode_pix,
    fun a => hcase.decode_bytes_outside hinv.bytes_wf hinternal⟩

/-! ### What a command without rivals reads -/

/-- With no rival no other command writes a word that the running one reads. -/
theorem foreignPix_of_no_rivals {s : State} (hr : s.rivals = []) {i : Nat} (hread : s.pixReads.holds i = true) :
    s.foreignPix i = false := by
  refine Bool.eq_false_iff.mpr fun hforeign => ?_
  obtain ⟨f, hf, hwritten⟩ := (foreignPix_iff s i).mp hforeign
  have hclash : f.clashes s.footprint = true :=
    Bool.or_eq_true_iff.mpr (.inl ((Footprint.writesInto_iff _ _).mpr (.inl ⟨i, hwritten, .inl hread⟩)))
  exact List.filter_eq_nil_iff.mp hr f hf hclash

/-- So it reads what pixel space holds, and no draws. -/
theorem seenPix_of_no_rivals {s : State} (hr : s.rivals = []) (hwf : Memory.wf s.pix) {i : Nat}
    (hread : s.pixReads.holds i = true) : memRead s.seenPix.pix i = memRead s.pix i := by
  show memRead (drawRange _ _ _ s.pix _ _ _) i = _
  rw [memRead_drawRange _ _ _ _ hwf, if_neg (by simp [foreignPix_of_no_rivals hr hread])]

theorem decodeScan_seenPix_of_no_rivals {s : State} (hr : s.rivals = []) (hwf : Memory.wf s.pix)
    (hdecode : instrOfOp s.op.op = .decode) (hfits : s.fitsPix s.op.src.toNat s.op.pixels = true) :
    s.seenPix.decodeScan = s.decodeScan := by
  have hwords : s.seenPix.sourceWords = s.sourceWords := readRange_congr _ _ _ _ _ fun i hi =>
    seenPix_of_no_rivals hr hwf
      ((pixReads_holds s _).mpr ⟨.inr ⟨hdecode, hfits⟩, Nat.le_add_right .., Nat.add_lt_add_left hi _⟩)
  simp only [State.decodeScan, State.scannedBits, State.decodeBitStream, hwords, seenPix_op, seenPix_internal]

theorem decodeError_seenPix_iff_of_no_rivals {s : State} (hr : s.rivals = []) (hwf : Memory.wf s.pix)
    (hdecode : instrOfOp s.op.op = .decode) : s.seenPix.decodeError = .none ↔ s.decodeError = .none := by
  rw [decodeError_eq_none_iff, decodeError_eq_none_iff]
  refine and_congr_right fun hfits => ?_
  rw [decodeScan_seenPix_of_no_rivals hr hwf hdecode hfits]
  exact Iff.rfl

/-! ### What a completion reports, in a clash or not -/

theorem CompleteCase.encode_err_iff {s t : State} (h : CompleteCase s .encode t) :
    t.err = 0#4 ↔ s.encodeError = .none := by
  cases h with
  | alone _ _ hexec => exact hexec.encode_err_iff
  | clashing _ _ hexec => exact hexec.encode_err_iff

theorem CompleteCase.decode_err_iff {s t : State} (h : CompleteCase s .decode t) (hwf : Memory.wf s.pix)
    (hdecode : instrOfOp s.op.op = .decode) : t.err = 0#4 ↔ s.seenPix.decodeError = .none := by
  cases h with
  | alone _ hr hexec => exact hexec.decode_err_iff.trans (decodeError_seenPix_iff_of_no_rivals hr hwf hdecode).symm
  | clashing _ _ hexec => exact hexec.decode_err_iff

theorem CompleteCase.decode_result {s t : State} (h : CompleteCase s .decode t) (hwf : Memory.wf s.pix)
    (hdecode : instrOfOp s.op.op = .decode) (hi : s.internal = Internal.initial) (herr : t.err = 0#4) :
    t.result.toNat = s.seenPix.decodeScan.count := by
  cases h with
  | alone u hr hexec =>
    obtain ⟨hfits, _⟩ := (decodeError_eq_none_iff s).mp (hexec.decode_err_iff.mp herr)
    rw [decodeScan_seenPix_of_no_rivals hr hwf hdecode hfits]
    exact hexec.decode_result hi herr
  | clashing u _ hexec => exact hexec.decode_result hi herr

/-! ### What a completion writes -/

section Completion

variable {s t : State}

/-- The pixel words in which a running command can clash as a writer, by the ERR that it reports. -/
theorem CompleteCase.pixWritten_iff (h : CompleteCase s (instrOfOp s.op.op) t) (i : Nat) :
    s.footprint.pixWritten.holds i = true ↔
      instrOfOp s.op.op = .encode ∧ t.err = 0#4 ∧ s.op.dst.toNat ≤ i ∧ i < s.op.dst.toNat + s.op.pixels := by
  refine (pixWrites_holds s i).trans (and_congr_right fun hencode => ?_)
  rw [hencode] at h
  rw [h.encode_err_iff]

/-- The bytes in which a running command can clash as a writer, by the ERR and RESULT that it reports. -/
theorem CompleteCase.byteWritten_iff (h : CompleteCase s (instrOfOp s.op.op) t) (hwf : Memory.wf s.pix)
    (hi : s.internal = Internal.initial) (a : Nat) :
    s.footprint.byteWritten.holds a = true ↔
      instrOfOp s.op.op = .decode ∧ t.err = 0#4 ∧ s.op.out.toNat ≤ a ∧ a < s.op.out.toNat + t.result.toNat := by
  refine (byteWrites_holds s a).trans (and_congr_right fun hdecode => ?_)
  rw [hdecode] at h
  rw [← h.decode_err_iff hwf hdecode]
  refine and_congr_right fun herr => ?_
  rw [h.decode_result hwf hdecode hi herr]

/-- No word is both written and in the source: ENCODE's overlap check (R72, R78). -/
theorem pixWrites_holds_of_inSource {i : Nat} (hsource : s.op.inSource i = true) : s.pixWrites.holds i = false := by
  refine Bool.eq_false_iff.mpr fun hwritten => ?_
  obtain ⟨hencode, hchecks, hdst⟩ := (pixWrites_holds s i).mp hwritten
  obtain ⟨_, _, _, _, hapart⟩ := (encodeError_eq_none_iff s).mp hchecks
  have hsrc := (inRegion_iff _ _ _).mp hsource
  rw [show s.op.sourceLen = s.op.pixels by simp only [Operands.sourceLen, hencode]] at hsrc
  exact absurd ((overlapPix_iff _ _ _).mpr ⟨by omega, by omega, by omega⟩) (Bool.eq_false_iff.mp hapart)

/-- Only ENCODE has a payload, and only DECODE writes bytes. -/
theorem byteWrites_holds_of_inPayload {a : Nat} (hpayload : s.op.inPayload a = true) :
    s.byteWrites.holds a = false := by
  refine Bool.eq_false_iff.mpr fun hwritten => ?_
  obtain ⟨hencode, _⟩ := (inPayload_iff _ _).mp hpayload
  obtain ⟨hdecode, _⟩ := (byteWrites_holds s a).mp hwritten
  simp [hencode] at hdecode

/-- A completion keeps every pixel word that its command's footprint does not name as written, in a clash too. -/
theorem CompleteCase.pix_kept (h : CompleteCase s (instrOfOp s.op.op) t) (hinv : Inv s) (hbusy : s.busy = true)
    {i : Nat} (hkept : s.footprint.pixWritten.holds i = false) : memRead t.pix i = memRead s.pix i := by
  have hinternal := (hinv.running hbusy).2
  have hdest : t.err = 0#4 → s.op.inDestination i = false := by
    refine fun herr => Bool.eq_false_iff.mpr fun hd => ?_
    obtain ⟨hencode, hdst⟩ := (inDestination_iff _ _).mp hd
    exact Bool.eq_false_iff.mp hkept ((h.pixWritten_iff i).mpr ⟨hencode, herr, hdst⟩)
  cases h with
  | alone u _ hexec =>
    obtain ⟨hpix, _⟩ := hexec.writes hinv.pix_wf hinv.bytes_wf hinternal
    exact hpix i hdest
  | clashing u _ hexec =>
    have hseen := hinv.seen
    obtain ⟨hpix, _⟩ := hexec.writes hseen.pix_wf hseen.bytes_wf hinternal
    obtain ⟨hwf, _⟩ := hexec.memories hseen.pix_wf hseen.pix_within hseen.bytes_wf hseen.bytes_within hinternal
    rw [recordEnding_pix, settle_pix s u hwf, if_neg (by simp [hkept])]
    split
    · rfl
    · next hunread => rw [hpix i hdest, seen_pix s hinv.pix_wf, if_neg hunread]

/-- A completion keeps every byte that its command's footprint does not name as written, in a clash too. -/
theorem CompleteCase.bytes_kept (h : CompleteCase s (instrOfOp s.op.op) t) (hinv : Inv s) (hbusy : s.busy = true)
    {a : Nat} (hkept : s.footprint.byteWritten.holds a = false) : memRead t.bytes a = memRead s.bytes a := by
  have hinternal := (hinv.running hbusy).2
  have hresult : t.err ≠ 0#4 → t.result = 0#64 := (h.inv hinv hbusy).addressed.err_result
  have hout : s.op.inOutput a = true → ¬a < s.op.out.toNat + t.result.toNat := by
    intro hin hlt
    obtain ⟨hdecode, hle, _⟩ := (inOutput_iff _ _).mp hin
    have hsuccess : t.err = 0#4 := by
      by_contra herr
      rw [hresult herr] at hlt
      exact Nat.not_lt.mpr hle hlt
    exact Bool.eq_false_iff.mp hkept
      ((h.byteWritten_iff hinv.pix_wf hinternal a).mpr ⟨hdecode, hsuccess, hle, hlt⟩)
  cases h with
  | alone u _ hexec =>
    obtain ⟨_, hbytes, _⟩ := hexec.writes hinv.pix_wf hinv.bytes_wf hinternal
    exact hbytes a hout
  | clashing u _ hexec =>
    have hseen := hinv.seen
    obtain ⟨_, hbytes, _⟩ := hexec.writes hseen.pix_wf hseen.bytes_wf hinternal
    obtain ⟨_, _, hwf, _⟩ := hexec.memories hseen.pix_wf hseen.pix_within hseen.bytes_wf hseen.bytes_within hinternal
    rw [recordEnding_bytes, settle_bytes s u hinternal hwf, if_neg (by simp [hkept])]
    split
    · rfl
    · next hunread => rw [hbytes a hout, seen_bytes s hinv.bytes_wf, if_neg hunread]

end Completion

/-- Settles O32: the footprint is decided by the checks, and ERR and RESULT tell how they went. -/
theorem footprintsAreWhatCommandsReadAndWrite : Obligations.FootprintsAreWhatCommandsReadAndWrite := by
  intro s hinv hbusy
  obtain ⟨t, hcomplete, hcase⟩ := completeCommand_answers (instrOfOp s.op.op) s
  refine ⟨t, hcomplete, hcase.pixWritten_iff, hcase.byteWritten_iff hinv.pix_wf (hinv.running hbusy).2,
    fun i => ?pixRead, fun a => ?byteRead⟩
  case pixRead => exact (pixReads_holds s i).trans (by rw [encodeError_eq_none_iff])
  case byteRead => exact (byteReads_holds s a).trans (by rw [encodeError_eq_none_iff])

/-- Settles O29: what a completion writes lies in the regions that its command could write, and never in one that it
reads. -/
theorem commandsWriteOnlyTheirOwnRegions : Obligations.CommandsWriteOnlyTheirOwnRegions := by
  intro s t hinv hbusy hcomplete
  have hcase := completeCommand_cases hcomplete
  have hinternal := (hinv.running hbusy).2
  refine ⟨fun i hdest => ?destination, fun a hout => ?output, fun i hsource => ?source, fun a hpayload => ?payload⟩
  case destination =>
    exact hcase.pix_kept hinv hbusy (Bool.eq_false_iff.mpr fun hw => by simp [pixWrites_inDestination hw] at hdest)
  case output =>
    exact hcase.bytes_kept hinv hbusy
      (Bool.eq_false_iff.mpr fun hw => by simp [byteWrites_inOutput hinternal hw] at hout)
  case source => exact hcase.pix_kept hinv hbusy (pixWrites_holds_of_inSource hsource)
  case payload => exact hcase.bytes_kept hinv hbusy (byteWrites_holds_of_inPayload hpayload)

end Sys2Proof.Machine
end

section
/-! The command word in both directions and the rows of its table (spec/30_encoding.md R95 and R96). -/

namespace Sys2Proof

/-! ### The rows of the command table -/

/-- A row of the command table tests bits 2:0 and no other. -/
theorem selects_eq_low (w : Word) {r : CommandRow} (hr : r ∈ commandTable) :
    r.selects w = ((w.extractLsb' 0 3).setWidth 32 == r.pattern) := by
  have hmask : ∀ r ∈ commandTable, r.mask = 0x00000007#32 := by decide
  rw [CommandRow.selects, hmask r hr, and_seven]

/-- Of the eight values of bits 2:0 the four with bit 0 = 1 are a pattern, each of one row. -/
theorem countP_pattern_eq (c : BitVec 3) :
    commandTable.countP (fun r => c.setWidth 32 == r.pattern) = if c.getLsbD 0 then 1 else 0 := by
  revert c
  decide

/-- Settles O3: the rows that select a word are those whose pattern is its bits 2:0. -/
theorem commandRowsDoNotOverlap : Obligations.CommandRowsDoNotOverlap := by
  intro w
  rw [List.filter_congr fun r hr => selects_eq_low w hr, ← List.countP_eq_length_filter, countP_pattern_eq,
    low_getLsbD_zero]

/-! ### Decode and encode -/

theorem buildCtrl_parseCtrl (w : Word) : buildCtrl (parseCtrl w) = w := by
  refine BitVec.eq_of_getLsbD_eq fun k hk => ?_
  rw [buildCtrl_getLsbD]
  split_ifs with hstart hop hirq
  · rw [hstart]; rfl
  · simp only [parseCtrl, BitVec.getLsbD_extractLsb']
    simp [show k - 1 < 2 by omega, show 1 + (k - 1) = k by omega]
  · rw [hirq]; rfl
  · simp only [parseCtrl, BitVec.getLsbD_extractLsb']
    simp [show k - 4 < 28 by omega, show 4 + (k - 4) = k by omega]

theorem parseCtrl_encodeWith (r : BitVec 28) (q : Bool) (i : Instr) :
    parseCtrl (encodeWith r q i) = ⟨r, q, i.opCode, true⟩ := parseCtrl_buildCtrl _

@[simp] theorem instrOfOp_opCode (i : Instr) : instrOfOp i.opCode = i := by cases i <;> rfl

theorem decode_encodeWith (r : BitVec 28) (q : Bool) (i : Instr) : decode (encodeWith r q i) = .ok i := by
  have hstart : (encodeWith r q i).getLsbD 0 = true := congrArg CtrlFields.start (parseCtrl_encodeWith r q i)
  rw [decode_eq_ok_iff, parseCtrl_encodeWith]
  exact ⟨hstart, instrOfOp_opCode i⟩

theorem encodeWith_of_decode {w : Word} {i : Instr} (h : decode w = .ok i) :
    encodeWith (parseCtrl w).reserved (parseCtrl w).irqEn i = w := by
  obtain ⟨hstart, rfl⟩ := (decode_eq_ok_iff w i).mp h
  calc encodeWith (parseCtrl w).reserved (parseCtrl w).irqEn (instrOfOp (parseCtrl w).op)
      = buildCtrl ⟨(parseCtrl w).reserved, (parseCtrl w).irqEn, (parseCtrl w).op, (parseCtrl w).start⟩ := by
        rw [encodeWith, opCode_instrOfOp, show (parseCtrl w).start = true from hstart]
    _ = w := buildCtrl_parseCtrl w

/-- Settles O4: `parseCtrl` and `buildCtrl` are inverse to each other, and so are `opCode` and `instrOfOp`. -/
theorem commandWordsDecodeToTheirFields : Obligations.CommandWordsDecodeToTheirFields :=
  ⟨fun i r q _ => ⟨decode_encodeWith r q i, parseCtrl_encodeWith r q i⟩, fun _ _ => encodeWith_of_decode⟩

/-- Settles O1, row by row. -/
theorem decodingLooksOnlyAtBits2To0 : Obligations.DecodingLooksOnlyAtBits2To0 := fun w =>
  ⟨decode_of_low, decode_of_low, decode_of_low, decode_of_low, fun h => (decode_eq_error_iff w _).mpr ⟨h, rfl⟩⟩

/-- Settles O2: each word is run through the decoder. -/
theorem writtenOutCommandWordsDecode : Obligations.WrittenOutCommandWordsDecode :=
  ⟨rfl, rfl, rfl, rfl, rfl, rfl, rfl, rfl⟩

end Sys2Proof
end

section
/-! The pseudo-instructions, the reserved command code and the encode bit stream (spec/30_encoding.md R93, R96 and R101,
spec/40_encoder.md R121 and R122). -/

namespace Sys2Proof.Machine

/-! ### The encode bit stream -/

theorem expand_getElem? (P : List Byte) {k : Nat} (hk : k < 8 * P.length + 8) :
    (expand P)[k]? = some (streamBit P k) := by
  have hlength : k < (expand P).length := by rwa [expand_length]
  rw [List.getElem?_eq_getElem hlength, ← List.getD_eq_getElem _ false hlength, expand_getD]

/-- Settles O39: inside the stream its bits are those of the closed form `streamBit`. -/
theorem expandedStreamIsLsbFirstWithSentinel : Obligations.ExpandedStreamIsLsbFirstWithSentinel := by
  refine fun P => ⟨expand_length P, fun i j hi hj => ?payload, fun t ht => ?sentinel⟩
  case payload => rw [expand_getElem? P (by omega), streamBit_byte P i j hj, List.getD_eq_getElem _ _ hi]
  case sentinel => rw [expand_getElem? P (by omega), streamBit_of_ge P _ (Nat.le_add_right ..)]

/-! ### The reserved command -/

/-- Settles O56 with the frame of every completion. -/
theorem reservedCommandCompletesWithIllegalOp : Obligations.ReservedCommandCompletesWithIllegalOp := by
  intro s
  obtain ⟨hcompleted, hregisters, hsizes, hscript, hreads, hothers, _, _⟩ := (ExecCase.illegal (s := s)).frame
  exact ⟨_, rfl, hcompleted, rfl, rfl, rfl, rfl, hregisters, hsizes, hscript, hreads, hothers⟩

theorem footprint_of_reservedOp3 {s : State} (h : instrOfOp s.op.op = .reservedOp3) :
    s.footprint = ⟨.empty, .empty, .empty, .empty⟩ := by
  simp only [State.footprint, State.pixReads, State.pixWrites, State.byteReads, State.byteWrites, h]

/-- Nothing clashes with a command that touches no memory. -/
theorem clashes_untouching (f : Footprint) : f.clashes ⟨.empty, .empty, .empty, .empty⟩ = false := by
  refine Bool.eq_false_iff.mpr fun h => ?_
  simp [Footprint.clashes, Footprint.writesInto_iff] at h

theorem rivals_of_reservedOp3 {s : State} (h : instrOfOp s.op.op = .reservedOp3) : s.rivals = [] := by
  refine List.filter_eq_nil_iff.mpr fun f _ => ?_
  rw [footprint_of_reservedOp3 h, clashes_untouching]
  exact Bool.false_ne_true

/-- The reserved command only reports its error, whatever other commands run (R96). -/
theorem completeCommand_of_reservedOp3 {s : State} (h : instrOfOp s.op.op = .reservedOp3) :
    completeCommand (instrOfOp s.op.op) s = .next ((s.raise .illegalOp).recordEnding s.op s.footprint) := by
  rw [h]
  exact completeCommand_alone (rivals_of_reservedOp3 h) rfl

theorem step_of_complete {s : State} {rest : List Move} (hs : s.script = .complete :: rest) (hb : s.busy = true) :
    step s = completeCommand (instrOfOp s.op.op) (s.withScript rest) :=
  (step_of_script hs).trans (if_pos hb)

theorem step_of_start {s : State} {w : Word} {i : Instr} {rest : List Move}
    (hs : s.script = .regWrite 32 Reg.ctrl.offset w :: rest) (hd : decode w = .ok i) (hb : s.busy = false) :
    step s = .next (((s.withScript rest).setCtrl w).start i) := by
  have hidle : (s.withScript rest).busy = false := hb
  rw [step_of_script hs, runMove_regWrite, State.writeReg, writeCtrl_of_command hd hidle]

theorem ctrlWord_getLsbD_of_ge (s : State) {k : Nat} (hk : 4 ≤ k) : s.ctrlWord.getLsbD k = false := by
  rw [State.ctrlWord, buildCtrl_getLsbD, if_neg (by omega), if_neg (by omega), if_neg (by omega)]
  exact BitVec.getLsbD_zero

/-- Settles O57: the START is that of any command, and its completion meets no rival. -/
theorem startOfTheReservedCodeIsAcceptedAndReported : Obligations.StartOfTheReservedCodeIsAcceptedAndReported := by
  refine ⟨fun s w rest hs hb hw => ?reported, fun s k hk => ctrlWord_getLsbD_of_ge s hk, fun w => ?decoded⟩
  case reported =>
    have hd : decode w = .ok .reservedOp3 := decode_of_low hw
    have hcomplete := completeCommand_of_reservedOp3 (s := ((s.withScript rest).setCtrl w).start .reservedOp3) rfl
    exact ⟨_, _, step_of_start hs hd hb, rfl, (step_of_complete (rest := rest) rfl rfl).trans hcomplete, rfl, rfl, rfl,
      rfl, rfl, rfl⟩
  case decoded =>
    cases hd : decode w with
    | error e =>
      obtain ⟨_, rfl⟩ := (decode_eq_error_iff w e).mp hd
      exact .inl rfl
    | ok i => exact .inr ⟨i, rfl, fun j hj => (Except.ok.inj hj).symm⟩

/-! ### RESULT -/

theorem resultHi_append_resultLo (s : State) : s.resultHi ++ s.resultLo = s.result := by
  refine BitVec.eq_of_getLsbD_eq fun k hk => ?_
  rw [State.resultHi, State.resultLo, BitVec.getLsbD_append, BitVec.getLsbD_extractLsb', BitVec.getLsbD_extractLsb']
  split
  · next hlo => simp [hlo]
  · next hlo => simp [show k - 32 < 32 by omega, show 32 + (k - 32) = k by omega]

theorem step_of_read {s : State} {r : Reg} {rest : List Move} (hs : s.script = rd r :: rest) :
    step s = .next ((s.withScript rest).withHostData (s.regValue r)) := by
  rw [step_of_script hs, rd, runMove_regRead]
  cases r <;> rfl

/-- Settles O18: the words are the encoder's, and RESULT leaves the low half in `hostPrior` and the high one in
`hostData`. -/
theorem pseudoInstructionsAreTheirExpansions : Obligations.PseudoInstructionsAreTheirExpansions := by
  refine ⟨rfl, rfl, rfl, rfl, rfl, rfl, fun s rest hs => ?result⟩
  case result =>
    have hlo : step s = .next ((s.withScript (rd .resultHi :: rest)).withHostData s.resultLo) := step_of_read hs
    have hhi := step_of_read (s := (s.withScript (rd .resultHi :: rest)).withHostData s.resultLo) rfl
    exact ⟨_, (run_succ_of_next hlo 1).trans (run_succ_of_next hhi 0), resultHi_append_resultLo s, rfl⟩

/-! ### WAITDONE -/

theorem statusWord_getLsbD_done (s : State) : s.statusWord.getLsbD 1 = s.done := by
  simp only [State.statusWord, BitVec.getLsbD_append, BitVec.getLsbD_ofBool]
  simp

theorem step_waitDone_of_done {s : State} {gaps : List Nat} {rest : List Move} (hs : s.script = .waitDone gaps :: rest)
    (hd : s.done = true) : step s = .next ((s.withScript rest).withHostData s.statusWord) := by
  rw [step_of_script hs, runMove, hostWaitDone, withScript_done, if_pos hd]
  rfl

/-- The turn of the loop that finds DONE = 0: a STATUS read, and a new schedule. -/
theorem step_waitDone_of_not_done {s : State} {gaps : List Nat} {rest : List Move}
    (hs : s.script = .waitDone gaps :: rest) (hd : s.done = false) :
    ∃ t, step s = .next t ∧ t.hostData = s.statusWord ∧ t.script = (s.withScript rest).waitSchedule gaps ∧
      SameStatus s t ∧ SameLatches s t := by
  refine ⟨_, (step_of_script hs).trans (congrArg Host.Outcome.next (if_neg ?_)), rfl, rfl, ⟨rfl, rfl, rfl, rfl⟩,
    ⟨rfl, rfl, rfl, rfl⟩⟩
  simp [hd]

theorem waitDone_mem_waitSchedule (s : State) (gaps : List Nat) : .waitDone gaps.tail ∈ s.waitSchedule gaps := by
  cases gaps <;> simp [State.waitSchedule]

/-- With no gap left the running command completes before the next turn (R267). -/
theorem waitSchedule_nil_of_busy {s : State} (hb : s.busy = true) :
    s.waitSchedule [] = .complete :: .waitDone [] :: s.script := by
  simp only [State.waitSchedule, State.fairCompletion, hb, if_true, List.cons_append, List.nil_append]

theorem step_of_idle {s : State} {rest : List Move} (hs : s.script = .idle :: rest) (hb : s.busy = true) :
    step s = .next (s.withScript rest) :=
  (step_of_script hs).trans (if_pos hb)

/-- The loop of `k` polls with an idle step after each, a last poll with the completion after it, and the read that finds
DONE = 1: by induction on `k`, each round leaving the loop of one poll less. -/
theorem run_waitDone_loop (k : Nat) (rest : List Move) {s : State} (hb : s.busy = true) (hd : s.done = false)
    (hs : s.script = .waitDone (List.replicate k 1) :: (List.replicate k .idle ++ rest)) :
    ∃ t, Host.Core.run core (2 * k + 3) s = .next t ∧ Completed t ∧ t.hostData.getLsbD 1 = true ∧ t.script = rest := by
  induction k generalizing s with
  | zero =>
    obtain ⟨p, hpoll, _, hschedule, ⟨hbusy, _⟩, _⟩ := step_waitDone_of_not_done hs hd
    have hp : p.script = .complete :: .waitDone [] :: rest := hschedule.trans (waitSchedule_nil_of_busy hb)
    obtain ⟨u, hu, hcase⟩ := completeCommand_answers (instrOfOp p.op.op) (p.withScript (.waitDone [] :: rest))
    obtain ⟨⟨hidle, hdone⟩, _, _, hscript, _⟩ := hcase.frame
    have hcomplete : step p = .next u := (step_of_complete hp (hbusy.trans hb)).trans hu
    have hread := step_waitDone_of_done hscript hdone
    have hrun := (run_succ_of_next hpoll 2).trans ((run_succ_of_next hcomplete 1).trans (run_succ_of_next hread 0))
    exact ⟨_, hrun, ⟨hidle, hdone⟩, (statusWord_getLsbD_done u).trans hdone, rfl⟩
  | succ k ih =>
    obtain ⟨p, hpoll, _, hschedule, ⟨hbusy, hdone, _⟩, _⟩ := step_waitDone_of_not_done hs hd
    have hp : p.script = .idle :: .waitDone (List.replicate k 1) :: (List.replicate k .idle ++ rest) := hschedule
    have hidle := step_of_idle hp (hbusy.trans hb)
    obtain ⟨t, hrun, hends⟩ := ih
      (s := p.withScript (.waitDone (List.replicate k 1) :: (List.replicate k .idle ++ rest)))
      (hbusy.trans hb) (hdone.trans hd) rfl
    exact ⟨t, (run_succ_of_next hpoll _).trans ((run_succ_of_next hidle _).trans hrun), hends⟩

/-! ### SETDIM -/

/-- The DIM word of SETDIM: `h` in bits 31:16 and `w` in bits 15:0 (R25). -/
theorem setDimWord_fields (w h : BitVec 16) :
    ((h.setWidth 32 <<< 16) ||| w.setWidth 32).extractLsb' 0 16 = w ∧
      ((h.setWidth 32 <<< 16) ||| w.setWidth 32).extractLsb' 16 16 = h := by
  constructor
  · ext k hk
    simp [hk, show k < 32 by omega]
  · ext k hk
    simp [hk, show 16 + k < 32 by omega]

/-- Settles O17: one turn of the loop in each case of DONE, the whole loop by the number of polls, and the DIM write. -/
theorem waitDoneAndSetDimDoWhatTheirExpansionsSay : Obligations.WaitDoneAndSetDimDoWhatTheirExpansionsSay := by
  refine ⟨fun s gaps rest hs => ⟨fun hd => ?ends, fun hd => ?goesOn⟩, fun s k rest hb hd hs => ?loop,
    fun s w h rest hs => ?setDim⟩
  case ends => exact ⟨_, step_waitDone_of_done hs hd, rfl, (statusWord_getLsbD_done s).trans hd⟩
  case goesOn =>
    obtain ⟨t, hstep, hdata, hscript, hstatus, hlatches⟩ := step_waitDone_of_not_done hs hd
    refine ⟨t, gaps.tail, hstep, hdata, ?_, ?_, hstatus, hlatches⟩
    · rw [hdata, statusWord_getLsbD_done, hd]
    · exact hscript ▸ waitDone_mem_waitSchedule _ gaps
  case loop => exact run_waitDone_loop k rest hb hd hs
  case setDim =>
    obtain ⟨hwidth, hheight⟩ := setDimWord_fields w h
    exact ⟨_, (step_of_script hs).trans (runMove_regWrite _ .dim _), hwidth, hheight, rfl⟩

end Sys2Proof.Machine
end

section
/-! The write path of the rgb_channel_mux and ENCODE: what each bit of each destination word is, and what a completion
reports (spec/40_encoder.md R126 to R133). -/

namespace Sys2Proof.Machine

/-! ### Words bit by bit -/

theorem extractLsb'_congr {u v : Word} {start len : Nat}
    (h : ∀ k, start ≤ k → k < start + len → u.getLsbD k = v.getLsbD k) :
    u.extractLsb' start len = v.extractLsb' start len := by
  refine BitVec.eq_of_getLsbD_eq fun k hk => ?_
  rw [BitVec.getLsbD_extractLsb', BitVec.getLsbD_extractLsb', h _ (Nat.le_add_right ..) (by omega)]

theorem lanePos_le (l : Lane) : lanePos l ≤ 16 := by cases l <;> decide

theorem chan_embed (v : Word) (l : Lane) (b : Bool) : chan (embed v l b) l = setLsb (chan v l) b := by
  refine BitVec.eq_of_getLsbD_eq fun k hk => ?_
  rw [chan_getLsbD, embed_getLsbD, setLsb_getLsbD, chan_getLsbD]
  simp [hk]

/-- The channel fields do not share a bit. -/
theorem lane_eq_of_lanePos_mem {l l' : Lane} (hlo : lanePos l ≤ lanePos l') (hhi : lanePos l' < lanePos l + 8) :
    l' = l := by
  cases l <;> cases l' <;> simp [lanePos] at hlo hhi ⊢

/-- Settles O37: embedding reaches the lane's LSB only, which lies below alpha. -/
theorem embedReplacesOneWordBit : Obligations.EmbedReplacesOneWordBit := by
  refine fun v l b => ⟨chan_embed v l b, embed_getLsbD v l b, extractLsb'_congr fun k hk _ => ?alpha⟩
  case alpha =>
    have hpos := lanePos_le l
    rw [embed_getLsbD, if_neg (by omega)]

/-! ### The slots of a pixel -/

/-- The place of a lane among the slots of a pixel (R92, R124; `slotLane_slot`). -/
def laneIndex : Lane → Nat
  | .red => 0
  | .green => 1
  | .blue => 2

theorem slotLane_slot (i : Nat) (l : Lane) : slotLane (3 * i + laneIndex l) = l := by
  cases l with
  | red => exact slotLane_red i
  | green => exact slotLane_green i
  | blue => exact slotLane_blue i

/-- A slot is the slot of its lane in its pixel. -/
theorem slot_eq (k : Nat) : 3 * slotPixel k + laneIndex (slotLane k) = k := by
  unfold slotPixel slotLane
  split_ifs <;> simp only [laneIndex] <;> omega

theorem slotPixel_lt {o : Operands} {k : Nat} (hk : k < o.slots) : slotPixel k < o.pixels := by
  unfold Operands.slots at hk
  unfold slotPixel
  omega

/-! ### The words that ENCODE writes -/

section EncodedWords

variable {s : State} (hc : s.internal.cursor = 0) {i : Nat} (hi : i < s.op.pixels)
include hc hi

/-- The LSB of a lane whose slot is written is its stream bit. -/
theorem encodedWords_lane {l : Lane} (hw : 3 * i + laneIndex l < s.op.slotsWritten) :
    (s.encodedWords.getD i 0).getLsbD (lanePos l) = streamBit s.payload (3 * i + laneIndex l) := by
  rw [encodedWords_getLsbD s hc i hi]
  cases l with
  | red => rw [if_pos ⟨rfl, hw⟩]; rfl
  | green => rw [if_neg (nomatch ·.1), if_pos ⟨rfl, hw⟩]; rfl
  | blue => rw [if_neg (nomatch ·.1), if_neg (nomatch ·.1), if_pos ⟨rfl, hw⟩]; rfl

/-- Every other bit, be it no lane's LSB or that of a slot past the stream, is the source's. -/
theorem encodedWords_kept {k : Nat} (hk : ∀ l, k = lanePos l → s.op.slotsWritten ≤ 3 * i + laneIndex l) :
    (s.encodedWords.getD i 0).getLsbD k = (memRead s.pix (s.op.src.toNat + i)).getLsbD k := by
  have hnot : ∀ l, ¬(k = lanePos l ∧ 3 * i + laneIndex l < s.op.slotsWritten) :=
    fun l ⟨hpos, hw⟩ => Nat.not_lt.mpr (hk l hpos) hw
  rw [encodedWords_getLsbD s hc i hi]
  exact (if_neg (hnot .red)).trans ((if_neg (hnot .green)).trans (if_neg (hnot .blue)))

end EncodedWords

/-! ### What a completed ENCODE reports -/

theorem ExecCase.encode_err {s t : State} (h : ExecCase s .encode t) : t.err = errorCode s.encodeError := by
  cases h with
  | encoded hnone => rw [hnone]; rfl
  | encodeFailed _ => rfl

theorem ExecCase.encode_result {s t : State} (h : ExecCase s .encode t) :
    t.result = if t.err = 0#4 then BitVec.ofNat 64 s.op.slotsWritten else 0#64 := by
  cases h with
  | encoded _ => rfl
  | encodeFailed hfail => exact (if_neg (mt (errorCode_eq_zero_iff _).mp hfail)).symm

theorem Operands.slotsWritten_le (o : Operands) : o.slotsWritten ≤ o.slots := Nat.min_le_right ..

/-- RESULT of a successful ENCODE counts the slots exactly: they are far below 2^64. -/
theorem ExecCase.encode_result_toNat {s t : State} (h : ExecCase s .encode t) (herr : t.err = 0#4) :
    t.result.toNat = s.op.slotsWritten := by
  have hle := s.op.slotsWritten_le
  have hlt := s.op.slots_lt
  rw [h.encode_result, if_pos herr, BitVec.toNat_ofNat]
  omega

/-- A word of the destination of a successful ENCODE. -/
theorem ExecCase.encode_word {s t : State} (h : ExecCase s .encode t) (herr : t.err = 0#4) (hwf : Memory.wf s.pix)
    {i : Nat} (hi : i < s.op.pixels) : memRead t.pix (s.op.dst.toNat + i) = s.encodedWords.getD i 0 := by
  cases h with
  | encodeFailed hfail => exact absurd ((errorCode_eq_zero_iff _).mp herr) hfail
  | encoded _ => exact memRead_writeRange_inside _ hwf _ _ _ (by rwa [encodedWords_length])

theorem Running.cursor {s : State} (h : Running s) : s.internal.cursor = 0 := congrArg Internal.cursor h.2

/-! ### A successful ENCODE -/

/-- The running ENCODE of `s`, whose pixel space is in canonical form, ends in `t` without an error (`Encodes.of_exec`,
`Encodes.of_checks`). -/
structure Encodes (s t : State) : Prop where
  pix_wf : Memory.wf s.pix
  running : Running s
  ends : ExecCase s .encode t
  err : t.err = 0#4

theorem Encodes.of_exec {s t : State} (hinv : Inv s) (hrun : Running s) (hexec : exec .encode s = .next t)
    (herr : t.err = 0#4) : Encodes s t := ⟨hinv.pix_wf, hrun, exec_cases hexec, herr⟩

theorem Encodes.of_checks {s : State} (hinv : Inv s) (hrun : Running s) (hpass : EncodeChecksPass s) :
    ∃ t, exec .encode s = .next t ∧ Encodes s t := by
  obtain ⟨t, hexec, hcase⟩ := exec_answers .encode s
  exact ⟨t, hexec, .of_exec hinv hrun hexec (hcase.encode_err_iff.mpr ((encodeError_eq_none_iff s).mpr hpass))⟩

section Encodes

variable {s t : State} (h : Encodes s t)
include h

theorem Encodes.completed : Completed t := h.ends.frame.1

theorem Encodes.result : t.result.toNat = s.op.slotsWritten := h.ends.encode_result_toNat h.err

/-- The LSB of a lane whose slot is written is its stream bit. -/
theorem Encodes.lane {i : Nat} (hi : i < s.op.pixels) {l : Lane} (hw : 3 * i + laneIndex l < s.op.slotsWritten) :
    (memRead t.pix (s.op.dst.toNat + i)).getLsbD (lanePos l) = streamBit s.payload (3 * i + laneIndex l) := by
  rw [h.ends.encode_word h.err h.pix_wf hi, encodedWords_lane h.running.cursor hi hw]

/-- Every other bit, be it no lane's LSB or that of a slot past the stream, is the source's. -/
theorem Encodes.kept {i : Nat} (hi : i < s.op.pixels) {k : Nat}
    (hk : ∀ l, k = lanePos l → s.op.slotsWritten ≤ 3 * i + laneIndex l) :
    (memRead t.pix (s.op.dst.toNat + i)).getLsbD k = (memRead s.pix (s.op.src.toNat + i)).getLsbD k := by
  rw [h.ends.encode_word h.err h.pix_wf hi, encodedWords_kept h.running.cursor hi hk]

/-- R129 for one slot of the destination. -/
theorem Encodes.slotBit_eq {k : Nat} (hk : k < s.op.slots) :
    slotBit t.pix s.op.dst.toNat k =
      if k < s.op.slotsWritten then streamBit s.payload k else slotBit s.pix s.op.src.toNat k := by
  have hi := slotPixel_lt hk
  have hslot := slot_eq k
  unfold slotBit
  split
  · next hw => rw [h.lane hi (by omega), hslot]
  · next hw =>
    refine h.kept hi fun l hl => ?_
    rw [lane_eq_of_lanePos_mem (l := slotLane k) (l' := l) (by omega) (by omega)]
    omega

theorem Encodes.kept_of_not_lsb {i : Nat} (hi : i < s.op.pixels) {k : Nat} (hk : ∀ l, k ≠ lanePos l) :
    (memRead t.pix (s.op.dst.toNat + i)).getLsbD k = (memRead s.pix (s.op.src.toNat + i)).getLsbD k :=
  h.kept hi fun l hl => absurd hl (hk l)

/-- A pixel past the stream is the source's. -/
theorem Encodes.word_kept {i : Nat} (hi : i < s.op.pixels) (hw : s.op.slotsWritten ≤ 3 * i) :
    memRead t.pix (s.op.dst.toNat + i) = memRead s.pix (s.op.src.toNat + i) :=
  BitVec.eq_of_getLsbD_eq fun _ _ => h.kept hi fun _ _ => by omega

/-- A channel whose slot is past the stream is the source's. -/
theorem Encodes.chan_kept {i : Nat} (hi : i < s.op.pixels) {l : Lane}
    (hw : s.op.slotsWritten ≤ 3 * i + laneIndex l) :
    chan (memRead t.pix (s.op.dst.toNat + i)) l = chan (memRead s.pix (s.op.src.toNat + i)) l := by
  refine extractLsb'_congr fun k hlo hhi => h.kept hi fun l' hl' => ?_
  rwa [lane_eq_of_lanePos_mem (l := l) (l' := l') (by omega) (by omega)]

end Encodes

/-! ### The rules of ENCODE -/

theorem streamBit_payload {s : State} {k : Nat} (hk : k < 8 * s.op.payloadLen) :
    streamBit s.payload k = (memRead s.bytes (s.op.pay.toNat + k / 8)).getLsbD (k % 8) := by
  rw [streamBit, payload_getD s _ (by omega)]

/-- Settles O40: below `min(N, L)` a slot holds a payload bit or a sentinel 0. -/
theorem encodeEmbedsTheStreamInACopy : Obligations.EncodeEmbedsTheStreamInACopy := by
  intro s hinv hrun hpass
  obtain ⟨t, hexec, h⟩ := Encodes.of_checks hinv hrun hpass
  refine ⟨t, hexec, h.completed, h.err, h.result, fun k hk => ?slot, fun i hi b h16 h8 h0 => ?other⟩
  case slot =>
    have hw : k < s.op.slotsWritten ↔ k < 8 * s.op.len.toNat + 8 := lt_min_iff.trans (and_iff_left hk)
    have hlen : s.op.payloadLen = s.op.len.toNat := rfl
    rw [h.slotBit_eq hk, if_congr hw rfl rfl]
    split_ifs with hstream hpay hpay
    · exact streamBit_payload hpay
    · exact streamBit_of_ge _ _ (by rw [payload_length]; omega)
    · omega
    · rfl
  case other => exact h.kept_of_not_lsb hi fun l => by cases l <;> assumption

/-- Settles O42: the mask 0xFEFEFE leaves out the three channel LSBs, and they all lie below alpha. -/
theorem encodePreservesAlphaAndUpperBits : Obligations.EncodePreservesAlphaAndUpperBits := by
  intro s t hinv hrun hexec herr i hi
  have h := Encodes.of_exec hinv hrun hexec herr
  refine ⟨BitVec.eq_of_getLsbD_eq fun k _ => ?masked, extractLsb'_congr fun k hk _ => ?alpha⟩
  case masked =>
    rw [BitVec.getLsbD_and, BitVec.getLsbD_and]
    by_cases hlsb : ∃ l, k = lanePos l
    · obtain ⟨l, rfl⟩ := hlsb
      have hmask : (0xFFFEFEFE#32).getLsbD (lanePos l) = false := by cases l <;> rfl
      rw [hmask, Bool.and_false, Bool.and_false]
    · rw [h.kept_of_not_lsb hi (not_exists.mp hlsb)]
  case alpha =>
    refine h.kept_of_not_lsb hi fun l => ?_
    have hpos := lanePos_le l
    omega

/-- Settles O43: the last used pixel is the one of slot `w - 1`, so its lanes are written up to that slot. -/
theorem encodeLeavesTheTailUnmodified : Obligations.EncodeLeavesTheTailUnmodified := by
  intro s t hinv hrun hexec herr
  have h := Encodes.of_exec hinv hrun hexec herr
  refine ⟨fun i hw hi => h.word_kept hi (by omega), fun hpos i hlast => ?lastUsed⟩
  case lastUsed =>
    have hi : i < s.op.pixels := hlast ▸ slotPixel_lt (k := s.op.slotsWritten - 1)
      (by have := s.op.slotsWritten_le; omega)
    have hstream (l : Lane) (hw : 3 * i + laneIndex l < s.op.slotsWritten) :
        getLsb (chan (memRead t.pix (s.op.dst.toNat + i)) l) = streamBit s.payload (3 * i + laneIndex l) :=
      (getLsb_chan _ l).trans (h.lane hi hw)
    refine ⟨hstream .red ?_, fun hmod => h.chan_kept hi ?_, fun hmod => hstream .green ?_,
      fun hmod => h.chan_kept hi ?_, fun hmod => hstream .blue ?_⟩ <;>
    · simp only [laneIndex]
      omega

/-- Settles O44: with `L ≤ N` the slots written are all slots. -/
theorem encodeTruncatesSilentlyAndFillsExactly : Obligations.EncodeTruncatesSilentlyAndFillsExactly := by
  intro s hinv hrun hpass
  obtain ⟨t, hexec, h⟩ := Encodes.of_checks hinv hrun hpass
  have hresult (hle : s.op.slots ≤ s.op.streamLen) : t.result.toNat = s.op.slots :=
    h.result.trans (min_eq_right hle)
  refine ⟨t, hexec, h.err, fun hlt => ⟨hresult hlt.le, ?_⟩, fun heq => (hresult heq.le).trans heq,
    fun hle k hk => ?slot⟩
  · rw [hresult hlt.le]
    exact hlt
  case slot =>
    have hw : k < s.op.slotsWritten := hk.trans_eq (min_eq_right hle).symm
    rw [h.slotBit_eq hk, if_pos hw, expand_getD]

theorem encodeError_congr {s s' : State} (hop : s'.op = s.op) (hsizes : SameSizes s s') :
    s'.encodeError = s.encodeError := by
  obtain ⟨hpix, hbyte⟩ := hsizes
  rw [State.encodeError, State.fitsPix, State.fitsPix, State.fitsByte, hop, hpix, hbyte]
  rfl

theorem encodedWords_congr {s s' : State} (hop : s'.op = s.op) (hinternal : s'.internal = s.internal)
    (hsource : s'.sourceWords = s.sourceWords) (hpayload : s'.payload = s.payload) :
    s'.encodedWords = s.encodedWords := by
  simp only [State.encodedWords, hop, hinternal, hsource, hpayload]

/-- Settles O45: the checks read the operands and the sizes, and the words read the operands, the source and the
payload. -/
theorem encodeDependsOnlyOnItsInputs : Obligations.EncodeDependsOnlyOnItsInputs := by
  intro s s' t t' hinv hinv' ⟨_, hinternal⟩ ⟨_, hinternal'⟩ hop hsizes hpix hbytes hexec hexec'
  have h := exec_cases hexec
  have h' := exec_cases hexec'
  have herr : t'.err = t.err := by rw [h.encode_err, h'.encode_err, encodeError_congr hop hsizes]
  refine ⟨herr, ?result, fun hok i hi => ?word⟩
  case result => rw [h.encode_result, h'.encode_result, herr, hop]
  case word =>
    have hsource : s'.sourceWords = s.sourceWords := by
      rw [State.sourceWords, hop]
      exact readRange_congr _ _ _ _ _ hpix
    have hpayload : s'.payload = s.payload := by
      rw [State.payload, hop]
      exact readRange_congr _ _ _ _ _ hbytes
    have hword' := h'.encode_word (herr.trans hok) hinv'.pix_wf (i := i) (by rwa [hop])
    rw [hop] at hword'
    rw [hword', h.encode_word hok hinv.pix_wf hi,
      encodedWords_congr hop (hinternal'.trans hinternal.symm) hsource hpayload]

end Sys2Proof.Machine
end

section
/-! The read path of the rgb_channel_mux and DECODE on any image: what its scan finds and what a completion reports and
writes (spec/41_decoder.md R150 to R160, R166 and R167). -/

namespace Sys2Proof.Machine

/-! ### The decode bit stream -/

theorem decodeBitStream_getElem? {s : State} {k : Nat} (hk : k < s.op.slots) :
    s.decodeBitStream[k]? = some (slotBit s.pix s.op.src.toNat k) := by
  have hlength : k < s.decodeBitStream.length := by rwa [decodeBitStream_length]
  rw [List.getElem?_eq_getElem hlength, ← List.getD_eq_getElem _ false hlength, decodeBitStream_getD s k hk]

/-- Settles O38: the LSB of a lane's channel is the bit of its slot. -/
theorem decodeBitStreamReadsEverySlot : Obligations.DecodeBitStreamReadsEverySlot := by
  refine fun s => ⟨decodeBitStream_length s, fun k hk => ?_⟩
  rw [decodeBitStream_getElem? hk]
  exact congrArg some (getLsb_chan _ (slotLane k)).symm

/-! ### The checks of DECODE -/

/-- `k` is the `k*` of R160 for the running DECODE of `s`. -/
abbrev State.StopsAt (s : State) (k : Nat) : Prop :=
  FirstStop (slotBit s.pix s.op.src.toNat) (8 * s.op.groups) k

section Checks

variable {s : State} (hi : s.internal = Internal.initial) (hfits : s.fitsPix s.op.src.toNat s.op.pixels = true)
include hi hfits

theorem decodeError_of_stop {k : Nat} (hk : s.StopsAt k) :
    s.decodeError = if s.fitsByte s.op.out.toNat (k / 8) then .none else .addressRange := by
  obtain ⟨hzero, hcount, -, -⟩ := decodeScan_stopped s hi k hk
  cases hout : s.fitsByte s.op.out.toNat (k / 8) <;> simp [State.decodeError, hfits, hzero, hcount, hout]

theorem decodeError_of_no_stop (hno : ∀ k, ¬s.StopsAt k) : s.decodeError = .noStopMarker := by
  have hzero : s.decodeScan.zeroRun ≠ 8 := mt (decodeScan_zeroRun_eq_iff s hi).mp (not_exists.mpr hno)
  simp [State.decodeError, hfits, hzero]

end Checks

/-! ### What a completed DECODE reports and writes -/

theorem ExecCase.decode_err {s t : State} (h : ExecCase s .decode t) : t.err = errorCode s.decodeError := by
  cases h with
  | decoded hnone => rw [hnone]; rfl
  | decodeFailed _ => rfl

theorem ExecCase.decode_failed {s t : State} (h : ExecCase s .decode t) (herr : t.err ≠ 0#4) :
    t.result = 0#64 ∧ t.bytes = s.bytes := by
  cases h with
  | decoded _ => exact absurd rfl herr
  | decodeFailed _ => exact ⟨rfl, rfl⟩

/-- An output byte of a successful DECODE. -/
theorem ExecCase.decode_byte {s t : State} (h : ExecCase s .decode t) (herr : t.err = 0#4) (hwf : Memory.wf s.bytes)
    (hi : s.internal = Internal.initial) {g : Nat} (hg : g < t.result.toNat) :
    memRead t.bytes (s.op.out.toNat + g) = s.decodeScan.completed.getD g 0 := by
  rw [h.decode_result hi herr, ← (decodeScan_count s hi).1] at hg
  cases h with
  | decodeFailed hfail => exact absurd ((errorCode_eq_zero_iff _).mp herr) hfail
  | decoded _ => exact memRead_writeRange_inside _ hwf _ _ _ hg

/-! ### A running DECODE -/

/-- The running DECODE of `s`, whose byte space is in canonical form and whose source fits, ends in `t`
(`Decodes.of_exec`, `Decodes.of_running`). -/
structure Decodes (s t : State) : Prop where
  bytes_wf : Memory.wf s.bytes
  running : Running s
  fits : s.fitsPix s.op.src.toNat s.op.pixels = true
  ends : ExecCase s .decode t

theorem Decodes.of_exec {s t : State} (hinv : Inv s) (hrun : Running s)
    (hfits : s.fitsPix s.op.src.toNat s.op.pixels = true) (hexec : exec .decode s = .next t) : Decodes s t :=
  ⟨hinv.bytes_wf, hrun, hfits, exec_cases hexec⟩

theorem Decodes.of_running {s : State} (hinv : Inv s) (hrun : Running s)
    (hfits : s.fitsPix s.op.src.toNat s.op.pixels = true) : ∃ t, exec .decode s = .next t ∧ Decodes s t := by
  obtain ⟨t, hexec, _⟩ := exec_answers .decode s
  exact ⟨t, hexec, .of_exec hinv hrun hfits hexec⟩

section Decodes

variable {s t : State} (h : Decodes s t)
include h

theorem Decodes.completed : Completed t := h.ends.frame.1

theorem Decodes.success {k : Nat} (hk : s.StopsAt k) (hout : s.fitsByte s.op.out.toNat (k / 8) = true) :
    t.err = 0#4 ∧ t.result.toNat = k / 8 ∧
      HoldsGroups t.bytes s.op.out.toNat (slotBit s.pix s.op.src.toNat) (k / 8) := by
  have hi := h.running.2
  have hstop := decodeScan_stopped s hi k hk
  have herr : t.err = 0#4 := by rw [h.ends.decode_err, decodeError_of_stop hi h.fits hk, if_pos hout]; rfl
  have hresult : t.result.toNat = k / 8 := (h.ends.decode_result hi herr).trans hstop.count
  refine ⟨herr, hresult, fun g hg j hj => ?_⟩
  rw [h.ends.decode_byte herr h.bytes_wf hi (hresult ▸ hg), hstop.completed g hg j hj]

theorem Decodes.no_room {k : Nat} (hk : s.StopsAt k) (hout : s.fitsByte s.op.out.toNat (k / 8) = false) :
    t.err = 4#4 ∧ t.result = 0#64 ∧ t.bytes = s.bytes := by
  have herr : t.err = 4#4 := by
    rw [h.ends.decode_err, decodeError_of_stop h.running.2 h.fits hk, if_neg (Bool.eq_false_iff.mp hout)]; rfl
  exact ⟨herr, h.ends.decode_failed (by rw [herr]; decide)⟩

theorem Decodes.no_stop (hno : ∀ k, ¬s.StopsAt k) : t.err = 2#4 ∧ t.result = 0#64 ∧ t.bytes = s.bytes := by
  have herr : t.err = 2#4 := by rw [h.ends.decode_err, decodeError_of_no_stop h.running.2 h.fits hno]; rfl
  exact ⟨herr, h.ends.decode_failed (by rw [herr]; decide)⟩

end Decodes

/-- Settles O46: the three endings of the scan. -/
theorem decodeReturnsTheGroupsBeforeTheFirstZeroRun : Obligations.DecodeReturnsTheGroupsBeforeTheFirstZeroRun := by
  intro s hinv hrun hfits
  obtain ⟨t, hexec, h⟩ := Decodes.of_running hinv hrun hfits
  refine ⟨fun k hk => ⟨fun hout => ?success, fun hout => ?noRoom⟩, fun hno => ?noStop⟩
  case success => exact ⟨t, hexec, h.completed, h.success hk hout⟩
  case noRoom => exact ⟨t, hexec, h.completed, h.no_room hk hout⟩
  case noStop => exact ⟨t, hexec, h.completed, h.no_stop hno⟩

/-- Settles O48: no group lies before group 0, and a region of 0 bytes always fits. -/
theorem stopInTheFirstGroupIsAnEmptySuccess : Obligations.StopInTheFirstGroupIsAnEmptySuccess := by
  intro s k hinv hrun hfits hk hle
  obtain ⟨t, hexec, h⟩ := Decodes.of_running hinv hrun hfits
  have hzero : k / 8 = 0 := by omega
  obtain ⟨herr, hresult, -⟩ := h.success hk ((fits_iff _ _ _).mpr (.inl hzero))
  rw [hzero] at hresult
  refine ⟨t, hexec, h.completed, herr, BitVec.eq_of_toNat_eq hresult, fun i => ?pix, fun a => ?bytes⟩
  case pix => rw [h.ends.decode_pix]
  case bytes => exact h.ends.decode_bytes_outside h.bytes_wf hrun.2 (.inr (by omega))

theorem decodeScan_congr {s s' : State} (hop : s'.op = s.op) (hinternal : s'.internal = s.internal)
    (hsource : s'.sourceWords = s.sourceWords) : s'.decodeScan = s.decodeScan := by
  simp only [State.decodeScan, State.scannedBits, State.decodeBitStream, hop, hinternal, hsource]

theorem decodeError_congr {s s' : State} (hop : s'.op = s.op) (hsizes : SameSizes s s')
    (hscan : s'.decodeScan = s.decodeScan) : s'.decodeError = s.decodeError := by
  obtain ⟨hpix, hbyte⟩ := hsizes
  rw [State.decodeError, State.fitsPix, State.fitsByte, hscan, hop, hpix, hbyte]
  rfl

/-- Settles O49: the checks and the output read the operands, the sizes and the scan, and the scan reads the source
words. -/
theorem decodeDependsOnlyOnItsInputs : Obligations.DecodeDependsOnlyOnItsInputs := by
  intro s s' t t' hinv hinv' ⟨_, hinternal⟩ ⟨_, hinternal'⟩ hop hsizes hpix hexec hexec'
  have h := exec_cases hexec
  have h' := exec_cases hexec'
  have hsource : s'.sourceWords = s.sourceWords := by
    rw [State.sourceWords, hop]
    exact readRange_congr _ _ _ _ _ hpix
  have hscan := decodeScan_congr hop (hinternal'.trans hinternal.symm) hsource
  have herr : t'.err = t.err := by rw [h.decode_err, h'.decode_err, decodeError_congr hop hsizes hscan]
  have hresult : t'.result = t.result := by
    by_cases hok : t.err = 0#4
    · refine BitVec.eq_of_toNat_eq ?_
      rw [h.decode_result hinternal hok, h'.decode_result hinternal' (herr.trans hok), hscan]
    · rw [(h.decode_failed hok).1, (h'.decode_failed (herr ▸ hok)).1]
  refine ⟨herr, hresult, fun hok i hi => ?byte⟩
  case byte =>
    have hbyte' := h'.decode_byte (herr.trans hok) hinv'.bytes_wf hinternal' (g := i) (by rwa [hresult])
    rw [hop] at hbyte'
    rw [hbyte', h.decode_byte hok hinv.bytes_wf hinternal hi, hscan]

end Sys2Proof.Machine
end

section
/-! Runs of 8 zero bits in a bit stream, and in the stream of a payload and its sentinel (spec/41_decoder.md R160 and
R161). -/

namespace Sys2Proof.Machine

/-! ### Runs and the first stop -/

/-- The bits of the run by their own index. -/
theorem zeroRunEndsAt_iff {bits : Nat → Bool} {k : Nat} :
    ZeroRunEndsAt bits k ↔ 7 ≤ k ∧ ∀ q ≤ k, k < q + 8 → bits q = false := by
  refine and_congr_right fun _ => ⟨fun h q hq hlt => ?_, fun h j hj => h (k - j) (by omega) (by omega)⟩
  have hq := h (k - q) (by omega)
  rwa [show k - (k - q) = q by omega] at hq

theorem zeroRunEndsAt_congr {bits bits' : Nat → Bool} {k : Nat} (h : ∀ q ≤ k, bits' q = bits q) :
    ZeroRunEndsAt bits' k ↔ ZeroRunEndsAt bits k :=
  and_congr_right fun _ => forall₂_congr fun j _ => by rw [h (k - j) (Nat.sub_le ..)]

theorem FirstStop.congr {bits bits' : Nat → Bool} {limit k : Nat} (hk : FirstStop bits limit k)
    (h : ∀ q ≤ k, bits' q = bits q) : FirstStop bits' limit k := by
  obtain ⟨hlt, hrun, hfirst⟩ := hk
  exact ⟨hlt, (zeroRunEndsAt_congr h).mpr hrun,
    fun k' hk' => mt (zeroRunEndsAt_congr fun q hq => h q (by omega)).mp (hfirst k' hk')⟩

theorem FirstStop.le {bits : Nat → Bool} {limit k k' : Nat} (hk : FirstStop bits limit k)
    (hrun : ZeroRunEndsAt bits k') : k ≤ k' := Nat.not_lt.mp fun hlt => hk.2.2 k' hlt hrun

/-- A run below the limit makes a first one. -/
theorem exists_firstStop {bits : Nat → Bool} {limit k : Nat} (hk : k < limit) (hrun : ZeroRunEndsAt bits k) :
    ∃ k', FirstStop bits limit k' := by
  have hex : ∃ k, ZeroRunEndsAt bits k := ⟨k, hrun⟩
  exact ⟨Nat.find hex, (Nat.find_min' hex hrun).trans_lt hk, Nat.find_spec hex, fun _ => Nat.find_min hex⟩

/-! ### The stream of a payload -/

/-- R122: the sentinel is a run of 8 zero bits. -/
theorem zeroRunEndsAt_sentinel (P : List Byte) : ZeroRunEndsAt (streamBit P) (8 * P.length + 7) :=
  zeroRunEndsAt_iff.mpr ⟨Nat.le_add_left .., fun q _ _ => streamBit_of_ge P q (by omega)⟩

section FirstStop

variable {P : List Byte} {limit k : Nat} (hk : FirstStop (streamBit P) limit k)
include hk

theorem FirstStop.lt_stream : k < 8 * P.length + 8 := Nat.lt_succ_of_le (hk.le (zeroRunEndsAt_sentinel P))

/-- The first stop is that of the sentinel's group exactly when the data bits hold no run. -/
theorem FirstStop.noZeroRun_iff : NoZeroRun P ↔ k / 8 = P.length := by
  have hlt := hk.lt_stream
  obtain ⟨-, hrun, hfirst⟩ := hk
  refine ⟨fun hno => ?_, fun hgroup k' hk' => hfirst k' (by omega)⟩
  have hge : ¬k < 8 * P.length := fun hdata => hno k hdata hrun
  omega

end FirstStop

/-! ### Runs of zero bits and the bytes of a payload (R161) -/

theorem lt_length_takeWhile_range (p : Nat → Bool) (n i : Nat) :
    i < ((List.range n).takeWhile p).length ↔ i < n ∧ ∀ j ≤ i, p j = true := by
  rw [List.takeWhile_eq_take_findIdx_not, List.length_take, lt_min_iff, List.lt_findIdx_iff]
  simp only [List.length_range, List.getElem_range, Bool.not_eq_false', exists_prop]
  tauto

theorem lt_ctz8_iff (b : Byte) (i : Nat) : i < ctz8 b ↔ i < 8 ∧ ∀ j ≤ i, b.getLsbD j = false := by
  simp [ctz8, lt_length_takeWhile_range]

theorem lt_clz8_iff (b : Byte) (i : Nat) : i < clz8 b ↔ i < 8 ∧ ∀ j ≤ i, b.getLsbD (7 - j) = false := by
  simp [clz8, lt_length_takeWhile_range]

theorem byte_eq_zero_iff (b : Byte) : b = 0x00#8 ↔ ∀ j < 8, b.getLsbD j = false := by
  refine ⟨fun h j _ => by rw [h, BitVec.getLsbD_zero], fun h => BitVec.eq_of_getLsbD_eq fun j hj => ?_⟩
  rw [h j hj, BitVec.getLsbD_zero]

/-- A run that ends with a byte is that byte, 0x00. -/
theorem zeroRunEndsAt_byte (P : List Byte) (g : Nat) :
    ZeroRunEndsAt (streamBit P) (8 * g + 7) ↔ P.getD g 0#8 = 0x00#8 := by
  rw [zeroRunEndsAt_iff, byte_eq_zero_iff]
  refine ⟨fun ⟨_, h⟩ j hj => ?_, fun h => ⟨Nat.le_add_left .., fun q hq hlt => ?_⟩⟩
  · rw [← streamBit_byte P g j hj]
    exact h _ (by omega) (by omega)
  · rw [show q = 8 * g + (q - 8 * g) by omega, streamBit_byte P g _ (by omega)]
    exact h _ (by omega)

/-- A run that ends inside a byte is made of the top zero bits of the byte before and the bottom ones of this one. -/
theorem zeroRunEndsAt_neighbours (P : List Byte) (i : Nat) {r : Nat} (hr : r < 7) :
    ZeroRunEndsAt (streamBit P) (8 * (i + 1) + r) ↔
      6 - r < clz8 (P.getD i 0#8) ∧ r < ctz8 (P.getD (i + 1) 0#8) := by
  rw [zeroRunEndsAt_iff, lt_clz8_iff, lt_ctz8_iff]
  refine ⟨fun ⟨_, h⟩ => ⟨⟨by omega, fun j hj => ?top⟩, by omega, fun j hj => ?bottom⟩,
    fun ⟨⟨_, htop⟩, _, hbottom⟩ => ⟨by omega, fun q hq hlt => ?run⟩⟩
  case top =>
    rw [← streamBit_byte P i _ (by omega)]
    exact h _ (by omega) (by omega)
  case bottom =>
    rw [← streamBit_byte P (i + 1) j (by omega)]
    exact h _ (by omega) (by omega)
  case run =>
    rcases Nat.lt_or_ge q (8 * (i + 1)) with hlow | hhigh
    · rw [show q = 8 * i + (7 - (8 * i + 7 - q)) by omega, streamBit_byte P i _ (by omega)]
      exact htop _ (by omega)
    · rw [show q = 8 * (i + 1) + (q - 8 * (i + 1)) by omega, streamBit_byte P (i + 1) _ (by omega)]
      exact hbottom _ (by omega)

theorem ctz8_lt_of_ne_zero {b : Byte} (hb : b ≠ 0x00#8) : ctz8 b < 8 :=
  Nat.not_le.mp fun hge => hb ((byte_eq_zero_iff b).mpr fun j hj =>
    ((lt_ctz8_iff b 7).mp hge).2 j (Nat.le_of_lt_succ hj))

theorem clz8_lt_of_ne_zero {b : Byte} (hb : b ≠ 0x00#8) : clz8 b < 8 :=
  Nat.not_le.mp fun hge => hb ((byte_eq_zero_iff b).mpr fun j hj => by
    have hbit := ((lt_clz8_iff b 7).mp hge).2 (7 - j) (by omega)
    rwa [show 7 - (7 - j) = j by omega] at hbit)

/-- R161's condition on the bytes. -/
theorem noZeroRun_iff (P : List Byte) : NoZeroRun P ↔
    (∀ b ∈ P, b ≠ 0x00#8) ∧ ∀ i, i + 1 < P.length → clz8 (P.getD i 0#8) + ctz8 (P.getD (i + 1) 0#8) < 8 := by
  constructor
  · intro hno
    have hbyte : ∀ g < P.length, P.getD g 0#8 ≠ 0x00#8 := fun g hg =>
      mt (zeroRunEndsAt_byte P g).mpr (hno _ (by omega))
    refine ⟨List.forall_mem_iff_getElem.mpr fun g hg => ?_, fun i hi => Nat.not_le.mp fun hge => ?_⟩
    · rw [← List.getD_eq_getElem P 0#8 hg]
      exact hbyte g hg
    · have hclz := clz8_lt_of_ne_zero (hbyte i (by omega))
      have hctz := ctz8_lt_of_ne_zero (hbyte (i + 1) hi)
      exact hno (8 * (i + 1) + (ctz8 (P.getD (i + 1) 0#8) - 1)) (by omega)
        ((zeroRunEndsAt_neighbours P i (by omega)).mpr ⟨by omega, by omega⟩)
  · rintro ⟨hbyte, hpair⟩ k hk hrun
    have h7 := hrun.1
    rcases Nat.lt_or_ge (k % 8) 7 with hinside | hlast
    · obtain ⟨i, hi⟩ : ∃ i, k / 8 = i + 1 := ⟨k / 8 - 1, by omega⟩
      rw [show k = 8 * (i + 1) + k % 8 by omega, zeroRunEndsAt_neighbours P i hinside] at hrun
      have := hpair i (by omega)
      omega
    · have hg : k / 8 < P.length := by omega
      rw [show k = 8 * (k / 8) + 7 by omega, zeroRunEndsAt_byte, List.getD_eq_getElem P _ hg] at hrun
      exact hbyte _ (List.getElem_mem hg) hrun

end Sys2Proof.Machine
end

section
/-! ENCODE then DECODE: an image that holds the stream of a payload gives the payload back up to the first run of 8 zero
bits of that stream (spec/41_decoder.md R161 to R164). -/

namespace Sys2Proof.Machine

/-! ### A DECODE of an image that holds a stream -/

/-- The running DECODE of `d` ends in `u`, and its source image holds the stream of `P` as far as it has room
(`DecodesStream.of_encoded`). -/
structure DecodesStream (P : List Byte) (d u : State) : Prop extends Decodes d u where
  stream : ∀ k < 8 * P.length + 8, k < d.op.slots → slotBit d.pix d.op.src.toNat k = streamBit P k

/-- What the image of a successful ENCODE holds (R129), as a DECODE of the same size reads it. -/
theorem slotBit_of_encoded {s t d : State} (h : Encodes s t) (hd : DecodesImageOf s t d) {k : Nat}
    (hstream : k < 8 * s.payload.length + 8) (hk : k < s.op.slots) :
    slotBit d.pix d.op.src.toNat k = streamBit s.payload k := by
  obtain ⟨_, _, _, _, _, _, hsame⟩ := hd
  rw [payload_length] at hstream
  rw [slotBit, hsame _ (slotPixel_lt hk)]
  exact (h.slotBit_eq hk).trans (if_pos (lt_min hstream hk))

theorem slots_of_image {s t d : State} (hd : DecodesImageOf s t d) : d.op.slots = s.op.slots := by
  obtain ⟨_, _, _, hw, hh, _⟩ := hd
  rw [Operands.slots, Operands.pixels, hw, hh]
  rfl

theorem DecodesStream.of_encoded {s t d u : State} (hinv : Inv s) (hrun : Running s) (hexec : exec .encode s = .next t)
    (herr : t.err = 0#4) (hinvd : Inv d) (hd : DecodesImageOf s t d) (hexecd : exec .decode d = .next u) :
    DecodesStream s.payload d u := by
  have hslots := slots_of_image hd
  have ⟨hrund, _, _, _, _, hfits, _⟩ := hd
  exact ⟨.of_exec hinvd hrund hfits hexecd,
    fun k hk hlt => slotBit_of_encoded (.of_exec hinv hrun hexec herr) hd hk (hslots ▸ hlt)⟩

theorem Operands.groups_le (o : Operands) : 8 * o.groups ≤ o.slots := Nat.mul_div_le ..

/-- The sentinel's group is scanned exactly when the whole stream has room. -/
theorem Operands.lt_groups_iff (o : Operands) (n : Nat) : n < o.groups ↔ 8 * n + 8 ≤ o.slots := by
  unfold Operands.groups
  omega

/-- A shorter region fits where a longer one does (R71). -/
theorem fits_mono {size base m n : Nat} (hle : m ≤ n) (h : fits size base n = true) : fits size base m = true := by
  rw [fits_iff] at h ⊢
  omega

/-- If the whole stream has room, the sentinel stops the scan if nothing before it does. -/
theorem Operands.exists_stop (o : Operands) {P : List Byte} (hlen : 8 * P.length + 8 ≤ o.slots) :
    ∃ k, FirstStop (streamBit P) (8 * o.groups) k := by
  have hgroup := (o.lt_groups_iff P.length).mpr hlen
  exact exists_firstStop (k := 8 * P.length + 7) (by omega) (zeroRunEndsAt_sentinel P)

/-- Where the payload fits, so does the output before any stop. -/
theorem FirstStop.fitsByte {P : List Byte} {limit k base : Nat} {d : State} (hk : FirstStop (streamBit P) limit k)
    (hroom : d.fitsByte base P.length = true) : d.fitsByte base (k / 8) = true := by
  have hlt := hk.lt_stream
  exact fits_mono (by omega) hroom

section DecodesStream

variable {P : List Byte} {d u : State} (h : DecodesStream P d u)
include h

theorem DecodesStream.bits_eq {k : Nat} (hk : k < 8 * P.length + 8) (hlt : k < 8 * d.op.groups) :
    ∀ q ≤ k, slotBit d.pix d.op.src.toNat q = streamBit P q := fun q hq =>
  h.stream q (by omega) (by have := d.op.groups_le; omega)

/-- The scan stops where the stream does: it does not get past the sentinel. -/
theorem DecodesStream.stopsAt_iff (k : Nat) : d.StopsAt k ↔ FirstStop (streamBit P) (8 * d.op.groups) k := by
  constructor
  · intro hstop
    have hlt : k < 8 * P.length + 8 := by
      by_contra hpast
      have hgroups := hstop.1
      have hsentinel := (zeroRunEndsAt_congr (h.bits_eq (k := 8 * P.length + 7) (by omega) (by omega))).mpr
        (zeroRunEndsAt_sentinel P)
      exact hpast (Nat.lt_succ_of_le (hstop.le hsentinel))
    exact hstop.congr fun q hq => (h.bits_eq hlt hstop.1 q hq).symm
  · exact fun hstop => hstop.congr (h.bits_eq hstop.lt_stream hstop.1)

theorem DecodesStream.no_stop (hno : ∀ k, ¬FirstStop (streamBit P) (8 * d.op.groups) k) :
    u.err = 2#4 ∧ u.result = 0#64 ∧ u.bytes = d.bytes :=
  h.toDecodes.no_stop fun k => mt (h.stopsAt_iff k).mp (hno k)

/-- The output is the payload's bytes before the stop. -/
theorem DecodesStream.success {k : Nat} (hk : FirstStop (streamBit P) (8 * d.op.groups) k)
    (hout : d.fitsByte d.op.out.toNat (k / 8) = true) :
    u.err = 0#4 ∧ u.result.toNat = k / 8 ∧ readRange u.bytes d.op.out.toNat (k / 8) = P.take (k / 8) := by
  obtain ⟨herr, hresult, hbytes⟩ := h.toDecodes.success ((h.stopsAt_iff k).mpr hk) hout
  have hbits := h.bits_eq hk.lt_stream hk.1
  have hlt := hk.lt_stream
  refine ⟨herr, hresult, List.ext_getElem ?length fun g hg _ => BitVec.eq_of_getLsbD_eq fun j hj => ?bit⟩
  case length =>
    rw [readRange_length, List.length_take]
    omega
  case bit =>
    rw [readRange_length] at hg
    rw [readRange_getElem, List.getElem_take, hbytes g hg j hj, hbits _ (by omega), streamBit_byte P g j hj,
      List.getD_eq_getElem]

/-- A stop in the sentinel's group returns the payload. -/
theorem DecodesStream.returns_payload {k : Nat} (hk : FirstStop (streamBit P) (8 * d.op.groups) k)
    (hgroup : k / 8 = P.length) (hroom : d.fitsByte d.op.out.toNat P.length = true) :
    u.err = 0#4 ∧ u.result.toNat = P.length ∧ readRange u.bytes d.op.out.toNat P.length = P := by
  have hbefore := h.success hk (hgroup ▸ hroom)
  rwa [hgroup, List.take_length] at hbefore

end DecodesStream

/-- R163: ERR and RESULT depend only on the payload and L. -/
theorem DecodesStream.result_congr {P : List Byte} {d u d' u' : State} (h : DecodesStream P d u)
    (h' : DecodesStream P d' u') (hroom : d.fitsByte d.op.out.toNat P.length = true)
    (hroom' : d'.fitsByte d'.op.out.toNat P.length = true) (hslots : d'.op.slots = d.op.slots) :
    u'.err = u.err ∧ u'.result = u.result := by
  have hgroups : d'.op.groups = d.op.groups := congrArg (· / 8) hslots
  by_cases hstop : ∃ k, FirstStop (streamBit P) (8 * d.op.groups) k
  · obtain ⟨k, hk⟩ := hstop
    obtain ⟨herr, hresult, -⟩ := h.success hk (hk.fitsByte hroom)
    obtain ⟨herr', hresult', -⟩ := h'.success (hgroups ▸ hk) (hk.fitsByte hroom')
    exact ⟨herr'.trans herr.symm, BitVec.eq_of_toNat_eq (hresult'.trans hresult.symm)⟩
  · have hno := not_exists.mp hstop
    obtain ⟨herr, hresult, -⟩ := h.no_stop hno
    obtain ⟨herr', hresult', -⟩ := h'.no_stop (hgroups ▸ hno)
    exact ⟨herr'.trans herr.symm, hresult'.trans hresult.symm⟩

/-! ### The rules of ENCODE then DECODE -/

/-- Settles O50: without a run in the data bits the first stop lies in the sentinel's group. -/
theorem encodeThenDecodeReturnsThePayload : Obligations.EncodeThenDecodeReturnsThePayload := by
  refine ⟨fun s t d hinv hrun hexec herr hinvd hd hroom hlen hno => ?roundTrip, noZeroRun_iff⟩
  case roundTrip =>
    obtain ⟨u, hexecd, -⟩ := exec_answers .decode d
    have h := DecodesStream.of_encoded hinv hrun hexec herr hinvd hd hexecd
    rw [Operands.streamLen, ← slots_of_image hd] at hlen
    rw [← payload_length] at hroom hlen ⊢
    obtain ⟨k, hk⟩ := d.op.exists_stop hlen
    exact ⟨u, hexecd, h.completed, h.returns_payload hk (hk.noZeroRun_iff.mp hno) hroom⟩

/-- Settles O51: the groups of the data bits are all scanned. -/
theorem zeroRunInThePayloadTruncatesTheDecode : Obligations.ZeroRunInThePayloadTruncatesTheDecode := by
  intro s t d k hinv hrun hexec herr hinvd hd hlen ⟨hlt, hrunk, hfirst⟩ hout
  obtain ⟨u, hexecd, -⟩ := exec_answers .decode d
  have h := DecodesStream.of_encoded hinv hrun hexec herr hinvd hd hexecd
  rw [Operands.streamLen, ← slots_of_image hd] at hlen
  have hgroups := (d.op.lt_groups_iff _).mpr hlen
  obtain ⟨herru, hresult, hbytes⟩ := h.success ⟨by omega, hrunk, hfirst⟩ hout
  exact ⟨u, hexecd, h.completed, herru, hresult, by omega, hbytes⟩

/-- Settles O52: a stop lies in the sentinel's group or before it, and without one that group is not scanned. -/
theorem decodeOfAnEncodedImageIsNeverGarbage : Obligations.DecodeOfAnEncodedImageIsNeverGarbage := by
  refine ⟨?endings, ?congr⟩
  case endings =>
    intro s t d u hinv hrun hexec herr hinvd hd hroom hexecd
    have h := DecodesStream.of_encoded hinv hrun hexec herr hinvd hd hexecd
    rw [Operands.streamLen, ← slots_of_image hd]
    rw [← payload_length] at hroom ⊢
    by_cases hstop : ∃ k, FirstStop (streamBit s.payload) (8 * d.op.groups) k
    · obtain ⟨k, hk⟩ := hstop
      have hlt := hk.lt_stream
      by_cases hgroup : k / 8 = s.payload.length
      · obtain ⟨herru, hresult, hbytes⟩ := h.returns_payload hk hgroup hroom
        have hlen := (d.op.lt_groups_iff s.payload.length).mp (by have := hk.1; omega)
        exact .inl ⟨herru, hresult, hlen, hk.noZeroRun_iff.mpr hgroup, hbytes⟩
      · obtain ⟨herru, hresult, hbytes⟩ := h.success hk (hk.fitsByte hroom)
        exact .inr (.inl ⟨herru, by omega, hresult ▸ hbytes⟩)
    · obtain ⟨herru, hresult, -⟩ := h.no_stop (not_exists.mp hstop)
      exact .inr (.inr ⟨herru, hresult, Nat.not_le.mp (mt d.op.exists_stop hstop)⟩)
  case congr =>
    intro s t d u s' t' d' u' hinv hrun hexec herr hinvd hd hroom hexecd hinv' hrun' hexec' herr' hinvd' hd' hroom'
      hexecd' hpayload hslots
    have h := DecodesStream.of_encoded hinv hrun hexec herr hinvd hd hexecd
    have h' := DecodesStream.of_encoded hinv' hrun' hexec' herr' hinvd' hd' hexecd'
    rw [← payload_length] at hroom hroom'
    rw [hpayload] at h' hroom'
    exact h.result_congr h' hroom hroom' ((slots_of_image hd').trans (hslots.trans (slots_of_image hd).symm))

/-- Settles O53: with `N = L + 1` only the data bits are scanned. -/
theorem oneBitBeyondCapacityLosesTheSentinel : Obligations.OneBitBeyondCapacityLosesTheSentinel := by
  refine ⟨fun s t d hinv hrun hexec herr hinvd hd hlen hno => ?noMarker, fun o => ?groups⟩
  case noMarker =>
    obtain ⟨u, hexecd, -⟩ := exec_answers .decode d
    have h := DecodesStream.of_encoded hinv hrun hexec herr hinvd hd hexecd
    rw [Operands.streamLen, ← slots_of_image hd, ← payload_length] at hlen
    have hgroups := d.op.groups_le
    obtain ⟨herru, hresult, hbytes⟩ := h.no_stop fun k hk => hno k (by have := hk.1; omega) hk.2.1
    refine ⟨u, hexecd, h.completed, herru, hresult, fun i => ?_, fun a => ?_⟩
    · rw [h.ends.decode_pix]
    · rw [hbytes]
  case groups =>
    unfold Operands.streamLen Operands.groups
    omega

end Sys2Proof.Machine
end

section
/-! The laws of setLsb and getLsb (spec/42_channel_helpers.md R182), each read off the bits of `setLsb v b`: bit 0 is `b`
and the others are those of `v` (`setLsb_getLsbD`). -/

namespace Sys2Proof.Machine

@[simp] theorem getLsb_setLsb (v : Byte) (b : Bool) : getLsb (setLsb v b) = b := by
  rw [getLsb_eq, setLsb_getLsbD, if_pos rfl]

@[simp] theorem setLsb_getLsb (v : Byte) : setLsb v (getLsb v) = v := by
  refine BitVec.eq_of_getLsbD_eq fun k _ => ?_
  rw [setLsb_getLsbD, getLsb_eq]
  split
  · next h => rw [h]
  · rfl

theorem extractLsb'_setLsb (v : Byte) (b : Bool) : (setLsb v b).extractLsb' 1 7 = v.extractLsb' 1 7 := by
  refine BitVec.eq_of_getLsbD_eq fun k _ => ?_
  rw [BitVec.getLsbD_extractLsb', BitVec.getLsbD_extractLsb', setLsb_getLsbD, if_neg (by omega)]

/-- The mask 0xFE clears bit 0 and keeps the bits above it. -/
theorem getLsbD_and_0xFE (v : Byte) (k : Nat) : (v &&& 0xFE#8).getLsbD k = (decide (k ≠ 0) && v.getLsbD k) := by
  have hmask : 0xFE#8 = ~~~0x01#8 := by decide
  rw [hmask, BitVec.getLsbD_and, BitVec.getLsbD_not, BitVec.getLsbD_one]
  rcases Nat.lt_or_ge k 8 with hk | hk
  · simp [hk, Bool.and_comm]
  · simp [BitVec.getLsbD_of_ge v k hk]

theorem setLsb_eq_and_or (v : Byte) (b : Bool) :
    setLsb v b = (v &&& 0xFE#8) ||| (BitVec.ofBool b).setWidth 8 := by
  refine BitVec.eq_of_getLsbD_eq fun k hk => ?_
  rw [setLsb_getLsbD, BitVec.getLsbD_or, getLsbD_and_0xFE, BitVec.getLsbD_setWidth, BitVec.getLsbD_ofBool]
  by_cases h : k = 0 <;> simp [h]

/-- Settles O36 law by law. -/
theorem channelHelperLaws : Obligations.ChannelHelperLaws := fun v b =>
  ⟨getLsb_setLsb v b, setLsb_getLsb v, extractLsb'_setLsb v b, setLsb_eq_and_or v b⟩

end Sys2Proof.Machine
end

section
/-! CAPACITY: the slot count that it returns (spec/43_capacity.md R190), and the payloads that fit it (R191). -/

namespace Sys2Proof.Machine

/-! ### What a completed CAPACITY reports -/

/-- RESULT of CAPACITY is the slot count exactly: it is far below 2^64. -/
theorem ExecCase.capacity_result_toNat {s t : State} (h : ExecCase s .capacity t) : t.result.toNat = s.op.slots := by
  cases h with
  | counted =>
    have hlt := s.op.slots_lt
    rw [finish_result, BitVec.toNat_ofNat]
    omega

theorem Operands.slots_eq (o : Operands) : o.slots = 3 * o.w.toNat * o.h.toNat := (Nat.mul_assoc ..).symm

/-- The slot count depends on WIDTH and HEIGHT only. -/
theorem Operands.slots_congr {o o' : Operands} (hw : o'.w = o.w) (hh : o'.h = o.h) : o'.slots = o.slots := by
  rw [slots_eq, slots_eq, hw, hh]

/-- ENCODE writes the whole stream exactly when it is no longer than the slots. -/
theorem Operands.slotsWritten_eq_streamLen_iff (o : Operands) : o.slotsWritten = o.streamLen ↔ o.streamLen ≤ o.slots :=
  min_eq_left_iff

/-! ### The rules of CAPACITY -/

/-- Settles O54: the frame of every completion, and the exact RESULT. -/
theorem capacityReturnsTheSlotCount : Obligations.CapacityReturnsTheSlotCount := by
  intro s
  have h := ExecCase.counted (s := s)
  obtain ⟨hcompleted, hregisters, hsizes, hscript, hreads, hothers, _, _⟩ := h.frame
  have hresult := h.capacity_result_toNat
  exact ⟨_, rfl, hcompleted, rfl, hresult.trans s.op.slots_eq, hresult.trans_lt s.op.slots_lt, rfl, rfl, hregisters,
    hsizes, hscript, hreads, hothers⟩

/-- Settles O55: ENCODE's RESULT is `min(N, L)`, and CAPACITY's is `L`. -/
theorem capacityTellsWhetherAPayloadFits : Obligations.CapacityTellsWhetherAPayloadFits := by
  intro s t c c' hinv hrun hpass hexec hw hh hcapacity
  obtain ⟨_, hexec', hencodes⟩ := Encodes.of_checks hinv hrun hpass
  cases hexec.symm.trans hexec'
  rw [hencodes.result, (exec_cases hcapacity).capacity_result_toNat, Operands.slots_congr hw hh]
  exact s.op.slotsWritten_eq_streamLen_iff

end Sys2Proof.Machine
end

section
/-! The register block: what the host's reads return and what its writes change (spec/44_control.md R201, R202, R205 and
R206), and that no such access stops a running command (R207). -/

namespace Sys2Proof.Machine

/-! ### Register accesses as steps -/

theorem registerAccessWf_of_aligned {offset : Nat} (h : offset % 4 = 0) : registerAccessWf 32 offset = true := by
  simp [registerAccessWf, h]

theorem step_of_regWrite {s : State} {r : Reg} {v : Word} {rest : List Move}
    (hs : s.script = .regWrite 32 r.offset v :: rest) : step s = .next ((s.withScript rest).writeReg r v) :=
  (step_of_script hs).trans (runMove_regWrite _ r v)

theorem step_of_unmapped_regWrite {s : State} {offset : Nat} {v : Word} {rest : List Move} (hunmapped : 0x28 ≤ offset)
    (haligned : offset % 4 = 0) (hs : s.script = .regWrite 32 offset v :: rest) :
    step s = .next (s.withScript rest) := by
  have hignored : (s.withScript rest).writeOffset offset v = s.withScript rest := by
    rw [State.writeOffset, regAt_unmapped offset hunmapped]
  rw [step_of_script hs, runMove, hostRegWrite, if_pos (registerAccessWf_of_aligned haligned), hignored]

theorem regValue_withScript (s : State) (l : List Move) (r : Reg) : (s.withScript l).regValue r = s.regValue r := by
  cases r <;> rfl

theorem readOffset_withScript (s : State) (l : List Move) (offset : Nat) :
    (s.withScript l).readOffset offset = s.readOffset offset := by
  unfold State.readOffset
  split
  · exact regValue_withScript s l _
  · rfl

theorem step_of_regRead {s : State} {offset : Nat} {rest : List Move} (haligned : offset % 4 = 0)
    (hs : s.script = .regRead 32 offset :: rest) :
    step s = .next ((s.withScript rest).withHostData (s.readOffset offset)) := by
  rw [step_of_script hs, runMove, hostRegRead, if_pos (registerAccessWf_of_aligned haligned), readOffset_withScript]

/-! ### What a read returns -/

theorem readOffset_offset (s : State) (r : Reg) : s.readOffset r.offset = s.regValue r := by
  rw [State.readOffset, regAt_offset]

theorem readOffset_unmapped (s : State) {offset : Nat} (h : 0x28 ≤ offset) : s.readOffset offset = 0#32 := by
  rw [State.readOffset, regAt_unmapped offset h]

theorem ctrlWord_getLsbD (s : State) (k : Nat) :
    s.ctrlWord.getLsbD k =
      if k = 1 then s.ctrlOp.getLsbD 0 else if k = 2 then s.ctrlOp.getLsbD 1 else if k = 3 then s.irqEn else false := by
  rcases Nat.lt_or_ge k 4 with hk | hk
  · rw [State.ctrlWord, buildCtrl_getLsbD]
    interval_cases k <;> rfl
  · rw [ctrlWord_getLsbD_of_ge s hk, if_neg (by omega), if_neg (by omega), if_neg (by omega)]

theorem statusWord_getLsbD (s : State) (k : Nat) :
    s.statusWord.getLsbD k =
      if k = 0 then s.busy else if k = 1 then s.done else if 4 ≤ k ∧ k < 8 then s.err.getLsbD (k - 4) else false := by
  simp only [State.statusWord, BitVec.getLsbD_append, BitVec.getLsbD_ofBool, BitVec.getLsbD_zero]
  rcases Nat.lt_or_ge k 8 with hk | hk
  · interval_cases k <;> simp
  · simp [show ¬k < 8 by omega, show ¬k = 0 by omega, show ¬k = 1 by omega]

theorem resultLo_getLsbD (s : State) {k : Nat} (hk : k < 32) : s.resultLo.getLsbD k = s.result.getLsbD k := by
  simp [State.resultLo, hk]

theorem resultHi_getLsbD (s : State) {k : Nat} (hk : k < 32) : s.resultHi.getLsbD k = s.result.getLsbD (32 + k) := by
  simp [State.resultHi, hk]

/-- A running command shows BUSY alone: DONE and ERR are 0 (R24). -/
theorem Inv.statusWord_of_busy {s : State} (h : Inv s) (hb : s.busy = true) : s.statusWord = 0x00000001#32 := by
  rw [State.statusWord, hb, h.done_of_busy hb, h.err_of_busy hb]
  rfl

/-- Settles O10: a read hands the host the value of the register at its offset, and each value is read bit by bit. -/
theorem registerReadsReturnTheFields : Obligations.RegisterReadsReturnTheFields := by
  intro s offset rest hs haligned
  refine ⟨_, step_of_regRead haligned hs, rfl, ?ctrl, ?status, ?dim, ?srcBase, ?dstBase, ?payBase, ?payLen, ?outBase,
    ?resultLo, ?resultHi, fun hunmapped => readOffset_unmapped s hunmapped, ?busyStatus, ?busyResult⟩
  case ctrl =>
    rintro rfl k
    exact ctrlWord_getLsbD s k
  case status =>
    rintro rfl k
    exact statusWord_getLsbD s k
  case dim => exact fun h => h ▸ readOffset_offset s .dim
  case srcBase => exact fun h => h ▸ readOffset_offset s .srcBase
  case dstBase => exact fun h => h ▸ readOffset_offset s .dstBase
  case payBase => exact fun h => h ▸ readOffset_offset s .payBase
  case payLen => exact fun h => h ▸ readOffset_offset s .payLen
  case outBase => exact fun h => h ▸ readOffset_offset s .outBase
  case resultLo =>
    rintro rfl k hk
    exact resultLo_getLsbD s hk
  case resultHi =>
    rintro rfl k hk
    exact resultHi_getLsbD s hk
  case busyStatus =>
    rintro hinv hb rfl
    exact hinv.statusWord_of_busy hb
  case busyResult =>
    intro hinv hb hoffset
    have hresult := hinv.result_of_busy hb
    rcases hoffset with rfl | rfl
    · exact (congrArg (BitVec.extractLsb' 0 32) hresult).trans BitVec.extractLsb'_zero
    · exact (congrArg (BitVec.extractLsb' 32 32) hresult).trans BitVec.extractLsb'_zero

/-! ### Operand writes -/

/-- The operand registers (R25, R26): those that take a written value as they are. -/
abbrev operandRegs : List Reg := [.dim, .srcBase, .dstBase, .payBase, .payLen, .outBase]

theorem writeReg_of_operand {r : Reg} (hr : r ∈ operandRegs) (s : State) (v : Word) :
    s.writeReg r v = s.writeOperand r v := by
  simp only [List.mem_cons, List.not_mem_nil, or_false] at hr
  rcases hr with rfl | rfl | rfl | rfl | rfl | rfl <;> rfl

theorem regValue_writeOperand {r : Reg} (hr : r ∈ operandRegs) (s : State) (v : Word) (r' : Reg) :
    (s.writeOperand r v).regValue r' = if r' = r then v else s.regValue r' := by
  simp only [List.mem_cons, List.not_mem_nil, or_false] at hr
  rcases hr with rfl | rfl | rfl | rfl | rfl | rfl <;> cases r' <;> rfl

/-- Settles O9: an operand write is `writeOperand`, which reaches one register. -/
theorem operandWritesTakeTheValue : Obligations.OperandWritesTakeTheValue := by
  refine fun s v rest => ⟨fun r hr hs => ?operand, fun r hr hs => ?result,
    fun offset hunmapped haligned hs => step_of_unmapped_regWrite hunmapped haligned hs⟩
  case operand =>
    have hstep := step_of_regWrite hs
    have hvalue := regValue_writeOperand hr (s.withScript rest) v
    rw [writeReg_of_operand hr] at hstep
    refine ⟨_, hstep, (hvalue r).trans (if_pos rfl), fun r' hr' => ?_, ?frame⟩
    · rw [hvalue, if_neg hr', regValue_withScript]
    case frame => simp [SameLatches, SameSizes]
  case result =>
    simp only [List.mem_cons, List.not_mem_nil, or_false] at hr
    rcases hr with rfl | rfl <;> exact step_of_regWrite hs

/-! ### STATUS writes -/

theorem writeStatus_of_clear {s : State} {v : Word} (h : v.getLsbD 1 = true) : s.writeStatus v = s.clearDone := if_pos h

theorem writeStatus_of_keep {s : State} {v : Word} (h : v.getLsbD 1 = false) : s.writeStatus v = s :=
  if_neg (Bool.eq_false_iff.mp h)

/-- Settles O8 by the value of bit 1. -/
theorem statusWriteClearsDoneAndNothingElse : Obligations.StatusWriteClearsDoneAndNothingElse := by
  intro s v rest hs
  have hstep : step s = .next ((s.withScript rest).writeStatus v) := step_of_regWrite (r := .status) hs
  cases hv : v.getLsbD 1 with
  | true =>
    rw [writeStatus_of_clear hv] at hstep
    exact ⟨_, hstep, rfl, fun _ => ⟨rfl, rfl⟩, nofun⟩
  | false =>
    rw [writeStatus_of_keep hv] at hstep
    exact ⟨_, hstep, rfl, nofun, fun _ => rfl⟩

/-! ### CTRL writes -/

/-- The operands that a command word latches, its OP field with them (R27). -/
theorem latched_of_decode {w : Word} {i : Instr} (h : decode w = .ok i) (s : State) :
    s.latched i.opCode =
      ⟨w.extractLsb' 1 2, s.width, s.height, s.srcBase, s.dstBase, s.payBase, s.payLen, s.outBase⟩ := by
  obtain ⟨_, rfl⟩ := (decode_eq_ok_iff w i).mp h
  rw [opCode_instrOfOp]
  rfl

/-- Settles O7: the write is an accepted START, or it reaches OP and IRQ_EN only. -/
theorem ctrlWriteStartsACommandOnlyWhenIdle : Obligations.CtrlWriteStartsACommandOnlyWhenIdle := by
  intro s v rest hs
  have hstep : step s = .next ((s.withScript rest).writeCtrl v) := step_of_regWrite (r := .ctrl) hs
  rcases writeCtrl_cases (s.withScript rest) v with ⟨i, hcommand, hidle, hwrite⟩ | ⟨hnoStart, hwrite⟩
  · rw [hwrite] at hstep
    refine ⟨_, hstep, rfl, rfl, rfl, rfl, rfl, rfl, rfl, rfl, rfl, rfl, rfl, ⟨rfl, rfl⟩, ⟨rfl, rfl⟩, rfl,
      fun _ => ⟨rfl, rfl, rfl, rfl, rfl, rfl, latched_of_decode hcommand _⟩, fun hnoStart => ?_⟩
    obtain ⟨hstart, _⟩ := (decode_eq_ok_iff v i).mp hcommand
    rcases hnoStart with hv | hbusy
    · cases hstart.symm.trans hv
    · cases hidle.symm.trans hbusy
  · rw [hwrite] at hstep
    refine ⟨_, hstep, rfl, rfl, rfl, rfl, rfl, rfl, rfl, rfl, rfl, rfl, rfl, ⟨rfl, rfl⟩, ⟨rfl, rfl⟩, rfl,
      fun ⟨hstart, hidle⟩ => ?_, fun _ => ⟨⟨rfl, rfl, rfl, rfl⟩, ⟨rfl, rfl, rfl, rfl⟩⟩⟩
    rcases hnoStart with hv | hbusy
    · cases hstart.symm.trans hv
    · cases hidle.symm.trans hbusy

/-! ### Moves while a command runs -/

/-- STATUS, RESULT and the latches: what a running command keeps until it ends. -/
abbrev CommandKept (s t : State) : Prop := SameStatus s t ∧ SameLatches s t

theorem CommandKept.refl (s : State) : CommandKept s s := ⟨⟨rfl, rfl, rfl, rfl⟩, ⟨rfl, rfl, rfl, rfl⟩⟩

section Running

variable {s : State} (hb : s.busy = true) (hd : s.done = false)
include hb hd

/-- A START is ignored while BUSY = 1, and there is no DONE to clear (R202, R205). -/
theorem writeReg_of_running (r : Reg) (v : Word) : CommandKept s (s.writeReg r v) := by
  cases r with
  | ctrl =>
    rw [State.writeReg, writeCtrl_of_busy hb]
    exact CommandKept.refl s
  | status =>
    cases hv : v.getLsbD 1 with
    | true =>
      rw [State.writeReg, writeStatus_of_clear hv]
      exact ⟨⟨rfl, hd.symm, rfl, rfl⟩, ⟨rfl, rfl, rfl, rfl⟩⟩
    | false =>
      rw [State.writeReg, writeStatus_of_keep hv]
      exact CommandKept.refl s
  | _ => exact CommandKept.refl s

theorem writeOffset_of_running (offset : Nat) (v : Word) : CommandKept s (s.writeOffset offset v) := by
  unfold State.writeOffset
  split
  · next r _ => exact writeReg_of_running hb hd r v
  · exact CommandKept.refl s

theorem MoveCase.commandKept {m : Move} {t : State} (h : MoveCase s m t) (hcomplete : m ≠ .complete)
    (hreset : m ≠ .reset) (hselect : ∀ k, m ≠ .select k) : CommandKept s t := by
  cases h with
  | regWrite _ offset v _ => exact writeOffset_of_running hb hd offset v
  | complete _ _ _ => exact absurd rfl hcomplete
  | reset => exact absurd rfl hreset
  | select k _ _ => exact absurd rfl (hselect k)
  | _ => exact CommandKept.refl s

end Running

/-- Settles O13 by the ways in which a move goes on. -/
theorem nothingButResetStopsARunningCommand : Obligations.NothingButResetStopsARunningCommand := by
  refine ⟨fun s t m rest hinv hs hb hcomplete hreset hselect hstep => ?kept,
    fun s rest hs => ⟨_, step_of_script hs, rfl⟩⟩
  case kept =>
    rw [step_of_script hs] at hstep
    exact (runMove_cases hstep).commandKept (s := s.withScript rest) hb (hinv.done_of_busy hb) hcomplete hreset hselect

end Sys2Proof.Machine
end

section
/-! The completion step: what it always leaves (spec/60_exceptions.md R220 and R225), which command it runs and when that
is exec alone (spec/44_control.md R203, spec/60_exceptions.md R233), and the idle steps before it (R204). -/

namespace Sys2Proof.Machine

/-! ### What a completion leaves -/

/-- Settles O60 with the frame of every completion. -/
theorem completionEndsEveryCommand : Obligations.CompletionEndsEveryCommand := by
  refine ⟨fun i s => ?exec, fun i s => ?completeCommand⟩
  case exec =>
    obtain ⟨t, hexec, hcase⟩ := exec_answers i s
    obtain ⟨hcompleted, hregisters, hsizes, hscript, hreads, hothers, _, _⟩ := hcase.frame
    exact ⟨t, hexec, hcompleted, hcase.err_legal, hregisters, hsizes, hscript, hreads, hothers⟩
  case completeCommand =>
    obtain ⟨t, hcomplete, hcase⟩ := completeCommand_answers i s
    obtain ⟨hcompleted, hregisters, hsizes, hscript, hreads, hothers, _, _⟩ := hcase.frame
    have hown : t.others.map Instance.own = s.others.map Instance.own :=
      (congrArg (List.map Instance.own) hothers).trans (recordEnding_own s s.op s.footprint)
    exact ⟨t, hcomplete, hcompleted, hcase.err_legal, hregisters, hsizes, hscript, hreads, hown⟩

/-! ### When a completion is exec alone -/

/-- With no rival, and no other running command that can clash with it, a completion is exec. -/
theorem completeCommand_eq_exec {s : State} (i : Instr) (hr : s.rivals = [])
    (hclash : ∀ o ∈ runningOps s.others, o.clashes s.op = false) : completeCommand i s = exec i s := by
  obtain ⟨t, hexec, hcase⟩ := exec_answers i s
  obtain ⟨_, _, _, _, _, hothers, _, _⟩ := hcase.frame
  rw [completeCommand_alone hr hexec, recordEnding_of_not (hothers ▸ hclash), hexec]

theorem completeCommand_of_met_eq_nil {s : State} (i : Instr) (h : s.met = []) : completeCommand i s = exec i s := by
  have hpeers : s.peers = [] := List.map_eq_nil_iff.mp (List.append_eq_nil_iff.mp h).2
  have hrivals : s.rivals = [] := by rw [State.rivals, h, List.filter_nil]
  refine completeCommand_eq_exec i hrivals ?_
  rw [(peers_eq_nil_iff s).mp hpeers]
  exact List.forall_mem_nil _

/-- A command whose regions meet none of those of the other running commands has no rival but those on record. -/
theorem rivals_eq_nil_of_not_clashes {s : State} (hinv : Inv s) (hb : s.busy = true) (hended : s.ended = [])
    (hclash : ∀ o ∈ runningOps s.others, o.clashes s.op = false) : s.rivals = [] := by
  refine List.filter_eq_nil_iff.mpr fun f hf hrival => ?_
  rw [State.met, hended, List.nil_append] at hf
  obtain ⟨p, hp, rfl⟩ := List.mem_map.mp hf
  obtain ⟨k, x, hx, hbusy, rfl⟩ := mem_peers.mp hp
  have hmem := List.mem_of_getElem? hx
  have hops := opsClash_of_footprints ((hinv.others_laws hmem).busy_internal hbusy) (hinv.running hb).2 hrival
  have hapart := hclash x.op (mem_runningOps.mpr ⟨x, hmem, hbusy, rfl⟩)
  exact Bool.false_ne_true (hapart.symm.trans hops)

/-! ### A command word and the completion after it -/

theorem withFetchWord_of_command {w : Word} {i : Instr} (h : decode w = .ok i) (s : State) :
    s.withFetchWord 32 w.toNat = ((s.setCtrl w).start i).withScript (.complete :: s.script) := by
  have hword : BitVec.ofNat 32 (w.toNat % 2 ^ 32) = w := by
    rw [Nat.mod_eq_of_lt w.isLt, BitVec.ofNat_toNat, BitVec.setWidth_eq]
  rw [State.withFetchWord, hword, State.launch, h]

/-- The completion step that comes next after an accepted START of `i`. -/
theorem step_of_started {s t : State} {i : Instr} {rest : List Move}
    (ht : t = (s.start i).withScript (.complete :: rest)) : step t = completeCommand i (t.withScript rest) := by
  subst ht
  have hop : instrOfOp ((s.start i).withScript (.complete :: rest)).op.op = i := instrOfOp_opCode i
  have hstep := step_of_complete (s := (s.start i).withScript (.complete :: rest)) rfl rfl
  rwa [hop] at hstep

/-- Settles O5: a completion step is `completeCommand` of the latched command. -/
theorem stepRunsTheDecodedCommand : Obligations.StepRunsTheDecodedCommand := by
  refine ⟨fun s rest => step_of_complete, fun s => step_of_nil_busy, fun i s hr => ?noRival,
    fun i s => completeCommand_of_met_eq_nil i, fun s w i hd => ?placed⟩
  case noRival =>
    obtain ⟨t, hexec, _⟩ := exec_answers i s
    exact ⟨t, hexec, completeCommand_alone hr hexec⟩
  case placed =>
    have hstep := step_of_started (withFetchWord_of_command hd s)
    refine ⟨?_, hstep, fun hothers => hstep.trans ?_⟩
    · rw [withFetchWord_of_command hd]
      exact ⟨rfl, rfl⟩
    · rw [withFetchWord_of_command hd]
      exact completeCommand_of_met_eq_nil i (met_eq_nil rfl hothers)

/-- Settles O6: the START leaves `State.start`, with nothing on record. -/
theorem startThenCompletionRunsTheCommand : Obligations.StartThenCompletionRunsTheCommand := by
  intro s w i rest hs hb hd
  have hcomplete := step_of_started (s := (s.withScript (.complete :: rest)).setCtrl w) (i := i) (rest := rest) rfl
  refine ⟨_, step_of_start hs hd hb, ⟨rfl, rfl⟩, rfl, instrOfOp_opCode i, rfl, rfl, rfl, rfl, rfl, rfl, rfl, hcomplete,
    fun hinv hclash => hcomplete.trans ?exec⟩
  case exec =>
    have hstarted := (((hinv.withScript (.complete :: rest)).setCtrl w).start i).withScript rest
    exact completeCommand_eq_exec i (rivals_eq_nil_of_not_clashes hstarted rfl rfl hclash) hclash

/-! ### Idle steps -/

/-- Each idle step only takes itself off the schedule. -/
theorem run_idle_steps {s : State} (hb : s.busy = true) (k n : Nat) (moves : List Move) :
    Host.Core.run core (k + n) (s.withScript (List.replicate k .idle ++ moves)) =
      Host.Core.run core n (s.withScript moves) := by
  induction k with
  | zero => rw [Nat.zero_add, List.replicate_zero, List.nil_append]
  | succ k ih =>
    have hidle : step (s.withScript (List.replicate (k + 1) .idle ++ moves)) =
        .next (s.withScript (List.replicate k .idle ++ moves)) := step_of_idle rfl hb
    rw [Nat.add_right_comm, run_succ_of_next hidle, ih]

/-- Settles O15: the idle steps drop out, and a run of one completion is its step. -/
theorem idleStepsMakeNoDifference : Obligations.IdleStepsMakeNoDifference := by
  intro s k rest hb
  obtain ⟨t, hcomplete, _⟩ := completeCommand_answers (instrOfOp s.op.op) (s.withScript rest)
  have hstep : step (s.withScript (.complete :: rest)) = .next t :=
    (step_of_complete (s := s.withScript (.complete :: rest)) rfl hb).trans hcomplete
  rw [run_idle_steps hb, hstep]
  exact run_succ_of_next hstep 0

end Sys2Proof.Machine
end

section
/-! An idle platform and a change of the addressed core (spec/60_exceptions.md R233 and R235), and what each step leaves of
the cores that it does not address (R233). -/

namespace Sys2Proof.Machine

/-- Settles O14: with no core running there is none to complete or to address. -/
theorem idleCoreKeepsItsState : Obligations.IdleCoreKeepsItsState := by
  intro s hs hrunning
  obtain ⟨hidle, hothers⟩ := (running_eq_nil_iff s).mp hrunning
  rw [step_of_nil_idle hs hidle, List.findIdx?_eq_none_iff.mpr hothers]

/-- Settles O30: the addressed core and number `k` of the others change places. -/
theorem addressingAnInstanceChangesNothing : Obligations.AddressingAnInstanceChangesNothing := by
  intro s k rest hs
  refine ⟨fun x hx => ?held, fun hk => ?missing⟩
  case held =>
    exact ⟨_, (step_of_script hs).trans (selectInstance_of_some (s := s.withScript rest) hx), rfl, rfl,
      cons_set_perm s.others k s.selected x hx, rfl, rfl, ⟨rfl, rfl⟩, rfl, ⟨rfl, rfl⟩⟩
  case missing =>
    exact (step_of_script hs).trans
      (selectInstance_of_none (s := s.withScript rest) (List.getElem?_eq_none hk))

/-! ### What a step leaves of the others -/

theorem writeCtrl_others (s : State) (v : Word) : (s.writeCtrl v).others = s.others := by
  rcases writeCtrl_cases s v with ⟨i, _, _, h⟩ | ⟨_, h⟩ <;> rw [h] <;> rfl

theorem writeReg_others (s : State) (r : Reg) (v : Word) : (s.writeReg r v).others = s.others := by
  cases r with
  | ctrl => exact writeCtrl_others s v
  | status => exact writeStatus_others s v
  | _ => rfl

theorem writeOffset_others (s : State) (offset : Nat) (v : Word) : (s.writeOffset offset v).others = s.others := by
  unfold State.writeOffset
  split
  · next r _ => exact writeReg_others s r v
  · rfl

/-- A completion and a reset add to the record of another core at most; every other move leaves the list as it is. -/
theorem MoveCase.others_own {s t : State} {m : Move} (h : MoveCase s m t) (hselect : ∀ k, m ≠ .select k) :
    t.others.map Instance.own = s.others.map Instance.own := by
  cases h with
  | regWrite _ offset v _ => rw [writeOffset_others]
  | complete _ _ hc =>
    obtain ⟨_, _, _, _, _, hothers, _, _⟩ := hc.frame
    exact (congrArg (List.map Instance.own) hothers).trans (recordEnding_own s s.op s.footprint)
  | reset =>
    split
    · exact recordEnding_own s.abandon s.op s.abandonedFootprint
    · rfl
  | select k _ _ => exact absurd rfl (hselect k)
  | _ => rfl

/-- A core that is not addressed while a command with operands `o` ends: its own state stays, and `f` is on its record if
the two can clash. -/
theorem getElem?_map_meet {l l' : List Instance} {o : Operands} {f : Footprint}
    (h : l' = l.map fun x => x.meet o f) {k : Nat} {x : Instance} (hx : l[k]? = some x) :
    ∃ y, l'[k]? = some y ∧ y.own = x.own ∧
      y.ended = if x.busy = true ∧ x.op.clashes o = true then f :: x.ended else x.ended :=
  ⟨x.meet o f, by rw [h, List.getElem?_map, hx, Option.map_some], meet_own x o f, meet_ended x o f⟩

/-- Settles O31: by the ways in which a move goes on, and by what an ending command puts on the records. -/
theorem instancesShareOnlyTheMemories : Obligations.InstancesShareOnlyTheMemories := by
  refine ⟨fun s t m rest hs hselect hstep => ?moves, fun i s => ?completion, fun s rest hs hb => ?reset,
    fun s v rest hs hv hb => ?start⟩
  case moves =>
    rw [step_of_script hs] at hstep
    exact (runMove_cases hstep).others_own hselect
  case completion =>
    obtain ⟨t, hcomplete, hcase⟩ := completeCommand_answers i s
    obtain ⟨_, _, _, _, _, hothers, _, _⟩ := hcase.frame
    exact ⟨t, hcomplete, fun k x => getElem?_map_meet hothers⟩
  case reset =>
    refine ⟨_, step_of_script hs, fun k x => getElem?_map_meet ?_⟩
    rw [withScript_busy, if_pos hb]
    rfl
  case start =>
    have hcommand : decode v = .ok (instrOfOp (v.extractLsb' 1 2)) := (decode_eq_ok_iff v _).mpr ⟨hv, rfl⟩
    exact ⟨_, step_of_start hs hcommand hb, rfl, rfl, le_rfl⟩

end Sys2Proof.Machine
end

section
/-! Clashes of commands of several cores (spec/60_exceptions.md R233, spec/70_reset_and_hazards.md R264,
spec/93_implementation_defined.md I-7): when two commands clash, what a clash does, and that there is nothing else between
two cores that run. -/

namespace Sys2Proof.Machine

/-- Settles O33: each clash predicate is its two halves, who writes into what the other touches. -/
theorem clashesAreTheSharedLocations : Obligations.ClashesAreTheSharedLocations := by
  refine ⟨fun f g => ?footprints, fun o r => ?operands⟩
  case footprints =>
    rw [Footprint.clashes, Bool.or_eq_true, Footprint.writesInto_iff, Footprint.writesInto_iff, or_or_or_comm,
      ← exists_or, ← exists_or]
  case operands =>
    rw [Operands.clashes, Bool.or_eq_true, writesInto_iff, writesInto_iff, or_or_or_comm, ← exists_or, ← exists_or]

/-! ### What is written exists -/

theorem lt_of_fits {size base len a : Nat} (h : fits size base len = true) (ha : a < base + len) (hb : base ≤ a) :
    a < size := by
  rcases (fits_iff size base len).mp h with hlen | hle <;> omega

theorem pixWrites_lt {s : State} {i : Nat} (h : s.pixWrites.holds i = true) : i < 2 ^ s.pixAw := by
  obtain ⟨_, hchecks, hle, hlt⟩ := (pixWrites_holds s i).mp h
  obtain ⟨_, _, hfits, _⟩ := (encodeError_eq_none_iff s).mp hchecks
  exact lt_of_fits hfits hlt hle

theorem byteWrites_lt {s : State} {a : Nat} (h : s.byteWrites.holds a = true) : a < 2 ^ s.byteAw := by
  obtain ⟨_, hchecks, hle, hlt⟩ := (byteWrites_holds s a).mp h
  obtain ⟨_, _, hfits⟩ := (decodeError_eq_none_iff s.seenPix).mp hchecks
  exact lt_of_fits hfits hlt hle

/-! ### What settling leaves where the command writes -/

/-- A word that the command writes is none of its source, so it is a draw or what the command put there. -/
theorem settle_pix_written {s t : State} (hwf : Memory.wf t.pix) {i : Nat}
    (hw : s.footprint.pixWritten.holds i = true) :
    memRead (s.settle t).pix i =
      if ∃ f ∈ s.met, f.pixRead.holds i = true ∨ f.pixWritten.holds i = true
      then Config.freeWord (t.draws + (i - s.op.dst.toNat)) else memRead t.pix i := by
  rw [settle_pix s t hwf]
  refine if_congr ?_ rfl (if_neg fun ⟨hsource, _⟩ => Bool.eq_false_iff.mp (pixWrites_holds_of_inSource hsource) hw)
  simp only [hw, pixWrites_lt hw, true_and]

/-- A byte that the command writes is none of its payload, so it is a draw or what the command put there. -/
theorem settle_bytes_written {s t : State} (hi : s.internal = Internal.initial) (hwf : Memory.wf t.bytes) {a : Nat}
    (hw : s.footprint.byteWritten.holds a = true) :
    memRead (s.settle t).bytes a =
      if ∃ f ∈ s.met, f.byteRead.holds a = true ∨ f.byteWritten.holds a = true
      then Config.freeByte (t.draws + (a - s.op.out.toNat)) else memRead t.bytes a := by
  rw [settle_bytes s t hi hwf]
  refine if_congr ?_ rfl (if_neg fun ⟨hpayload, _⟩ => Bool.eq_false_iff.mp (byteWrites_holds_of_inPayload hpayload) hw)
  simp only [hw, byteWrites_lt hw, true_and]

/-- Settles O34: the completion is exec on what the command sees, settled; where the command writes, settling says what is
left, and elsewhere a completion keeps the memories. -/
theorem clashingLocationsHoldDraws : Obligations.ClashingLocationsHoldDraws := by
  intro s hinv hb hr
  have hinternal := (hinv.running hb).2
  obtain ⟨u, hexec, hcase⟩ := exec_answers (instrOfOp s.op.op) s.seen
  have hcomplete := completeCommand_clashing hr hexec
  have hends := completeCommand_cases hcomplete
  have hu : Inv u := hcase.inv hinv.seen hb
  refine ⟨seen_pix s hinv.pix_wf, seen_bytes s hinv.bytes_wf, u, _, hexec, hcomplete, hends.frame.1, rfl, rfl,
    fun i => ?pix, fun a => ?bytes⟩
  case pix =>
    by_cases hw : s.footprint.pixWritten.holds i = true
    · rw [if_pos hw, recordEnding_pix, settle_pix_written hu.pix_wf hw]
    · rw [if_neg hw, hends.pix_kept hinv hb (Bool.eq_false_iff.mpr hw)]
  case bytes =>
    by_cases hw : s.footprint.byteWritten.holds a = true
    · rw [if_pos hw, recordEnding_bytes, settle_bytes_written hinternal hu.bytes_wf hw]
    · rw [if_neg hw, hends.bytes_kept hinv hb (Bool.eq_false_iff.mpr hw)]

/-! ### Commands that do not clash -/

/-- A command writes no location that one it does not clash with touches. -/
theorem written_of_not_clashes {f g : Footprint} (h : f.clashes g = false) :
    (∀ i, g.pixRead.holds i = true ∨ g.pixWritten.holds i = true → f.pixWritten.holds i = false) ∧
      ∀ a, g.byteRead.holds a = true ∨ g.byteWritten.holds a = true → f.byteWritten.holds a = false := by
  have hno : ¬f.writesInto g = true := Bool.eq_false_iff.mp (Bool.or_eq_false_iff.mp h).1
  rw [Footprint.writesInto_iff] at hno
  exact ⟨fun i hi => Bool.eq_false_iff.mpr fun hw => hno (.inl ⟨i, hw, hi⟩),
    fun a ha => Bool.eq_false_iff.mpr fun hw => hno (.inr ⟨a, hw, ha⟩)⟩

/-- The regions in which a command could write lie apart from those of one that it cannot clash with. -/
theorem writable_of_not_clashes {o r : Operands} (h : o.clashes r = false) :
    (∀ i, r.inSource i = true ∨ r.inDestination i = true → o.inDestination i = false) ∧
      ∀ a, r.inPayload a = true ∨ r.inOutput a = true → o.inOutput a = false := by
  have hno : ¬o.writesInto r = true := Bool.eq_false_iff.mp (Bool.or_eq_false_iff.mp h).1
  rw [writesInto_iff] at hno
  exact ⟨fun i hi => Bool.eq_false_iff.mpr fun hw => hno (.inl ⟨i, hw, hi⟩),
    fun a ha => Bool.eq_false_iff.mpr fun hw => hno (.inr ⟨a, hw, ha⟩)⟩

/-- Settles O35: a completion writes in its own footprint only, so in its own regions, and changes only the record of a
core whose regions clash with them. -/
theorem clashFreeInstancesAreIndependent : Obligations.ClashFreeInstancesAreIndependent := by
  intro s t k x hinv hb hx hxb hcomplete
  have hends := completeCommand_cases hcomplete
  obtain ⟨_, _, _, _, _, hothers, _, _⟩ := hends.frame
  refine ⟨fun hclash => ?footprints, fun hclash => ?regions⟩
  case footprints =>
    obtain ⟨y, hy, hown, _⟩ := getElem?_map_meet hothers hx
    obtain ⟨hpix, hbytes⟩ := written_of_not_clashes hclash
    exact ⟨⟨y, hy, hown⟩, fun i hi => hends.pix_kept hinv hb (hpix i hi),
      fun a ha => hends.bytes_kept hinv hb (hbytes a ha)⟩
  case regions =>
    have hmeet : x.meet s.op s.footprint = x := meet_of_not (fun _ => (clashes_comm x.op s.op).trans hclash) _
    obtain ⟨hdestination, houtput⟩ := writable_of_not_clashes hclash
    obtain ⟨hpix, hbytes, _, _⟩ := commandsWriteOnlyTheirOwnRegions s t hinv hb hcomplete
    exact ⟨by rw [hothers, List.getElem?_map, hx, Option.map_some, hmeet], fun i hi => hpix i (hdestination i hi),
      fun a ha => hbytes a (houtput a ha)⟩

end Sys2Proof.Machine
end

section
/-! The errors that the commands report (spec/60_exceptions.md R221), and that a command which reports one has written
nothing (R222). -/

namespace Sys2Proof.Machine

/-! ### The order of the checks -/

theorem payloadLen_eq_zero_iff (o : Operands) : o.payloadLen = 0 ↔ o.len = 0#32 := by
  rw [Operands.payloadLen, ← BitVec.toNat_inj, BitVec.toNat_ofNat, Nat.zero_mod]

/-- The code of ENCODE's first failing check. -/
theorem errorCode_encodeError (s : State) :
    errorCode s.encodeError =
      if s.op.len = 0#32 then 1#4
      else if s.fitsPix s.op.src.toNat s.op.pixels = false ∨ s.fitsPix s.op.dst.toNat s.op.pixels = false ∨
        s.fitsByte s.op.pay.toNat s.op.payloadLen = false then 4#4
      else if overlapPix s.op.src.toNat s.op.dst.toNat s.op.pixels = true then 5#4
      else 0#4 := by
  simp only [State.encodeError, apply_ite errorCode, payloadLen_eq_zero_iff, Bool.or_eq_true, Bool.not_eq_true',
    or_assoc]
  rfl

theorem decodeError_of_unfit_source {s : State} (h : s.fitsPix s.op.src.toNat s.op.pixels = false) :
    s.decodeError = .addressRange := by
  simp [State.decodeError, h]

/-- Settles O58: each command reports the code of its first failing check. -/
theorem errorsFollowTheOrderOfTheChecks : Obligations.ErrorsFollowTheOrderOfTheChecks := by
  refine ⟨fun s => ⟨_, rfl, rfl⟩, fun s => ⟨_, rfl, rfl⟩, fun s => ?encode, fun s ⟨_, hinternal⟩ => ?decode⟩
  case encode =>
    obtain ⟨t, hexec, hcase⟩ := exec_answers .encode s
    exact ⟨t, hexec, hcase.encode_err.trans (errorCode_encodeError s)⟩
  case decode =>
    obtain ⟨t, hexec, hcase⟩ := exec_answers .decode s
    refine ⟨t, hexec, fun hunfit => ?unfit, fun hfits => ⟨fun hno => ?noStop, fun k hk => ?stop⟩⟩
    case unfit => rw [hcase.decode_err, decodeError_of_unfit_source hunfit]; rfl
    case noStop => rw [hcase.decode_err, decodeError_of_no_stop hinternal hfits hno]; rfl
    case stop =>
      rw [hcase.decode_err, decodeError_of_stop hinternal hfits hk]
      cases s.fitsByte s.op.out.toNat (k / 8) <;> rfl

/-! ### A command that reports an error -/

/-- Taking an error writes nothing, and success reports no error. -/
theorem ExecCase.failed {i : Instr} {s t : State} (h : ExecCase s i t) (herr : t.err ≠ 0#4) :
    t.pix = s.pix ∧ t.bytes = s.bytes ∧ t.result = 0#64 := by
  cases h with
  | encoded _ | decoded _ | counted => exact absurd rfl herr
  | encodeFailed _ | decodeFailed _ | illegal => exact ⟨rfl, rfl, rfl⟩

/-- The footprint of a running command that ends with an error has nothing written, so its completion keeps both
memories, in a clash too. -/
theorem CompleteCase.sameMemories_of_err {s t : State} (h : CompleteCase s (instrOfOp s.op.op) t) (hinv : Inv s)
    (hb : s.busy = true) (herr : t.err ≠ 0#4) : SameMemories s t := by
  refine ⟨fun i => h.pix_kept hinv hb (Bool.eq_false_iff.mpr fun hw => ?_),
    fun a => h.bytes_kept hinv hb (Bool.eq_false_iff.mpr fun hw => ?_)⟩
  · obtain ⟨_, hsuccess, _⟩ := (h.pixWritten_iff i).mp hw
    exact herr hsuccess
  · obtain ⟨_, hsuccess, _⟩ := (h.byteWritten_iff hinv.pix_wf (hinv.running hb).2 a).mp hw
    exact herr hsuccess

/-- Settles O59; RESULT is the law of ERR and RESULT in the invariant that a completion keeps. -/
theorem erroringCommandsWriteNothing : Obligations.ErroringCommandsWriteNothing := by
  refine ⟨fun i s t hexec => (exec_cases hexec).failed, fun s t hinv hb hcomplete herr => ?_⟩
  have hends := completeCommand_cases hcomplete
  exact ⟨hends.sameMemories_of_err hinv hb herr, (hends.inv hinv hb).addressed.err_result herr⟩

end Sys2Proof.Machine
end

section
/-! Register accesses that the model refuses, and the commands that complete on whichever core runs them
(spec/70_reset_and_hazards.md R265 and R267). -/

namespace Sys2Proof.Machine

/-! ### Refused register accesses -/

theorem registerAccessWf_eq_false {bits offset : Nat} (h : ¬(bits = 32 ∧ offset % 4 = 0)) :
    registerAccessWf bits offset = false := by
  simpa [registerAccessWf] using h

theorem runMove_regRead_refused {bits offset : Nat} (h : registerAccessWf bits offset = false) (s : State) :
    runMove (.regRead bits offset) s = .refused (.badRegisterAccess bits offset) :=
  if_neg (Bool.eq_false_iff.mp h)

theorem runMove_regWrite_refused {bits offset : Nat} (h : registerAccessWf bits offset = false) (v : Word) (s : State) :
    runMove (.regWrite bits offset v) s = .refused (.badRegisterAccess bits offset) :=
  if_neg (Bool.eq_false_iff.mp h)

/-- Settles O11: the step is refused, and a run ends there. -/
theorem badRegisterAccessesAreRefused : Obligations.BadRegisterAccessesAreRefused := by
  intro s bits offset v rest hbad hs
  have hwf := registerAccessWf_eq_false hbad
  refine run_succ_of_refused ?_
  rcases hs with hread | hwrite
  · exact (step_of_script hread).trans (runMove_regRead_refused hwf _)
  · exact (step_of_script hwrite).trans (runMove_regWrite_refused hwf v _)

/-! ### Completions -/

/-- With nothing scheduled a running command completes (R267). -/
theorem step_completes_of_nil {s : State} (hs : s.script = []) (hb : s.busy = true) :
    ∃ t, step s = .next t ∧ CompleteCase s (instrOfOp s.op.op) t := by
  rw [step_of_nil_busy hs hb]
  exact completeCommand_answers _ s

theorem step_completes {s : State} {rest : List Move} (hs : s.script = .complete :: rest) (hb : s.busy = true) :
    ∃ t, step s = .next t ∧ CompleteCase (s.withScript rest) (instrOfOp s.op.op) t := by
  rw [step_of_complete hs hb]
  exact completeCommand_answers _ _

theorem step_of_select {s : State} {k : Nat} {rest : List Move} {x : Instance} (hs : s.script = .select k :: rest)
    (hx : s.others[k]? = some x) :
    step s = .next ((s.withScript rest).withInstances x (s.others.set k s.selected)) :=
  (step_of_script hs).trans (selectInstance_of_some (s := s.withScript rest) hx)

/-- The core that the fair completion picks among the others runs a command. -/
theorem exists_busy_of_findIdx? {l : List Instance} {k : Nat} (h : l.findIdx? (·.busy) = some k) :
    ∃ x, l[k]? = some x ∧ x.busy = true := by
  obtain ⟨hk, hbusy, _⟩ := List.findIdx?_eq_some_iff_getElem.mp h
  exact ⟨l[k], List.getElem?_eq_getElem hk, hbusy⟩

/-- The turn of the loop that finds DONE = 0 keeps every core as it is. -/
theorem step_of_poll {s : State} {gaps : List Nat} {rest : List Move} (hs : s.script = .waitDone gaps :: rest)
    (hd : s.done = false) :
    ∃ t, step s = .next t ∧ t.script = (s.withScript rest).waitSchedule gaps ∧ t.selected = s.selected ∧
      t.others = s.others :=
  ⟨_, (step_of_script hs).trans (congrArg Host.Outcome.next (if_neg (by simp [hd]))), rfl, rfl, rfl⟩

/-- With no gap left and the addressed core idle, the first other core that runs completes before the next turn, and
the first core is addressed again (R267). -/
theorem waitSchedule_nil_of_idle {s : State} {k : Nat} (hb : s.busy = false)
    (hk : s.others.findIdx? (·.busy) = some k) :
    s.waitSchedule [] = .select k :: .complete :: .select k :: .waitDone [] :: s.script := by
  simp [State.waitSchedule, State.fairCompletion, hb, hk]

/-- A completion leaves an idle core among the others as it is: only a running one keeps a record of it. -/
theorem CompleteCase.idle_other {s t : State} {i : Instr} (h : CompleteCase s i t) {k : Nat} {x : Instance}
    (hx : s.others[k]? = some x) (hidle : x.busy = false) : t.others[k]? = some x := by
  obtain ⟨_, _, _, _, _, hothers, _⟩ := h.frame
  have hmeet : x.meet s.op s.footprint = x := meet_of_not (by simp [hidle]) _
  rw [hothers, List.getElem?_map, hx, Option.map_some, hmeet]

/-- The three moves of the fair completion of another core: that core completes, and the one that was addressed is
addressed again and as before. -/
theorem run_fairCompletion_of_other {s : State} {k : Nat} {x : Instance} {rest : List Move}
    (hs : s.script = .select k :: .complete :: .select k :: rest) (hx : s.others[k]? = some x) (hbusy : x.busy = true)
    (hidle : s.busy = false) :
    ∃ t, Host.Core.run core 3 s = .next t ∧ t.script = rest ∧ t.selected = s.selected ∧
      ∃ y, t.others[k]? = some y ∧ y.busy = false ∧ y.done = true := by
  have hlt := (List.getElem?_eq_some_iff.mp hx).1
  have haddress := step_of_select hs hx
  obtain ⟨u, hcomplete, hcase⟩ := step_completes (s := (s.withScript (.complete :: .select k :: rest)).withInstances x
    (s.others.set k s.selected)) rfl hbusy
  obtain ⟨⟨hended, hdone⟩, _, _, hscript, _⟩ := hcase.frame
  have hfirst : u.others[k]? = some s.selected := hcase.idle_other (List.getElem?_set_self hlt) hidle
  have hagain := step_of_select hscript hfirst
  have hlast : (u.others.set k u.selected)[k]? = some u.selected :=
    List.getElem?_set_self (List.getElem?_eq_some_iff.mp hfirst).1
  have hrun := (run_succ_of_next haddress 2).trans ((run_succ_of_next hcomplete 1).trans (run_succ_of_next hagain 0))
  exact ⟨_, hrun, rfl, rfl, u.selected, hlast, hended, hdone⟩

/-- Settles O16: the idle steps drop out before the completion; another core that runs is addressed before it
completes; and the loop's turn schedules that core's completion. -/
theorem everyRunningCommandCompletes : Obligations.EveryRunningCommandCompletes := by
  refine ⟨fun s k hb hs => ?addressed, fun s k hs hidle hk => ?other, fun s k rest hs hidle hdone hk => ?loop⟩
  case addressed =>
    obtain ⟨t, hcomplete, hcase⟩ := step_completes_of_nil (s := s.withScript []) rfl hb
    have hrun := run_idle_steps hb k 1 []
    rw [List.append_nil, ← hs] at hrun
    exact ⟨t, hrun.trans (run_succ_of_next hcomplete 0), hcase.frame.1⟩
  case other =>
    obtain ⟨x, hx, hbusy⟩ := exists_busy_of_findIdx? hk
    have haddress : step s = .next (s.withInstances x (s.others.set k s.selected)) := by
      rw [step_of_nil_idle hs hidle, hk]
      exact selectInstance_of_some hx
    obtain ⟨t, hcomplete, hcase⟩ := step_completes_of_nil (s := s.withInstances x (s.others.set k s.selected)) hs hbusy
    obtain ⟨hcompleted, _, _, _, _, hothers, _⟩ := hcase.frame
    exact ⟨t, (run_succ_of_next haddress 1).trans (run_succ_of_next hcomplete 0), hcompleted,
      (congrArg (List.map Instance.own) hothers).trans (recordEnding_own (s.withInstances x _) _ _)⟩
  case loop =>
    obtain ⟨x, hx, hbusy⟩ := exists_busy_of_findIdx? hk
    obtain ⟨p, hpoll, hscript, hselected, hothers⟩ := step_of_poll hs hdone
    have hschedule := hscript.trans (waitSchedule_nil_of_idle (s := s.withScript rest) hidle hk)
    have hpidle : p.busy = false := (congrArg Instance.busy hselected).trans hidle
    obtain ⟨t, hrun, hrest, hfirst, hlast⟩ := run_fairCompletion_of_other hschedule (hothers ▸ hx) hbusy hpidle
    exact ⟨t, (run_succ_of_next hpoll 3).trans hrun, hrest, hfirst.trans hselected, hlast⟩

end Sys2Proof.Machine
end

section
/-! The reset step: the registers it zeroes, the memories it keeps and what it leaves of a command that it interrupts,
and the first START after it (spec/70_reset_and_hazards.md R260 to R262). -/

namespace Sys2Proof.Machine

/-! ### The reset step -/

/-- A reset of an idle core touches registers and latches only. -/
theorem step_reset_of_idle {s : State} {rest : List Move} (hs : s.script = .reset :: rest) (hb : s.busy = false) :
    step s = .next (s.withScript rest).resetRegisters.releaseLatches := by
  have hidle : (s.withScript rest).busy = false := hb
  rw [step_of_script hs, runMove, platformReset, hidle]
  rfl

/-- A reset of a busy core abandons its command first. -/
theorem step_reset_of_busy {s : State} {rest : List Move} (hs : s.script = .reset :: rest) (hb : s.busy = true) :
    step s = .next (((s.withScript rest).abandon.recordEnding s.op
      (s.withScript rest).abandonedFootprint).resetRegisters.releaseLatches) := by
  have hbusy : (s.withScript rest).busy = true := hb
  rw [step_of_script hs, runMove, platformReset, if_pos hbusy]
  rfl

/-- After a reset every register reads as in the reset state. -/
theorem regValue_resetRegisters_releaseLatches (s : State) (r : Reg) :
    s.resetRegisters.releaseLatches.regValue r = 0#32 :=
  (show _ = State.reset.regValue r by cases r <;> rfl).trans (resetStateReadsZero.1 r)

/-! ### What an abandoned command leaves in the memories -/

theorem destinationLen_of_not_encode {o : Operands} (h : instrOfOp o.op ≠ .encode) : o.destinationLen = 0 := by
  unfold Operands.destinationLen
  cases hi : instrOfOp o.op with
  | encode => exact absurd hi h
  | _ => rfl

theorem outputLen_of_not_decode {o : Operands} (h : instrOfOp o.op ≠ .decode) : o.outputLen = 0 := by
  unfold Operands.outputLen
  cases hi : instrOfOp o.op with
  | decode => exact absurd hi h
  | _ => rfl

theorem abandon_pix_of_not_encode {s : State} (h : instrOfOp s.op.op ≠ .encode) : s.abandon.pix = s.pix := by
  rw [State.abandon, destinationLen_of_not_encode h]
  rfl

theorem abandon_bytes_of_not_decode {s : State} (h : instrOfOp s.op.op ≠ .decode) : s.abandon.bytes = s.bytes := by
  rw [State.abandon, outputLen_of_not_decode h]
  rfl

/-- Each existing word of the destination holds a draw of its own (R261). -/
theorem memRead_abandon_pix {s : State} (h : Memory.wf s.pix) (i : Nat) :
    memRead s.abandon.pix i = if s.op.inDestination i = true ∧ i < 2 ^ s.pixAw
      then Config.freeWord (s.draws + (i - s.op.dst.toNat)) else memRead s.pix i := by
  rw [State.abandon, memRead_drawRange _ _ _ _ h, Operands.inDestination]
  simp only [inRegion_iff, and_true, and_assoc]

/-- Each existing byte of the output region holds a draw of its own (R261). -/
theorem memRead_abandon_bytes {s : State} (h : Memory.wf s.bytes) (a : Nat) :
    memRead s.abandon.bytes a = if s.op.inOutput a = true ∧ a < 2 ^ s.byteAw
      then Config.freeByte (s.draws + (a - s.op.out.toNat)) else memRead s.bytes a := by
  rw [State.abandon, memRead_drawRange _ _ _ _ h, Operands.inOutput]
  simp only [inRegion_iff, and_true, and_assoc]

/-! ### The rules of reset -/

/-- Settles O20: the registers whether or not a command runs, and the memories by what it could have written. -/
theorem resetZeroesTheRegistersAndKeepsTheMemories : Obligations.ResetZeroesTheRegistersAndKeepsTheMemories := by
  intro s rest hs
  cases hb : s.busy with
  | false =>
    exact ⟨_, step_reset_of_idle hs hb, regValue_resetRegisters_releaseLatches _, rfl, ⟨rfl, rfl⟩, rfl, ⟨rfl, rfl⟩,
      rfl, fun _ => rfl, fun _ => rfl⟩
  | true =>
    exact ⟨_, step_reset_of_busy hs hb, regValue_resetRegisters_releaseLatches _, rfl, ⟨rfl, rfl⟩, rfl, ⟨rfl, rfl⟩,
      recordEnding_own (s.withScript rest).abandon s.op _,
      fun h => abandon_pix_of_not_encode (s := s.withScript rest) (h.resolve_left nofun),
      fun h => abandon_bytes_of_not_decode (s := s.withScript rest) (h.resolve_left nofun)⟩

/-- Settles O21 with the locations that an abandoned command could have written. -/
theorem resetDuringACommandLeavesDraws : Obligations.ResetDuringACommandLeavesDraws := by
  intro s rest hinv hs hb
  refine ⟨_, step_reset_of_busy hs hb, rfl, rfl, rfl, rfl, fun i => ?pix, fun a => ?bytes⟩
  case pix =>
    refine (memRead_abandon_pix (s := s.withScript rest) hinv.pix_wf i).trans ?_
    simp only [inDestination_iff, and_assoc]
    rfl
  case bytes =>
    refine (memRead_abandon_bytes (s := s.withScript rest) hinv.bytes_wf a).trans ?_
    simp only [inOutput_iff, and_assoc]
    rfl

/-- An ENCODE with an empty payload, with no command of another core on record or running, only reports its error. -/
theorem completeCommand_of_empty_payload {s : State} (hmet : s.met = []) (hlen : s.op.payloadLen = 0) :
    completeCommand .encode s = .next (s.raise .emptyPayload) := by
  have herror : s.encodeError = .emptyPayload := if_pos hlen
  rw [completeCommand_of_met_eq_nil .encode hmet, ← herror]
  exact execEncode_of_error s (by simp [herror])

/-- Settles O22: after a reset PAY_LEN is 0 and no other core runs. -/
theorem firstStartAfterResetReportsEmptyPayload : Obligations.FirstStartAfterResetReportsEmptyPayload := by
  have hdecode : decode 0x00000001#32 = .ok .encode := decode_encodeWith 0#28 false .encode
  have hstart := step_of_start (s := State.reset.withScript [.regWrite 32 0x00 0x00000001#32, .complete])
    (rest := [.complete]) rfl hdecode rfl
  have hcomplete := step_of_started (s := (State.reset.withScript [.complete]).setCtrl 0x00000001#32) (i := .encode)
    (rest := []) rfl
  rw [completeCommand_of_empty_payload (met_eq_nil rfl rfl) rfl] at hcomplete
  exact ⟨_, (run_succ_of_next hstart 1).trans (run_succ_of_next hcomplete 0), by decide, rfl, rfl, rfl⟩

end Sys2Proof.Machine
end
